-- ==== Sys2Proof/Word.lean ====
section
/-! DEFINITION. The words of MDIO-TC (spec/00_scope.md R9, R12): 32-bit hardware words, the 16-bit values of
the management bus, and bytes of system memory. -/

namespace Sys2Proof

/-- A hardware register or a word of descriptor memory (REG_W = 32, R9). -/
abbrev Word := BitVec 32

/-- Management data (MDIO_DATA_W = 16, R9). -/
abbrev Data16 := BitVec 16

/-- One byte of system memory. -/
abbrev Byte := BitVec 8

/-- A PHY address field, six bits wide to hold 0..62 (R9, R10, R22). -/
abbrev PhyAddr := BitVec 6

/-- A PHY register address, 0..31 (R9, R22). -/
abbrev RegAddr := BitVec 5

end Sys2Proof
end

