-- ==== Sys2Proof/Config.lean ====
section
/-! DEFINITION. What is fixed for a machine: the constants of R9, the parameters R11 leaves open, and the free
values for which the spec says a register holds no value or a value is drawn by the environment. -/

namespace Sys2Proof.Config

/-- PHY_ADDR_MAX (R9, R10). -/
def phyAddrMax : Nat := 62

/-- REG_ADDR_MAX (R9). -/
def regAddrMax : Nat := 31

/-- OP_READ (R9). -/
def opRead : BitVec 2 := 0b11#2

/-- OP_WRITE (R9). -/
def opWrite : BitVec 2 := 0b01#2

/-- NO_DEVICE, the value read from an absent PHY (R9). -/
def noDevice : Data16 := 0xFFFF#16

/-- The largest value of the 14-bit length field of a TX descriptor (R9, R214). -/
def txLenMax : Nat := 16383

/-- How RX.REARM moves the RX tail pointer (RX_REARM_MODE, R11, R240). -/
inductive RearmMode where
  | absolute
  | increment
  deriving DecidableEq, Repr, Inhabited

/-- The parameters R11 leaves open, each with the default R11 names. PRESUMED (log entry 9): the defaults of the
command-word and PHY-register rows are general knowledge (93 G1, G2); unsafe wherever a claim rests on one. -/
structure Params where
  /-- CMD_BUSY_BIT: bit of MDIO_CMD that is the begin/busy flag. -/
  cmdBusyBit : Nat := 0
  /-- CMD_OP_LO: low bit of the operation code in MDIO_CMD. -/
  cmdOpLo : Nat := 2
  /-- CMD_REGAD_LO: low bit of the register address in MDIO_CMD. -/
  cmdRegadLo : Nat := 16
  /-- CMD_PHYAD_LO: low bit of the PHY address in MDIO_CMD. -/
  cmdPhyadLo : Nat := 21
  /-- BCR_IDX: the Basic Control Register. -/
  bcrIdx : RegAddr := 0#5
  /-- BCR_RESET_BIT: its reset bit. -/
  bcrResetBit : Nat := 15
  /-- BSR_IDX: the Basic Status Register. -/
  bsrIdx : RegAddr := 1#5
  /-- BSR_LINK_BIT: its link-up bit. -/
  bsrLinkBit : Nat := 2
  /-- ID_IDX: the identifier register PHY.DETECT reads. -/
  idIdx : RegAddr := 2#5
  /-- VSR_IDX: the vendor Status Register. -/
  vsrIdx : RegAddr := 31#5
  /-- VSR_ANDONE_BIT: its autonegotiation-done bit. -/
  vsrAndoneBit : Nat := 12
  /-- VSR_CODE_LO: the low bit of its speed/duplex code. -/
  vsrCodeLo : Nat := 2
  /-- LS_SECOND_REG: the register of PHY.LINKSTATUS's second read (R189). -/
  lsSecondReg : RegAddr := vsrIdx
  /-- IDX_W: width of the producer and consumer indices (R205). -/
  idxW : Nat := 32
  /-- DESC_SPAN: bytes from one descriptor to the next (R201). -/
  descSpan : Nat := 16
  /-- DESC_ALIGN: required alignment of a descriptor address (R76). -/
  descAlign : Nat := 4
  /-- ADDR_W: width of a memory address (R70, R74). -/
  addrW : Nat := 32
  /-- TX_TAIL_WRAP: the TX tail pointer wraps to the base after the last slot (R210). -/
  txTailWrap : Bool := false
  /-- RX_REARM_MODE (R240). -/
  rxRearmMode : RearmMode := .absolute
  deriving DecidableEq, Repr, Inhabited

/-- The defaults of R11. -/
def Params.default : Params := {}

/-- An answer of the wait hook: success, or failure with an opaque 32-bit code (R152). -/
inductive HookAnswer where
  | ok
  | fail (e : Word)
  deriving DecidableEq, Repr, Inhabited

/-- FREE VALUE (log entry 6): what a result register or ERRINFO holds where the spec says it holds no value
(R33, R268, R269), for the n-th draw. Nothing constrains it; safe. -/
opaque freeWord : Nat → Word

/-- FREE VALUE (log entry 7): the wait hook's answer at a call for which State lists none (R152), for the n-th
draw; safe. -/
opaque freeHook : Nat → HookAnswer

/-- FREE VALUE (log entry 8): what a register of a present PHY that nothing has pinned reads as (R160), for the
n-th draw; safe. -/
opaque freePhy : Nat → Data16

end Sys2Proof.Config
end

