-- ==== Sys2Proof/Syntax.lean ====
section
/-! DEFINITION. The instructions of MDIO-TC: one constructor per row of spec/opcode_table.json. The thirteen
operations of R7 carry no field, since their operands come from ARG0 to ARG2 (R113); the two command words of
R102 carry the PHY address and the register address. -/

namespace Sys2Proof

inductive Instr where
  /-- MDIO.READ, OPSEL 0x1 (R142). -/
  | mdioRead
  /-- MDIO.WRITE, OPSEL 0x2 (R143). -/
  | mdioWrite
  /-- PHY.SETADDR, OPSEL 0x3 (R173). -/
  | phySetaddr
  /-- PHY.DETECT, OPSEL 0x4 (R176). -/
  | phyDetect
  /-- PHY.RESET, OPSEL 0x5 (R180). -/
  | phyReset
  /-- PHY.LINKSTATUS, OPSEL 0x6 (R186). -/
  | phyLinkstatus
  /-- TX.SETDESC, OPSEL 0x8 (R206). -/
  | txSetdesc
  /-- TX.PUT, OPSEL 0x9 (R208). -/
  | txPut
  /-- TX.UPDATE, OPSEL 0xA (R215). -/
  | txUpdate
  /-- RX.ARM, OPSEL 0xB (R232). -/
  | rxArm
  /-- RX.POLL, OPSEL 0xC (R235). -/
  | rxPoll
  /-- RX.REARM, OPSEL 0xD (R238). -/
  | rxRearm
  /-- DMA.SWRESET, OPSEL 0xE (R251). -/
  | dmaSwreset
  /-- CMDW.READ, a command word with OP = 0b11 (R102, R154). -/
  | cmdwRead (phyad : PhyAddr) (regad : RegAddr)
  /-- CMDW.WRITE, a command word with OP = 0b01 (R102, R155). -/
  | cmdwWrite (phyad : PhyAddr) (regad : RegAddr)
  deriving DecidableEq, Repr, Inhabited

end Sys2Proof
end

