-- ==== Sys2Proof/WellFormed.lean ====
section
/-! DEFINITION. What a well-formed instruction and a well-formed choice of parameters are. -/

namespace Sys2Proof

/-- The PHY address 63 is reserved (R10, R112); every other field value and every operation is well-formed. -/
def Instr.wellFormed : Instr → Bool
  | .mdioRead => true
  | .mdioWrite => true
  | .phySetaddr => true
  | .phyDetect => true
  | .phyReset => true
  | .phyLinkstatus => true
  | .txSetdesc => true
  | .txPut => true
  | .txUpdate => true
  | .rxArm => true
  | .rxPoll => true
  | .rxRearm => true
  | .dmaSwreset => true
  | .cmdwRead p _ => decide (p.toNat ≤ Config.phyAddrMax)
  | .cmdwWrite p _ => decide (p.toNat ≤ Config.phyAddrMax)

/-- Two bit ranges, each a low bit and a width, share no bit. -/
def disjointFields (lo₁ w₁ lo₂ w₂ : Nat) : Bool := decide (lo₁ + w₁ ≤ lo₂ ∨ lo₂ + w₂ ≤ lo₁)

/-- The widths and sizes of the descriptor rings (R11): indices and addresses lie in a word (R13: "a 32-bit value
unless the register is narrower"); every slot count a ring in the address space can have is an index (R205); a
descriptor address and each descriptor of an array is a multiple of 4 (R76), and an array's descriptors of four words
do not overlap (R201). DEDUCED (log entry 10). -/
def Config.Params.ringsOk (P : Config.Params) : Bool :=
  decide (P.idxW ≤ 32) && decide (P.addrW ≤ 32) && decide (P.addrW ≤ P.idxW + 4) &&
  decide (0 < P.descAlign) && decide (P.descAlign % 4 = 0) && decide (P.descSpan % P.descAlign = 0) &&
  decide (16 ≤ P.descSpan)

/-- The four fields of MDIO_CMD lie in the word and are disjoint (R102: "the parameters must make the four
fields disjoint"), every PHY register bit lies in its 16-bit register (R109), and the rings' widths and sizes fit one
another. -/
def Config.Params.wellFormed (P : Config.Params) : Bool :=
  decide (P.cmdBusyBit < 32) && decide (P.cmdOpLo + 2 ≤ 32) &&
  decide (P.cmdRegadLo + 5 ≤ 32) && decide (P.cmdPhyadLo + 6 ≤ 32) &&
  disjointFields P.cmdBusyBit 1 P.cmdOpLo 2 && disjointFields P.cmdBusyBit 1 P.cmdRegadLo 5 &&
  disjointFields P.cmdBusyBit 1 P.cmdPhyadLo 6 && disjointFields P.cmdOpLo 2 P.cmdRegadLo 5 &&
  disjointFields P.cmdOpLo 2 P.cmdPhyadLo 6 && disjointFields P.cmdRegadLo 5 P.cmdPhyadLo 6 &&
  decide (P.bcrResetBit < 16) && decide (P.bsrLinkBit < 16) &&
  decide (P.vsrAndoneBit < 16) && decide (P.vsrCodeLo + 3 ≤ 16) &&
  P.ringsOk

end Sys2Proof
end

