-- ==== Sys2Proof/Decode.lean ====
section
/-! DEFINITION. The two instruction formats of MDIO-TC (spec/30_encoding.md R100 to R102), decoded from words and
bytes, rejecting by name, and the encoder. Which format a word has is not in the word: an OPW is what HOST writes
to the operation port, a CMDW is what stands in MDIO_CMD (R100). -/

namespace Sys2Proof

/-- The register a word stands in, which is what its format depends on (R100). -/
inductive Format where
  | opw
  | cmdw
  deriving DecidableEq, Repr

/-- Why a word is no instruction. -/
inductive Reject where
  /-- OPSEL 0x0, 0x7 or 0xF (R115). -/
  | reservedOpsel
  /-- OPW with any of bits [31:4] set (R115). -/
  | reservedOpwBits
  /-- A command word whose begin/busy bit is 0 begins nothing (R102). -/
  | notBegun
  /-- OP = 0b00 or 0b10 (R116). -/
  | reservedOp
  /-- PHYAD = 63 (R112). -/
  | reservedPhyad
  /-- A command word with a bit set outside the four fields (R102). -/
  | reservedCmdwBits
  /-- Not four bytes: every instruction is one 32-bit word (R100). -/
  | length
  deriving DecidableEq, Repr

/-! ### Fields of a word -/

/-- The `w`-bit field of `v` whose low bit is `lo` (the form `v[hi:lo]` of R13). -/
def field {n : Nat} (v : BitVec n) (lo w : Nat) : BitVec w := (v >>> lo).setWidth w

/-- The word whose `w`-bit field at `lo` is `f` and whose other bits are 0. -/
def place {w : Nat} (f : BitVec w) (lo : Nat) : Word := f.setWidth 32 <<< lo

/-! ### CMDW, the command word of MDIO_CMD (R22, R102, R110) -/

/-- cmdw(p, r, o), with BUSY = 1 (R110). -/
def cmdw (P : Config.Params) (p : PhyAddr) (r : RegAddr) (o : BitVec 2) : Word :=
  place p P.cmdPhyadLo ||| place r P.cmdRegadLo ||| place o P.cmdOpLo ||| place 1#1 P.cmdBusyBit

/-- The BUSY field. -/
def cmdBusy (P : Config.Params) (c : Word) : Bool := c.getLsbD P.cmdBusyBit

/-- The OP field. -/
def cmdOp (P : Config.Params) (c : Word) : BitVec 2 := field c P.cmdOpLo 2

/-- The REGAD field. -/
def cmdRegad (P : Config.Params) (c : Word) : RegAddr := field c P.cmdRegadLo 5

/-- The PHYAD field. -/
def cmdPhyad (P : Config.Params) (c : Word) : PhyAddr := field c P.cmdPhyadLo 6

/-- The word with BUSY cleared and every other bit kept (R154, R155). -/
def cmdClearBusy (P : Config.Params) (c : Word) : Word := c &&& ~~~ (place 1#1 P.cmdBusyBit)

/-- The transaction a command word names, by its four fields alone: reserved bits are ignored on a read (93 U3). -/
def cmdTransaction (P : Config.Params) (c : Word) : Except Reject Instr :=
  if cmdBusy P c = false then .error .notBegun
  else if (cmdPhyad P c).toNat > Config.phyAddrMax then .error .reservedPhyad
  else if cmdOp P c = Config.opRead then .ok (.cmdwRead (cmdPhyad P c) (cmdRegad P c))
  else if cmdOp P c = Config.opWrite then .ok (.cmdwWrite (cmdPhyad P c) (cmdRegad P c))
  else .error .reservedOp

/-- Decode a CMDW: the transaction its fields name, and 0 in every reserved bit. -/
def decodeCmdw (P : Config.Params) (c : Word) : Except Reject Instr :=
  match cmdTransaction P c with
  | .error r => .error r
  | .ok i =>
    if cmdw P (cmdPhyad P c) (cmdRegad P c) (cmdOp P c) = c then .ok i else .error .reservedCmdwBits

/-! ### OPW, the operation word (R101) -/

/-- The operation OPSEL selects (the table of R101); none where it is reserved (R115). -/
def opselInstr (n : Nat) : Option Instr :=
  match n with
  | 1 => some .mdioRead
  | 2 => some .mdioWrite
  | 3 => some .phySetaddr
  | 4 => some .phyDetect
  | 5 => some .phyReset
  | 6 => some .phyLinkstatus
  | 8 => some .txSetdesc
  | 9 => some .txPut
  | 10 => some .txUpdate
  | 11 => some .rxArm
  | 12 => some .rxPoll
  | 13 => some .rxRearm
  | 14 => some .dmaSwreset
  | _ => none

/-- Decode an OPW: bits [31:4] are 0 and OPSEL = bits [3:0] is not reserved. -/
def decodeOpw (w : Word) : Except Reject Instr :=
  if field w 4 28 = 0#28 then
    match opselInstr (field w 0 4).toNat with
    | some i => .ok i
    | none => .error .reservedOpsel
  else .error .reservedOpwBits

/-! ### Words, bytes and the table's words -/

/-- Decode a word of the given format. -/
def decodeWord (P : Config.Params) : Format → Word → Except Reject Instr
  | .opw, w => decodeOpw w
  | .cmdw, w => decodeCmdw P w

/-- Decode bytes of the given format, the lowest address first: little-endian (R75), and exactly four bytes. -/
def decode (P : Config.Params) (f : Format) : List Byte → Except Reject Instr
  | [b0, b1, b2, b3] => decodeWord P f (b3 ++ b2 ++ b1 ++ b0 : BitVec (8 + 8 + 8 + 8))
  | _ => .error .length

/-- The format of an instruction. -/
def Instr.format : Instr → Format
  | .mdioRead => .opw
  | .mdioWrite => .opw
  | .phySetaddr => .opw
  | .phyDetect => .opw
  | .phyReset => .opw
  | .phyLinkstatus => .opw
  | .txSetdesc => .opw
  | .txPut => .opw
  | .txUpdate => .opw
  | .rxArm => .opw
  | .rxPoll => .opw
  | .rxRearm => .opw
  | .dmaSwreset => .opw
  | .cmdwRead _ _ => .cmdw
  | .cmdwWrite _ _ => .cmdw

/-- The word of an instruction, from the tables of R101 and R102. -/
def encode (P : Config.Params) : Instr → Word
  | .mdioRead => 0x1#32
  | .mdioWrite => 0x2#32
  | .phySetaddr => 0x3#32
  | .phyDetect => 0x4#32
  | .phyReset => 0x5#32
  | .phyLinkstatus => 0x6#32
  | .txSetdesc => 0x8#32
  | .txPut => 0x9#32
  | .txUpdate => 0xA#32
  | .rxArm => 0xB#32
  | .rxPoll => 0xC#32
  | .rxRearm => 0xD#32
  | .dmaSwreset => 0xE#32
  | .cmdwRead p r => cmdw P p r Config.opRead
  | .cmdwWrite p r => cmdw P p r Config.opWrite

/-- The bytes of a word, the lowest address first (R75). -/
def wordBytes (w : Word) : List Byte := [field w 0 8, field w 8 8, field w 16 8, field w 24 8]

/-- The instruction read from a word of spec/opcode_table.json with the default parameters. DESIGN CHOICE (log
entry 16): the words 0x00000005 and 0x0000000D belong to an OPW row and to a CMDW row, in two different registers;
here, where the register is not given, the OPW reading is taken. -/
def decodeTableWord (nbits w : Nat) : Option Instr :=
  if nbits ≤ 32 ∧ w < 2 ^ nbits then
    let bytes := wordBytes (BitVec.ofNat 32 w)
    match decode .default .opw bytes with
    | .ok i => some i
    | .error _ =>
      match decode .default .cmdw bytes with
      | .ok i => some i
      | .error _ => none
  else none

end Sys2Proof
end

