-- ==== Sys2Proof/Machine/State.lean ====
section
/-! DEFINITION. The state of MDIO-TC (spec/10_state.md), the reasons a step can be refused, and the state after
reset (R51, R300). Everything is plain data. -/

namespace Sys2Proof.Machine

/-! ### Why a step stops -/

/-- MDIO-TC has no fault mechanism (60 R267, R273, R279; 93: "fault (not used)"), so no constructor: no step ever
stops with a fault. -/
inductive Fault where
  deriving DecidableEq, Repr

/-- What the spec gives no meaning: the reasons of R271's table, and two for steps that do not exist. Each is safe:
nothing is proved through a refusal. -/
inductive Refusal where
  /-- No arm of `exec` is rejected by name any more; safe. -/
  | notModelled (mnemonic : String)
  /-- HOST writes OPW, an ARG register or CFG while SEQ is not IDLE (R30, R31, R40, R281); safe. -/
  | secondActor
  /-- A reserved OPSEL, OPW bits [31:4] set (R115), or a BUS completion with a reserved OP or PHYAD (R112, R116);
  safe. -/
  | reservedEncoding
  /-- HOST writes a register other than OPW, ARG0 to ARG2 and CFG (R21); safe. -/
  | notHostWritable
  /-- An operand out of its range (R144, R173); raised by MDIO.READ, MDIO.WRITE, PHY.SETADDR and nested
  transactions; safe. -/
  | operandRange
  /-- A transaction is about to write MDIO_DATA or MDIO_CMD while BUSY = 1 (R149); safe. -/
  | commandWhileBusy
  /-- PHY.RESET or PHY.LINKSTATUS with PHYADDR.VALID = 0 (R172); safe. -/
  | noPhyAddress
  /-- TX.SETDESC with L = 0 (R206); safe. -/
  | emptyArray
  /-- TX.SETDESC or RX.ARM with an address that is not a multiple of DESC_ALIGN (R76), and a memory access at an
  address that is not a multiple of 4 (R74), which only a HOST write can ask for; safe. -/
  | misaligned
  /-- TX.SETDESC or RX.ARM with an end at or above 2^ADDR_W (R206, R232), and a memory access there (R74), which only a
  HOST write can ask for; safe. -/
  | outOfAddressSpace
  /-- TX.PUT or TX.UPDATE with TX_VALID = 0 (R204); safe. -/
  | ringNotSet
  /-- TX.PUT with len greater than 16383 (R214); safe. -/
  | lengthRange
  /-- RX.POLL or RX.REARM with RX_VALID = 0 (R231); safe. -/
  | slotNotArmed
  /-- RX.ARM with RX_VALID = 1 (R231); safe. -/
  | alreadyArmed
  /-- RX.REARM on a descriptor whose OWN bit is 1 (R239); safe. -/
  | descriptorDmaOwned
  /-- A step of BUS, PHY or DMA whose enabling condition is false (R154, R155, R160, R222, R241, R252): there is no
  such step (log entry 13); safe. -/
  | notEnabled
  deriving DecidableEq, Repr

/-! ### The register file (R21) -/

/-- The registers of R21 that hold a word: all but number 16, SEQ. -/
inductive Reg where
  | mdioCmd | mdioData | txRingBase | txRingLen | txTailPtr | rxRingBase | rxTailPtr | dmaCtrl
  | opw | arg0 | arg1 | arg2 | res0 | res1 | status | errinfo
  | phyaddr | txBase | txN | txMask | txTail | txCur | rxDesc | rxBuf | cfg | init
  deriving DecidableEq, Repr

/-- The contents of the register file. -/
structure Regs where
  /-- 0, MDIO_CMD (R22). -/
  mdioCmd : Word
  /-- 1, MDIO_DATA (R23). -/
  mdioData : Word
  /-- 2, TX_RING_BASE (R24). -/
  txRingBase : Word
  /-- 3, TX_RING_LEN (R25). -/
  txRingLen : Word
  /-- 4, TX_TAIL_PTR (R26). -/
  txTailPtr : Word
  /-- 5, RX_RING_BASE (R27). -/
  rxRingBase : Word
  /-- 6, RX_TAIL_PTR (R28). -/
  rxTailPtr : Word
  /-- 7, DMA_CTRL (R29). -/
  dmaCtrl : Word
  /-- 8, OPW (R30). -/
  opw : Word
  /-- 9, ARG0 (R31). -/
  arg0 : Word
  /-- 10, ARG1 (R31). -/
  arg1 : Word
  /-- 11, ARG2 (R31). -/
  arg2 : Word
  /-- 12, RES0 (R32). -/
  res0 : Word
  /-- 13, RES1 (R32). -/
  res1 : Word
  /-- 14, STATUS (R33). -/
  status : Word
  /-- 15, ERRINFO (R33). -/
  errinfo : Word
  /-- 17, PHYADDR (R35). -/
  phyaddr : Word
  /-- 18, TX_BASE (R36). -/
  txBase : Word
  /-- 19, TX_N (R36). -/
  txN : Word
  /-- 20, TX_MASK (R36). -/
  txMask : Word
  /-- 21, TX_TAIL (R37), an index of IDX_W bits. -/
  txTail : Word
  /-- 22, TX_CUR (R37), an index of IDX_W bits. -/
  txCur : Word
  /-- 23, RX_DESC (R39). -/
  rxDesc : Word
  /-- 24, RX_BUF (R39). -/
  rxBuf : Word
  /-- 25, CFG (R40). -/
  cfg : Word
  /-- 26, INIT (R38). -/
  init : Word
  deriving DecidableEq, Repr

/-! ### SEQ, the sequencer state register (R34) -/

/-- A position inside an MDIO.READ or MDIO.WRITE, top-level or nested (R142, R143, R146): the next access and the
local variables that are still needed. -/
inductive MdioPos where
  /-- About to write MDIO_DATA (a write's first access). -/
  | writeData (p : PhyAddr) (r : RegAddr) (v : Data16)
  /-- About to write MDIO_CMD with operation code `o`. -/
  | writeCmd (p : PhyAddr) (r : RegAddr) (o : BitVec 2)
  /-- PollBusy: about to read MDIO_CMD; `o` is the transaction's operation code. -/
  | poll (o : BitVec 2)
  /-- PollBusy saw BUSY = 1: about to read CFG. -/
  | cfg (o : BitVec 2)
  /-- PollBusy: about to call the hook. -/
  | hook (o : BitVec 2)
  /-- About to read MDIO_DATA (a read's last access). -/
  | readData
  deriving DecidableEq, Repr

/-- The accesses of TX.SETDESC, in order (R206). -/
inductive SetdescPos where
  | base | n | mask | tail | cur | ringBase | ringLen | tailPtr | valid
  deriving DecidableEq, Repr

/-- The accesses of TX.PUT, in order (R208, R210), each with the local variables read before it: the slot `s`, the
descriptor's address `d`, and the values on the way to them. -/
inductive PutPos where
  /-- `x[TX_TAIL]` of `s`. -/
  | tail
  /-- `x[TX_MASK]` of `s`. -/
  | mask (tail : Word)
  /-- `x[TX_BASE]` of `d`. -/
  | base (s : Word)
  /-- The read of word 3. -/
  | readOwn (s d : Word)
  /-- `x[TX_N]` of the capacity test's `x[TX_N] > 1`. -/
  | capN (s d : Word)
  /-- The capacity test's `x[TX_TAIL]`. -/
  | capTail (s d : Word)
  /-- The capacity test's `x[TX_CUR]`. -/
  | capCur (s d tail : Word)
  /-- The capacity test's second `x[TX_N]`. -/
  | capEq (s d used : Word)
  | writeBuf (s d : Word)
  | writeLen (s d : Word)
  | writeCtl (s d : Word)
  /-- `x[TX_N]` of TailPtr, where TX_TAIL_WRAP = 1. -/
  | ptrN (s d : Word)
  /-- `x[TX_BASE]` of TailPtr; `wrap`: the pointer is the base itself. -/
  | ptrBase (s d : Word) (wrap : Bool)
  | writeTailPtr (s d ptr : Word)
  /-- `x[TX_TAIL]` of `x[TX_TAIL] + 1`. -/
  | incTail (s d : Word)
  | writeTail (s d tail : Word)
  deriving DecidableEq, Repr

/-- The accesses of TX.UPDATE (R215), each with the local variables read before it. -/
inductive UpdatePos where
  /-- `x[TX_CUR]` of the loop's test. -/
  | headCur
  /-- `x[TX_TAIL]` of the loop's test. -/
  | headTail (cur : Word)
  /-- `x[TX_CUR]` of `s`. -/
  | slotCur
  /-- `x[TX_MASK]` of `s`. -/
  | slotMask (cur : Word)
  /-- `x[TX_BASE]` of the address. -/
  | base (s : Word)
  /-- The read of word 3 of the descriptor at `d`. -/
  | readOwn (d : Word)
  /-- `x[TX_CUR]` of `x[TX_CUR] + 1`. -/
  | incCur
  | writeCur (cur : Word)
  /-- `x[TX_TAIL]` of RES0. -/
  | retTail
  /-- `x[TX_CUR]` of RES0. -/
  | retCur (tail : Word)
  /-- `x[TX_CUR]` of RES1. -/
  | retSlotCur (pending : Word)
  /-- `x[TX_MASK]` of RES1. -/
  | retMask (pending cur : Word)
  deriving DecidableEq, Repr

/-- The accesses of RX.ARM, in order (R232). -/
inductive ArmPos where
  | desc | buf | memBuf | memCtl | ringBase | tailPtr | valid
  deriving DecidableEq, Repr

/-- The accesses of RX.POLL, in order (R235), with the local variables read before them. -/
inductive PollPos where
  /-- `x[RX_DESC]`. -/
  | desc
  | readOwn (d : Word)
  | readLen (d : Word)
  /-- `x[RX_BUF]`. -/
  | buf (len : Word)
  deriving DecidableEq, Repr

/-- The accesses of RX.REARM, in order (R238), with the local variables read before them. -/
inductive RearmPos where
  /-- `x[RX_DESC]`. -/
  | desc
  | readOwn (d : Word)
  | writeCtl (d : Word)
  /-- `x[RX_TAIL_PTR]`, where RX_REARM_MODE = INCREMENT. -/
  | readTailPtr (d : Word)
  | writeTailPtr (d ptr : Word)
  deriving DecidableEq, Repr

/-- The accesses of DMA.SWRESET (R251). -/
inductive SwresetPos where
  | writeCtrl | clearInit | poll
  deriving DecidableEq, Repr

/-- The kinds of `raise` (R261 to R265). -/
inductive Raise where
  | hookFail (e : Word)
  | notFound
  | slotBusy
  | ringFull
  | notReady
  deriving DecidableEq, Repr

/-- The last step of an operation: `return`, with the values of the result registers the operation lists (R269), or
`raise` (R267). -/
inductive Ending where
  | ret (res0 res1 : Option Word)
  | raise (k : Raise)
  deriving DecidableEq, Repr

/-- SEQ (R34): IDLE, or the operation, the position of its next step and its local variables. -/
inductive Seq where
  | idle
  | mdioRead (m : MdioPos)
  | mdioWrite (m : MdioPos)
  | phySetaddr (a : PhyAddr)
  /-- Inside the nested read of address `a` (R176). -/
  | phyDetect (a : PhyAddr) (m : MdioPos)
  /-- About to write PHYADDR with the accepted address. -/
  | phyDetectStore (a : PhyAddr)
  /-- PHY.RESET is about to read PHYADDR (R180). -/
  | phyResetAddr
  /-- Inside the initial nested write (R180). -/
  | phyResetWrite (p : PhyAddr) (m : MdioPos)
  /-- Inside a polling nested read. -/
  | phyResetRead (p : PhyAddr) (m : MdioPos)
  /-- A polling read did not show the reset done: about to read CFG. -/
  | phyResetCfg (p : PhyAddr)
  /-- About to call the hook between polls. -/
  | phyResetHook (p : PhyAddr)
  /-- PHY.LINKSTATUS is about to read PHYADDR (R186). -/
  | phyLinkAddr
  /-- Inside the nested read of BSR (R186). -/
  | phyLinkFirst (p : PhyAddr) (m : MdioPos)
  /-- Inside the second nested read. -/
  | phyLinkSecond (p : PhyAddr) (m : MdioPos)
  | txSetdesc (k : SetdescPos) (base n : Word)
  | txPut (k : PutPos) (buf len : Word)
  | txUpdate (k : UpdatePos)
  | rxArm (k : ArmPos) (desc buf : Word)
  | rxPoll (k : PollPos)
  | rxRearm (k : RearmPos)
  | dmaSwreset (k : SwresetPos)
  /-- The operation `i` is about to return or raise. -/
  | ending (i : Instr) (e : Ending)
  deriving DecidableEq, Repr

/-- The operation SEQ is running; none when it is IDLE. -/
def Seq.operation : Seq → Option Instr
  | .idle => none
  | .mdioRead _ => some .mdioRead
  | .mdioWrite _ => some .mdioWrite
  | .phySetaddr _ => some .phySetaddr
  | .phyDetect _ _ => some .phyDetect
  | .phyDetectStore _ => some .phyDetect
  | .phyResetAddr => some .phyReset
  | .phyResetWrite _ _ => some .phyReset
  | .phyResetRead _ _ => some .phyReset
  | .phyResetCfg _ => some .phyReset
  | .phyResetHook _ => some .phyReset
  | .phyLinkAddr => some .phyLinkstatus
  | .phyLinkFirst _ _ => some .phyLinkstatus
  | .phyLinkSecond _ _ => some .phyLinkstatus
  | .txSetdesc _ _ _ => some .txSetdesc
  | .txPut _ _ _ => some .txPut
  | .txUpdate _ => some .txUpdate
  | .rxArm _ _ _ => some .rxArm
  | .rxPoll _ => some .rxPoll
  | .rxRearm _ => some .rxRearm
  | .dmaSwreset _ => some .dmaSwreset
  | .ending i _ => some i

/-! ### The other agents' steps -/

/-- One coming step of an agent (R8). -/
inductive Event where
  /-- SEQ takes its next step. -/
  | seq
  /-- HOST writes the register of that number (R21). -/
  | hostWrite (n : Fin 27) (v : Word)
  /-- HOST reads the register of that number (R21). -/
  | hostRead (n : Fin 27)
  /-- HOST writes an aligned word of system memory (R45, R305; log entries 19 and 23). -/
  | hostMem (a v : Word)
  /-- BUS completes the transaction in flight (R154, R155). -/
  | bus
  /-- The PHY at `p` changes its register `r` to `v` (R160). -/
  | phy (p : PhyAddr) (r : RegAddr) (v : Data16)
  /-- DMA completes the TX descriptor of that slot (R222). -/
  | dmaTxDone (slot : Word)
  /-- DMA deposits a frame of `n` bytes, and sets bit 24 of word 3 if `bufv` (R241). -/
  | dmaRxFrame (n : Nat) (bufv : Bool)
  /-- DMA finishes its soft reset (R252). -/
  | dmaSwrDone
  /-- The block is reset (R300). -/
  | blockReset
  deriving DecidableEq, Repr

/-! ### The state -/

/-- System memory: the bytes that are not 0, by rising address (`Memory.wf` in Machine/Ops.lean). -/
abbrev Memory := List Host.Cell

/-- The whole machine: the block, the memory it shares, and the agents around it. -/
structure State where
  /-- The 26 word registers (R21). -/
  regs : Regs
  /-- Register 16, SEQ (R34). -/
  seq : Seq
  /-- System memory (R42, R43, R45, R70). -/
  mem : Memory
  /-- PRESENT, the PHY addresses that have a device (R157), by rising number. -/
  present : List Nat
  /-- The PHY registers whose value is pinned (R46, R158), by 32 * PHY address + register address, rising. -/
  phyRegs : List (Nat × Data16)
  /-- The addresses of the words 3 of TX descriptors that DMA may consume (R48, R222, R223), rising: of each, the
  TX.PUT that set its OWN bit has written TX_TAIL_PTR. -/
  txGranted : List Nat
  /-- The addresses of the words 3 of RX descriptors that DMA may fill (R48, R241), rising: of each, the RX.ARM or
  RX.REARM that set its OWN bit has written RX_TAIL_PTR. -/
  rxGranted : List Nat
  /-- The model's own: the hook's coming answers (R152, log entry 7). -/
  hookAnswers : List Config.HookAnswer
  /-- The model's own: the agents' coming steps (R8, log entry 2). -/
  agenda : List Event
  /-- The model's own: how many free values have been drawn (log entry 6). -/
  draws : Nat
  /-- The parameters of R11, which no step writes (log entry 9). -/
  params : Config.Params
  deriving DecidableEq, Repr

/-- The registers after a reset of the block (R51): 0 where R51 says so, and 0, a DESIGN CHOICE (log entry 4,
unsafe), where R51 says "unspecified". -/
def Regs.reset : Regs where
  mdioCmd := 0#32
  mdioData := 0#32
  txRingBase := 0#32
  txRingLen := 0#32
  txTailPtr := 0#32
  rxRingBase := 0#32
  rxTailPtr := 0#32
  dmaCtrl := 0#32
  opw := 0#32
  arg0 := 0#32
  arg1 := 0#32
  arg2 := 0#32
  res0 := 0#32
  res1 := 0#32
  status := 0#32
  errinfo := 0#32
  phyaddr := 0#32
  txBase := 0#32
  txN := 0#32
  txMask := 0#32
  txTail := 0#32
  txCur := 0#32
  rxDesc := 0#32
  rxBuf := 0#32
  cfg := 0#32
  init := 0#32

/-- The machine right after reset (R51, R300): SEQ IDLE, nothing listed in memory, and around the block no device,
no pinned PHY register, no descriptor granted to DMA and no step announced (DESIGN CHOICE, log entries 2, 5, 7, 8
and 11). -/
def State.reset : State where
  regs := .reset
  seq := .idle
  mem := []
  present := []
  phyRegs := []
  txGranted := []
  rxGranted := []
  hookAnswers := []
  agenda := []
  draws := 0
  params := .default

end Sys2Proof.Machine
end

