-- ==== Sys2Proof/Machine/Ops.lean ====
section
/-! DEFINITION. The named operations over the register file, system memory, the PHY register view, DMA's position
and the wait hook, and the two ways an operation ends (R267, R269). -/

namespace Sys2Proof.Machine

/-- What a step answers. -/
abbrev Result := Host.Outcome State Fault Refusal

/-! ### The register file (R13, R21) -/

/-- The value of a register. -/
def Regs.get (rs : Regs) : Reg → Word
  | .mdioCmd => rs.mdioCmd
  | .mdioData => rs.mdioData
  | .txRingBase => rs.txRingBase
  | .txRingLen => rs.txRingLen
  | .txTailPtr => rs.txTailPtr
  | .rxRingBase => rs.rxRingBase
  | .rxTailPtr => rs.rxTailPtr
  | .dmaCtrl => rs.dmaCtrl
  | .opw => rs.opw
  | .arg0 => rs.arg0
  | .arg1 => rs.arg1
  | .arg2 => rs.arg2
  | .res0 => rs.res0
  | .res1 => rs.res1
  | .status => rs.status
  | .errinfo => rs.errinfo
  | .phyaddr => rs.phyaddr
  | .txBase => rs.txBase
  | .txN => rs.txN
  | .txMask => rs.txMask
  | .txTail => rs.txTail
  | .txCur => rs.txCur
  | .rxDesc => rs.rxDesc
  | .rxBuf => rs.rxBuf
  | .cfg => rs.cfg
  | .init => rs.init

/-- The register file with one register written whole. -/
def Regs.set (rs : Regs) (r : Reg) (v : Word) : Regs :=
  match r with
  | .mdioCmd => { rs with mdioCmd := v }
  | .mdioData => { rs with mdioData := v }
  | .txRingBase => { rs with txRingBase := v }
  | .txRingLen => { rs with txRingLen := v }
  | .txTailPtr => { rs with txTailPtr := v }
  | .rxRingBase => { rs with rxRingBase := v }
  | .rxTailPtr => { rs with rxTailPtr := v }
  | .dmaCtrl => { rs with dmaCtrl := v }
  | .opw => { rs with opw := v }
  | .arg0 => { rs with arg0 := v }
  | .arg1 => { rs with arg1 := v }
  | .arg2 => { rs with arg2 := v }
  | .res0 => { rs with res0 := v }
  | .res1 => { rs with res1 := v }
  | .status => { rs with status := v }
  | .errinfo => { rs with errinfo := v }
  | .phyaddr => { rs with phyaddr := v }
  | .txBase => { rs with txBase := v }
  | .txN => { rs with txN := v }
  | .txMask => { rs with txMask := v }
  | .txTail => { rs with txTail := v }
  | .txCur => { rs with txCur := v }
  | .rxDesc => { rs with rxDesc := v }
  | .rxBuf => { rs with rxBuf := v }
  | .cfg => { rs with cfg := v }
  | .init => { rs with init := v }

/-- The number R21 gives a register. -/
def Reg.number : Reg → Fin 27
  | .mdioCmd => 0
  | .mdioData => 1
  | .txRingBase => 2
  | .txRingLen => 3
  | .txTailPtr => 4
  | .rxRingBase => 5
  | .rxTailPtr => 6
  | .dmaCtrl => 7
  | .opw => 8
  | .arg0 => 9
  | .arg1 => 10
  | .arg2 => 11
  | .res0 => 12
  | .res1 => 13
  | .status => 14
  | .errinfo => 15
  | .phyaddr => 17
  | .txBase => 18
  | .txN => 19
  | .txMask => 20
  | .txTail => 21
  | .txCur => 22
  | .rxDesc => 23
  | .rxBuf => 24
  | .cfg => 25
  | .init => 26

/-- The word register of a number; none for 16, which is SEQ. -/
def Reg.ofNumber (n : Fin 27) : Option Reg :=
  match n.val with
  | 0 => some .mdioCmd
  | 1 => some .mdioData
  | 2 => some .txRingBase
  | 3 => some .txRingLen
  | 4 => some .txTailPtr
  | 5 => some .rxRingBase
  | 6 => some .rxTailPtr
  | 7 => some .dmaCtrl
  | 8 => some .opw
  | 9 => some .arg0
  | 10 => some .arg1
  | 11 => some .arg2
  | 12 => some .res0
  | 13 => some .res1
  | 14 => some .status
  | 15 => some .errinfo
  | 17 => some .phyaddr
  | 18 => some .txBase
  | 19 => some .txN
  | 20 => some .txMask
  | 21 => some .txTail
  | 22 => some .txCur
  | 23 => some .rxDesc
  | 24 => some .rxBuf
  | 25 => some .cfg
  | 26 => some .init
  | _ => none

/-- `x[NAME]` (R13). -/
def State.reg (s : State) (r : Reg) : Word := s.regs.get r

/-- `x[NAME] <- v` (R13). -/
def State.setReg (s : State) (r : Reg) (v : Word) : State := { s with regs := s.regs.set r v }

/-- `seq <- q` (R13, R34). -/
def State.goto (s : State) (q : Seq) : State := { s with seq := q }

/-! ### Lists in one canonical form: keys strictly rising -/

/-- The value listed for a key. -/
def Assoc.lookup {α : Type} (k : Nat) : List (Nat × α) → Option α
  | [] => none
  | c :: l => if c.1 = k then some c.2 else Assoc.lookup k l

/-- The list with `v` for the key `k`. -/
def Assoc.insert {α : Type} (k : Nat) (v : α) : List (Nat × α) → List (Nat × α)
  | [] => [(k, v)]
  | c :: l =>
    if k < c.1 then (k, v) :: c :: l
    else if c.1 = k then (k, v) :: l
    else c :: Assoc.insert k v l

/-- The list without the key `k`. -/
def Assoc.erase {α : Type} (k : Nat) : List (Nat × α) → List (Nat × α)
  | [] => []
  | c :: l => if c.1 = k then Assoc.erase k l else c :: Assoc.erase k l

/-- Every key of the list is above `lo`, and the keys rise strictly. -/
def Assoc.risingFrom {α : Type} (lo : Nat) : List (Nat × α) → Bool
  | [] => true
  | c :: l => decide (lo < c.1) && Assoc.risingFrom c.1 l

/-- The keys rise strictly. -/
def Assoc.rising {α : Type} : List (Nat × α) → Bool
  | [] => true
  | c :: l => Assoc.risingFrom c.1 l

/-! ### System memory (R70, R74, R75) -/

/-- What an address that nothing has written reads as. DESIGN CHOICE (log entry 5): R51 leaves memory unspecified
after reset; 0x00 is what R305 has HOST write before first use; unsafe. -/
def Memory.unlisted : Byte := 0#8

/-- The byte at an address. -/
def Memory.read (m : Memory) (a : Nat) : Byte := (Assoc.lookup a m).getD Memory.unlisted

/-- Memory with one byte written; the canonical form lists no byte that an unlisted address would read as. -/
def Memory.write (m : Memory) (a : Nat) (b : Byte) : Memory :=
  if b = Memory.unlisted then Assoc.erase a m else Assoc.insert a b m

/-- The canonical form: addresses rise strictly and lie below 2^32, and no listed byte is what an unlisted
address reads as. -/
def Memory.wf (m : Memory) : Bool :=
  Assoc.rising m && m.all fun c => decide (c.1 < 2 ^ 32) && decide (c.2 ≠ Memory.unlisted)

/-- The word at an address, little-endian (R75). -/
def Memory.readWord (m : Memory) (a : Nat) : Word :=
  (m.read (a + 3) ++ m.read (a + 2) ++ m.read (a + 1) ++ m.read a : BitVec (8 + 8 + 8 + 8))

/-- Memory with a word written, little-endian (R75). -/
def Memory.writeWord (m : Memory) (a : Nat) (v : Word) : Memory :=
  (((m.write a (field v 0 8)).write (a + 1) (field v 8 8)).write (a + 2) (field v 16 8)).write (a + 3)
    (field v 24 8)

/-- The address is a multiple of 4 (R74, R76). -/
def aligned (a : Word) : Bool := a &&& 3#32 == 0#32

/-- A word of system memory lies at this address: a multiple of 4, below 2^ADDR_W - 3 (R74). -/
def accessible (P : Config.Params) (a : Word) : Bool := aligned a && decide (a.toNat + 3 < 2 ^ P.addrW)

/-- Why there is no access at an address that is not accessible (R74). -/
def badAddress (a : Word) : Refusal := if aligned a then .outOfAddressSpace else .misaligned

/-! ### DMA's position (R48, R222, R223, R241, R252) -/

/-- The list with `a`, rising. -/
def Grants.insert (a : Nat) : List Nat → List Nat
  | [] => [a]
  | b :: l => if a < b then a :: b :: l else if b = a then b :: l else b :: Grants.insert a l

/-- The list without `a`. -/
def Grants.erase (a : Nat) (l : List Nat) : List Nat := l.filter fun b => decide (b ≠ a)

/-- TX_TAIL_PTR has been written after the word 3 at `a` was: DMA may consume that descriptor (R222, R223). -/
def State.grantTx (s : State) (a : Word) : State := { s with txGranted := Grants.insert a.toNat s.txGranted }

/-- RX_TAIL_PTR has been written after the word 3 at `a` was: DMA may fill that descriptor (R241). -/
def State.grantRx (s : State) (a : Word) : State := { s with rxGranted := Grants.insert a.toNat s.rxGranted }

/-- DMA may consume the TX descriptor whose word 3 is at `a`. -/
def State.isGrantedTx (s : State) (a : Word) : Bool := s.txGranted.contains a.toNat

/-- DMA may fill the RX descriptor whose word 3 is at `a`. -/
def State.isGrantedRx (s : State) (a : Word) : Bool := s.rxGranted.contains a.toNat

/-- DMA forgets every tail pointer write (R252). -/
def State.forgetGrants (s : State) : State := { s with txGranted := [], rxGranted := [] }

/-! ### Accesses of a word (R13, R74) -/

/-- The word at an address of the state's memory. -/
def State.word (s : State) (a : Word) : Word := s.mem.readWord a.toNat

/-- The state with a word of memory written. Whoever writes it, the bit 31 that stands there is from then on not the
one a TX.PUT, RX.ARM or RX.REARM had set before, so a grant of that word ends (R222, R241). DESIGN CHOICE where HOST
writes a word the block manages, which R321 leaves without rules (log entries 11 and 23); unsafe for a run with such a write. -/
def State.setWord (s : State) (a v : Word) : State :=
  { s with
    mem := s.mem.writeWord a.toNat v
    txGranted := Grants.erase a.toNat s.txGranted
    rxGranted := Grants.erase a.toNat s.rxGranted }

/-- `MemRead(a, 4)` and what follows it (R74). -/
def State.memRead (s : State) (a : Word) (k : Word → Result) : Result :=
  if accessible s.params a then k (s.word a) else .refused (badAddress a)

/-- `MemWrite(a, 4, v)` and what follows it (R74). -/
def State.memWrite (s : State) (a v : Word) (k : State → Result) : Result :=
  if accessible s.params a then k (s.setWord a v) else .refused (badAddress a)

/-! ### The PHY register view (R46, R73, R157, R158) -/

/-- Where the view lists register `r` of PHY `p`. -/
def phyKey (p : PhyAddr) (r : RegAddr) : Nat := 32 * p.toNat + r.toNat

/-- A device answers at this address. -/
def State.isPresent (s : State) (p : PhyAddr) : Bool := s.present.contains p.toNat

/-- `PhyRead(p, r)` (R154, R157, R160): 0xFFFF where no device is, else the pinned value, else a free value. -/
def State.phyRead (s : State) (p : PhyAddr) (r : RegAddr) : Data16 × State :=
  if s.isPresent p then
    match Assoc.lookup (phyKey p r) s.phyRegs with
    | some v => (v, s)
    | none => (Config.freePhy s.draws, { s with draws := s.draws + 1 })
  else (Config.noDevice, s)

/-- `PhyWrite(p, r, v)` (R155, R157, R158): nothing where no device is. -/
def State.phyWrite (s : State) (p : PhyAddr) (r : RegAddr) (v : Data16) : State :=
  if s.isPresent p then { s with phyRegs := Assoc.insert (phyKey p r) v s.phyRegs } else s

/-! ### The wait hook (R152) -/

/-- `Hook()`: the next listed answer, else a free one. -/
def State.callHook (s : State) : Config.HookAnswer × State :=
  match s.hookAnswers with
  | a :: rest => (a, { s with hookAnswers := rest })
  | [] => (Config.freeHook s.draws, { s with draws := s.draws + 1 })

/-! ### How an operation ends: `raise` (R267) and `return` (R269) -/

/-- The STATUS code of a raise (R107). -/
def Raise.code : Raise → Word
  | .hookFail _ => 1#32
  | .notFound => 2#32
  | .slotBusy => 3#32
  | .ringFull => 4#32
  | .notReady => 5#32

/-- What a raise puts in ERRINFO: the hook's code, else no value (R33, R261). -/
def Raise.info : Raise → Option Word
  | .hookFail e => some e
  | .notFound => none
  | .slotBusy => none
  | .ringFull => none
  | .notReady => none

/-- The step that ends an operation: STATUS, the result registers, ERRINFO and SEQ = IDLE. A register given no value
holds a free value (R268, R269; log entry 6). -/
def State.endOperation (s : State) (code : Word) (res0 res1 info : Option Word) : State :=
  { s with
    regs := (((s.regs.set .status code).set .res0 (res0.getD (Config.freeWord s.draws))).set .res1
      (res1.getD (Config.freeWord (s.draws + 1)))).set .errinfo (info.getD (Config.freeWord (s.draws + 2)))
    seq := .idle
    draws := s.draws + 3 }

/-- `raise K(info)` at the top level (R267): nothing the operation did before is undone. -/
def State.raise (s : State) (k : Raise) : State := s.endOperation k.code none none k.info

/-- `return (..)` (R269). -/
def State.ret (s : State) (res0 res1 : Option Word) : State := s.endOperation 0#32 res0 res1 none

/-- The last step of an operation. -/
def finish (e : Ending) (s : State) : Result :=
  match e with
  | .ret res0 res1 => .next (s.ret res0 res1)
  | .raise k => .next (s.raise k)

end Sys2Proof.Machine
end

