-- ==== Sys2Proof/Machine/Flags.lean ====
section
/-! DEFINITION. Every flag and field of MDIO-TC (R41, R108), the control words of the descriptors (R104, R105, R111),
the PHY register fields (R109), and the link status word (R106, R187). -/

namespace Sys2Proof.Machine

/-! ### Flags of the registers -/

/-- MDIO_CMD.BUSY (R22). -/
def State.busy (s : State) : Bool := cmdBusy s.params (s.reg .mdioCmd)

/-- DMA_CTRL.SWR (R29). -/
def State.swr (s : State) : Bool := (s.reg .dmaCtrl).getLsbD 0

/-- CFG.HOOK_EN (R40). -/
def State.hookEn (s : State) : Bool := (s.reg .cfg).getLsbD 0

/-- PHYADDR.VALID (R35). -/
def State.phyValid (s : State) : Bool := (s.reg .phyaddr).getLsbD 31

/-- PHYADDR.ADDR (R35). -/
def State.phyAddr (s : State) : PhyAddr := field (s.reg .phyaddr) 0 6

/-- INIT.TX_VALID (R38). -/
def State.txValid (s : State) : Bool := (s.reg .init).getLsbD 0

/-- INIT.RX_VALID (R38). -/
def State.rxValid (s : State) : Bool := (s.reg .init).getLsbD 1

/-- `x[INIT].TX_VALID <- 1`. -/
def State.setTxValid (s : State) : State := s.setReg .init (s.reg .init ||| 1#32)

/-- `x[INIT].RX_VALID <- 1`. -/
def State.setRxValid (s : State) : State := s.setReg .init (s.reg .init ||| 2#32)

/-- MDIO_DATA.DATA (R23, R151). -/
def State.data (s : State) : Data16 := field (s.reg .mdioData) 0 16

/-- PHYADDR with VALID = 1 and the address `a` (R173). -/
def phyaddrWord (a : PhyAddr) : Word := (1#32 <<< 31) ||| a.setWidth 32

/-! ### Descriptor words (R104, R105, R111) -/

/-- OWN, bit 31 of word 3. -/
def own (w3 : Word) : Bool := w3.getLsbD 31

/-- Word 3 with OWN cleared (R222, R241). -/
def clearOwn (w3 : Word) : Word := w3 &&& 0x7FFFFFFF#32

/-- TX word 3 as TX.PUT writes it: OWN, LD and FD. -/
def txCtl : Word := (1#32 <<< 31) ||| (1#32 <<< 29) ||| (1#32 <<< 28)

/-- RX word 3 as RX.ARM and RX.REARM write it: OWN and BUF1V. -/
def rxCtl : Word := (1#32 <<< 31) ||| (1#32 <<< 24)

/-- BUF1V alone (R105). -/
def buf1v : Word := 1#32 <<< 24

/-- TX word 2: the length in [13:0], 0 above (R104). -/
def txLenWord (len : Word) : Word := (field len 0 14).setWidth 32

/-- RLEN, bits [29:16] of RX word 2, zero-extended (R105, R111). -/
def rxLen (w2 : Word) : Word := (field w2 16 14).setWidth 32

/-- RX word 2 with the received length `n` in [29:16] and every other bit kept (R241). -/
def withRxLen (w2 : Word) (n : Nat) : Word := (w2 &&& 0xC000FFFF#32) ||| (BitVec.ofNat 32 n <<< 16)

/-! ### PHY register fields (R109) -/

/-- The value PHY.RESET writes to BCR: the reset bit alone (R181). -/
def resetValue (P : Config.Params) : Data16 := 1#16 <<< P.bcrResetBit

/-- The reset bit of BCR. -/
def resetBit (P : Config.Params) (bcr : Data16) : Bool := bcr.getLsbD P.bcrResetBit

/-- The link-up bit of BSR. -/
def linkBit (P : Config.Params) (bsr : Data16) : Bool := bsr.getLsbD P.bsrLinkBit

/-- The autonegotiation-done bit of VSR. -/
def anDone (P : Config.Params) (vsr : Data16) : Bool := vsr.getLsbD P.vsrAndoneBit

/-- The speed/duplex code of VSR. -/
def speedCode (P : Config.Params) (vsr : Data16) : BitVec 3 := field vsr P.vsrCodeLo 3

/-! ### The link status word (R106, R187) -/

/-- LSW{up, autoNegotiated, speed, fullDuplex} (R106). -/
def lsw (up an : Bool) (speed : BitVec 2) (fd : Bool) : Word :=
  place (BitVec.ofBool up) 0 ||| place (BitVec.ofBool an) 1 ||| place (BitVec.ofBool fd) 2 ||| place speed 3

/-- DecodeCode: the speed field and full duplex of the four known codes (R187). -/
def decodeCode (code : BitVec 3) : Option (BitVec 2 × Bool) :=
  if code = 0b001#3 then some (0b01#2, false)
  else if code = 0b101#3 then some (0b01#2, true)
  else if code = 0b010#3 then some (0b10#2, false)
  else if code = 0b110#3 then some (0b10#2, true)
  else none

/-- The link status of an up link whose second read gave `vsr` (R186, R191). -/
def linkUpStatus (P : Config.Params) (vsr : Data16) : Word :=
  if anDone P vsr then
    match decodeCode (speedCode P vsr) with
    | some (speed, fd) => lsw true true speed fd
    | none => lsw true false 0#2 false
  else lsw true false 0#2 false

end Sys2Proof.Machine
end

