-- ==== Sys2Proof/Machine/Bus.lean ====
section
/-! DEFINITION. BUS (spec/40_mdio.md R154 to R157): what a command word standing in MDIO_CMD does when BUS completes
it. -/

namespace Sys2Proof.Machine

/-- MDIO_CMD holds the transaction (p, r, o) with BUSY = 1 (R47). -/
def State.inFlight (s : State) (p : PhyAddr) (r : RegAddr) (o : BitVec 2) : Bool :=
  s.busy && cmdPhyad s.params (s.reg .mdioCmd) == p && cmdRegad s.params (s.reg .mdioCmd) == r &&
    cmdOp s.params (s.reg .mdioCmd) == o

/-- `x[MDIO_CMD].BUSY <- 0`, the other fields kept (R154, R155). -/
def State.clearBusy (s : State) : State := s.setReg .mdioCmd (cmdClearBusy s.params (s.reg .mdioCmd))

/-- CMDW.READ: BUS completes the read in flight (R154), one atomic step. The spec gives PHYAD = 63 no meaning
(R112). -/
def execCmdwRead (p : PhyAddr) (r : RegAddr) (s : State) : Result :=
  if !s.inFlight p r Config.opRead then .refused .notEnabled
  else if p.toNat > Config.phyAddrMax then .refused .reservedEncoding
  else
    let (v, s') := s.phyRead p r
    .next (s'.setReg .mdioData (v.setWidth 32)).clearBusy

/-- CMDW.WRITE: BUS completes the write in flight (R155), one atomic step; MDIO_DATA is not changed. -/
def execCmdwWrite (p : PhyAddr) (r : RegAddr) (s : State) : Result :=
  if !s.inFlight p r Config.opWrite then .refused .notEnabled
  else if p.toNat > Config.phyAddrMax then .refused .reservedEncoding
  else .next (s.phyWrite p r s.data).clearBusy

end Sys2Proof.Machine
end

