-- ==== Sys2Proof/Machine/Operands.lean ====
section
/-! DEFINITION. The operands of the operations (R113): their ranges, the ring arithmetic, and the addresses the
descriptor operations compute (R111). -/

namespace Sys2Proof.Machine

/-! ### Ranges (R112, R113, R144) -/

/-- An ARG value is a PHY address, 0..62. -/
def phyAddrOk (v : Word) : Bool := decide (v.toNat ≤ Config.phyAddrMax)

/-- An ARG value is a register address, 0..31. -/
def regAddrOk (v : Word) : Bool := decide (v.toNat ≤ Config.regAddrMax)

/-- An ARG value is management data, 0..0xFFFF. -/
def dataOk (v : Word) : Bool := decide (v.toNat ≤ 0xFFFF)

/-- An ARG value is a TX buffer length, 0..16383 (R214). -/
def lenOk (v : Word) : Bool := decide (v.toNat ≤ Config.txLenMax)

/-! ### Indices and addresses (R13, R205) -/

/-- An index or an address of `w` bits, held in a word. -/
def truncTo (w : Nat) (v : Word) : Word := (v.setWidth w).setWidth 32

/-- `i + 1` on an index, modulo 2^IDX_W (R205). -/
def nextIndex (P : Config.Params) (i : Word) : Word := truncTo P.idxW (i + 1#32)

/-- `a - b` on indices, modulo 2^IDX_W (R205). -/
def indexDiff (P : Config.Params) (a b : Word) : Word := truncTo P.idxW (a - b)

/-- `a + n` on an address, modulo 2^ADDR_W (R13). -/
def addAddr (P : Config.Params) (a : Word) (n : Nat) : Word := truncTo P.addrW (a + BitVec.ofNat 32 n)

/-! ### Descriptors (R42, R76, R201) -/

/-- A descriptor may stand at this address: a multiple of DESC_ALIGN (R76). -/
def descAligned (P : Config.Params) (a : Word) : Bool := decide (a.toNat % P.descAlign = 0)

/-- The byte address of word `k` of the descriptor at `d` (R42, R74). -/
def descWord (P : Config.Params) (d : Word) (k : Nat) : Word := addAddr P d (4 * k)

/-- The byte address of a slot's descriptor (R201). -/
def descAddr (P : Config.Params) (base slot : Word) : Word := addAddr P base (P.descSpan * slot.toNat)

/-- The address just past `n` descriptors from `base` lies below 2^ADDR_W (R206; R232 with n = 1). -/
def fitsBelow (P : Config.Params) (base n : Word) : Bool :=
  decide (base.toNat + P.descSpan * n.toNat < 2 ^ P.addrW)

/-! ### The TX ring (R200, R201, R207, R210) and the RX slot (R240) -/

/-- Pow2Floor(L), the largest power of two not greater than L, for L at least 1 (R207). -/
def pow2Floor (l : Word) : Word := 1#32 <<< Nat.log2 l.toNat

/-- The slot of an index (R201). -/
def slotOf (index mask : Word) : Word := index &&& mask

/-- TailPtr's test (R210): the pointer past the slot is the base itself. -/
def tailWraps (P : Config.Params) (n slot : Word) : Bool := P.txTailWrap && slot + 1#32 == n

/-- TailPtr's value (R210). -/
def txTailPtrAfter (P : Config.Params) (wraps : Bool) (base slot : Word) : Word :=
  if wraps then base else descAddr P base (slot + 1#32)

end Sys2Proof.Machine
end

