-- ==== Sys2Proof/Machine/Mtc.lean ====
section
/-! DEFINITION. MTC (spec/40_mdio.md): one step of a transaction, shared by the top-level operations and the nested
ones (R171), and the meanings of MDIO.READ and MDIO.WRITE. -/

namespace Sys2Proof.Machine

/-- What one step inside a transaction leads to (R171): a further position, its end with the value (0 for a write),
a hook failure, or a refusal. -/
inductive MdioOut where
  | more (m : MdioPos) (s : State)
  | done (v : Data16) (s : State)
  | failed (e : Word) (s : State)
  | refused (r : Refusal)

/-- The first position of MDIO.READ(p, r) (R142). -/
def readStart (p : PhyAddr) (r : RegAddr) : MdioPos := .writeCmd p r Config.opRead

/-- The first position of MDIO.WRITE(p, r, v) (R143). -/
def writeStart (p : PhyAddr) (r : RegAddr) (v : Data16) : MdioPos := .writeData p r v

/-- BUSY = 1 refuses the start of an operation that uses MDIO (R142, R143, R312); the test takes no step (R145). -/
def unlessBusy (s : State) (k : Result) : Result := if s.busy then .refused .commandWhileBusy else k

/-- The tests before a write of MDIO_DATA or MDIO_CMD, top-level or nested (R149, R171): the address (R144), then BUSY.
They take no step of their own (R145) and are made at the write they guard (R178, R313; log entry 14). -/
def mdioRefusal (p : PhyAddr) (s : State) : Option Refusal :=
  if p.toNat > Config.phyAddrMax then some .operandRange
  else if s.busy then some .commandWhileBusy
  else none

/-- One step of SEQ inside a transaction (R142, R143, R146). -/
def mdioStep (m : MdioPos) (s : State) : MdioOut :=
  match m with
  | .writeData p r v =>
    match mdioRefusal p s with
    | some e => .refused e
    | none => .more (.writeCmd p r Config.opWrite) (s.setReg .mdioData (v.setWidth 32))
  | .writeCmd p r o =>
    match mdioRefusal p s with
    | some e => .refused e
    | none => .more (.poll o) (s.setReg .mdioCmd (cmdw s.params p r o))
  | .poll o =>
    if s.busy then .more (.cfg o) s
    else if o = Config.opRead then .more .readData s
    else .done 0#16 s
  | .cfg o => .more (if s.hookEn then .hook o else .poll o) s
  | .hook o =>
    match s.callHook with
    | (.ok, s') => .more (.poll o) s'
    | (.fail e, s') => .failed e s'
  | .readData => .done s.data s

/-- A transaction's step inside an operation: where a further position goes, and what the operation does with the
value and with the failure (R171). -/
def inTransaction (m : MdioPos) (s : State) (at_ : MdioPos → Seq) (done : Data16 → State → Result)
    (failed : Word → State → Result) : Result :=
  match mdioStep m s with
  | .more m' s' => .next (s'.goto (at_ m'))
  | .done v s' => done v s'
  | .failed e s' => failed e s'
  | .refused r => .refused r

/-- The operation `i` goes to its `return (..)` step. -/
def toReturn (i : Instr) (res0 res1 : Option Word) (s : State) : Result :=
  .next (s.goto (.ending i (.ret res0 res1)))

/-- The operation `i` goes to its `raise` step. -/
def toRaise (i : Instr) (k : Raise) (s : State) : Result := .next (s.goto (.ending i (.raise k)))

/-- MDIO.READ (R142): from IDLE its start with ARG0 and ARG1, refused where BUSY = 1, else the access SEQ stands
at. -/
def execMdioRead (s : State) : Result :=
  match s.seq with
  | .idle =>
    if phyAddrOk (s.reg .arg0) && regAddrOk (s.reg .arg1) then
      unlessBusy s (.next (s.goto (.mdioRead (readStart (field (s.reg .arg0) 0 6) (field (s.reg .arg1) 0 5)))))
    else .refused .operandRange
  | .mdioRead m =>
    inTransaction m s .mdioRead (fun v => toReturn .mdioRead (some (v.setWidth 32)) none)
      (fun e => toRaise .mdioRead (.hookFail e))
  | .ending .mdioRead e => finish e s
  | _ => .refused .secondActor

/-- MDIO.WRITE (R143): from IDLE its start with ARG0, ARG1 and ARG2, refused where BUSY = 1, else the access SEQ
stands at. -/
def execMdioWrite (s : State) : Result :=
  match s.seq with
  | .idle =>
    if phyAddrOk (s.reg .arg0) && regAddrOk (s.reg .arg1) && dataOk (s.reg .arg2) then
      unlessBusy s (.next (s.goto (.mdioWrite
        (writeStart (field (s.reg .arg0) 0 6) (field (s.reg .arg1) 0 5) (field (s.reg .arg2) 0 16)))))
    else .refused .operandRange
  | .mdioWrite m =>
    inTransaction m s .mdioWrite (fun _ => toReturn .mdioWrite none none)
      (fun e => toRaise .mdioWrite (.hookFail e))
  | .ending .mdioWrite e => finish e s
  | _ => .refused .secondActor

end Sys2Proof.Machine
end

