-- ==== Sys2Proof/Machine/Plc.lean ====
section
/-! DEFINITION. PLC (spec/41_phy.md): PHY.SETADDR, PHY.DETECT, PHY.RESET and PHY.LINKSTATUS, built from nested
transactions (R120, R171). -/

namespace Sys2Proof.Machine

/-- PHY.SETADDR (R173). -/
def execPhySetaddr (s : State) : Result :=
  match s.seq with
  | .idle =>
    if phyAddrOk (s.reg .arg0) then .next (s.goto (.phySetaddr (field (s.reg .arg0) 0 6)))
    else .refused .operandRange
  | .phySetaddr a => toReturn .phySetaddr none none (s.setReg .phyaddr (phyaddrWord a))
  | .ending .phySetaddr e => finish e s
  | _ => .refused .secondActor

/-- The scan after address `a` was skipped (R176): the next address, or NOT_FOUND after the last. -/
def detectSkip (a : PhyAddr) (s : State) : Result :=
  if a.toNat < Config.phyAddrMax then
    .next (s.goto (.phyDetect (a + 1#6) (readStart (a + 1#6) s.params.idIdx)))
  else toRaise .phyDetect .notFound s

/-- PHY.DETECT (R176 to R179): the first address whose identifier register answers other than 0xFFFF; its start is
refused where BUSY = 1 (R312). -/
def execPhyDetect (s : State) : Result :=
  match s.seq with
  | .idle => unlessBusy s (.next (s.goto (.phyDetect 0#6 (readStart 0#6 s.params.idIdx))))
  | .phyDetect a m =>
    inTransaction m s (.phyDetect a)
      (fun v s' => if v ≠ Config.noDevice then .next (s'.goto (.phyDetectStore a)) else detectSkip a s')
      (fun _ => detectSkip a)
  | .phyDetectStore a =>
    toReturn .phyDetect (some (a.setWidth 32)) none (s.setReg .phyaddr (phyaddrWord a))
  | .ending .phyDetect e => finish e s
  | _ => .refused .secondActor

/-- PHY.RESET's poll loop goes to its next polling read (R180). -/
def resetPoll (p : PhyAddr) (s : State) : Result :=
  .next (s.goto (.phyResetRead p (readStart p s.params.bcrIdx)))

/-- A polling read of PHY.RESET did not show the reset done (R180, R182): next comes the read of CFG that says whether
there is a hook to call between polls. -/
def resetNotDone (p : PhyAddr) (s : State) : Result := .next (s.goto (.phyResetCfg p))

/-- PHY.RESET (R180 to R184); its start is refused where BUSY = 1 (R312). -/
def execPhyReset (s : State) : Result :=
  match s.seq with
  | .idle =>
    if s.phyValid then unlessBusy s (.next (s.goto .phyResetAddr)) else .refused .noPhyAddress
  | .phyResetAddr =>
    .next (s.goto (.phyResetWrite s.phyAddr (writeStart s.phyAddr s.params.bcrIdx (resetValue s.params))))
  | .phyResetWrite p m =>
    inTransaction m s (.phyResetWrite p) (fun _ => resetPoll p) (fun e => toRaise .phyReset (.hookFail e))
  | .phyResetRead p m =>
    inTransaction m s (.phyResetRead p)
      (fun v s' => if resetBit s'.params v then resetNotDone p s' else toReturn .phyReset none none s')
      (fun _ => resetNotDone p)
  | .phyResetCfg p => if s.hookEn then .next (s.goto (.phyResetHook p)) else resetPoll p s
  | .phyResetHook p =>
    match s.callHook with
    | (.ok, s') => resetPoll p s'
    | (.fail e, s') => toRaise .phyReset (.hookFail e) s'
  | .ending .phyReset e => finish e s
  | _ => .refused .secondActor

/-- PHY.LINKSTATUS (R186 to R191); its start is refused where BUSY = 1 (R312). -/
def execPhyLinkstatus (s : State) : Result :=
  match s.seq with
  | .idle =>
    if s.phyValid then unlessBusy s (.next (s.goto .phyLinkAddr)) else .refused .noPhyAddress
  | .phyLinkAddr => .next (s.goto (.phyLinkFirst s.phyAddr (readStart s.phyAddr s.params.bsrIdx)))
  | .phyLinkFirst p m =>
    inTransaction m s (.phyLinkFirst p)
      (fun v s' =>
        if linkBit s'.params v then .next (s'.goto (.phyLinkSecond p (readStart p s'.params.lsSecondReg)))
        else toReturn .phyLinkstatus (some (lsw false false 0#2 false)) none s')
      (fun e => toRaise .phyLinkstatus (.hookFail e))
  | .phyLinkSecond p m =>
    inTransaction m s (.phyLinkSecond p)
      (fun v s' => toReturn .phyLinkstatus (some (linkUpStatus s'.params v)) none s')
      (fun e => toRaise .phyLinkstatus (.hookFail e))
  | .ending .phyLinkstatus e => finish e s
  | _ => .refused .secondActor

end Sys2Proof.Machine
end

