-- ==== Sys2Proof/Machine/RxSlot.lean ====
section
/-! DEFINITION. DRM, the RX slot (spec/43_rxslot.md) and the DMA soft reset (spec/44_dma_swreset.md): RX.ARM,
RX.POLL, RX.REARM and DMA.SWRESET. -/

namespace Sys2Proof.Machine

/-- One access of RX.ARM (R232), in the order of the rule. DMA may fill the slot only from the RX_TAIL_PTR write on
(R241; log entry 11). -/
def armStep (k : ArmPos) (desc buf : Word) (s : State) : Result :=
  match k with
  | .desc => .next ((s.setReg .rxDesc desc).goto (.rxArm .buf desc buf))
  | .buf => .next ((s.setReg .rxBuf buf).goto (.rxArm .memBuf desc buf))
  | .memBuf => s.memWrite (descWord s.params desc 0) buf fun s' => .next (s'.goto (.rxArm .memCtl desc buf))
  | .memCtl => s.memWrite (descWord s.params desc 3) rxCtl fun s' => .next (s'.goto (.rxArm .ringBase desc buf))
  | .ringBase => .next ((s.setReg .rxRingBase desc).goto (.rxArm .tailPtr desc buf))
  | .tailPtr =>
    .next (((s.setReg .rxTailPtr desc).grantRx (descWord s.params desc 3)).goto (.rxArm .valid desc buf))
  | .valid => toReturn .rxArm none none s.setRxValid

/-- RX.ARM (R231 to R233). -/
def execRxArm (s : State) : Result :=
  match s.seq with
  | .idle =>
    if s.rxValid then .refused .alreadyArmed
    else if !descAligned s.params (s.reg .arg0) then .refused .misaligned
    else if !fitsBelow s.params (s.reg .arg0) 1#32 then .refused .outOfAddressSpace
    else .next (s.goto (.rxArm .desc (s.reg .arg0) (s.reg .arg1)))
  | .rxArm k desc buf => armStep k desc buf s
  | .ending .rxArm e => finish e s
  | _ => .refused .secondActor

/-- One access of RX.POLL (R235, R236). -/
def pollStep (k : PollPos) (s : State) : Result :=
  match k with
  | .desc => .next (s.goto (.rxPoll (.readOwn (s.reg .rxDesc))))
  | .readOwn d => s.memRead (descWord s.params d 3) fun w3 =>
    if own w3 then toRaise .rxPoll .notReady s else .next (s.goto (.rxPoll (.readLen d)))
  | .readLen d => s.memRead (descWord s.params d 2) fun w2 => .next (s.goto (.rxPoll (.buf (rxLen w2))))
  | .buf len => toReturn .rxPoll (some len) (some (s.reg .rxBuf)) s

/-- RX.POLL (R235). -/
def execRxPoll (s : State) : Result :=
  match s.seq with
  | .idle => if s.rxValid then .next (s.goto (.rxPoll .desc)) else .refused .slotNotArmed
  | .rxPoll k => pollStep k s
  | .ending .rxPoll e => finish e s
  | _ => .refused .secondActor

/-- What RX.REARM does once it has set OWN (R238, R240): in the mode INCREMENT it first reads RX_TAIL_PTR. -/
def rearmPtrStart (P : Config.Params) (d : Word) : RearmPos :=
  match P.rxRearmMode with
  | .absolute => .writeTailPtr d (addAddr P d P.descSpan)
  | .increment => .readTailPtr d

/-- One access of RX.REARM (R238 to R240). DMA may fill the slot again only from the RX_TAIL_PTR write on (R241). -/
def rearmStep (k : RearmPos) (s : State) : Result :=
  match k with
  | .desc => .next (s.goto (.rxRearm (.readOwn (s.reg .rxDesc))))
  | .readOwn d => s.memRead (descWord s.params d 3) fun w3 =>
    if own w3 then .refused .descriptorDmaOwned else .next (s.goto (.rxRearm (.writeCtl d)))
  | .writeCtl d => s.memWrite (descWord s.params d 3) rxCtl fun s' =>
    .next (s'.goto (.rxRearm (rearmPtrStart s.params d)))
  | .readTailPtr d =>
    .next (s.goto (.rxRearm (.writeTailPtr d (addAddr s.params (s.reg .rxTailPtr) s.params.descSpan))))
  | .writeTailPtr d ptr =>
    toReturn .rxRearm none none ((s.setReg .rxTailPtr ptr).grantRx (descWord s.params d 3))

/-- RX.REARM (R238). -/
def execRxRearm (s : State) : Result :=
  match s.seq with
  | .idle => if s.rxValid then .next (s.goto (.rxRearm .desc)) else .refused .slotNotArmed
  | .rxRearm k => rearmStep k s
  | .ending .rxRearm e => finish e s
  | _ => .refused .secondActor

/-- One access of DMA.SWRESET (R251): its poll loop calls no hook (R153). -/
def swresetStep (k : SwresetPos) (s : State) : Result :=
  match k with
  | .writeCtrl => .next ((s.setReg .dmaCtrl 1#32).goto (.dmaSwreset .clearInit))
  | .clearInit => .next ((s.setReg .init 0#32).goto (.dmaSwreset .poll))
  | .poll => if s.swr then .next (s.goto (.dmaSwreset .poll)) else toReturn .dmaSwreset none none s

/-- DMA.SWRESET (R250, R251). -/
def execDmaSwreset (s : State) : Result :=
  match s.seq with
  | .idle => .next (s.goto (.dmaSwreset .writeCtrl))
  | .dmaSwreset k => swresetStep k s
  | .ending .dmaSwreset e => finish e s
  | _ => .refused .secondActor

end Sys2Proof.Machine
end

