-- ==== Sys2Proof/Machine/TxRing.lean ====
section
/-! DEFINITION. DRM, the TX ring (spec/42_txring.md): TX.SETDESC, TX.PUT and TX.UPDATE. -/

namespace Sys2Proof.Machine

/-- One access of TX.SETDESC (R206), in the order of the rule. -/
def setdescStep (k : SetdescPos) (base n : Word) (s : State) : Result :=
  match k with
  | .base => .next ((s.setReg .txBase base).goto (.txSetdesc .n base n))
  | .n => .next ((s.setReg .txN n).goto (.txSetdesc .mask base n))
  | .mask => .next ((s.setReg .txMask (n - 1#32)).goto (.txSetdesc .tail base n))
  | .tail => .next ((s.setReg .txTail 0#32).goto (.txSetdesc .cur base n))
  | .cur => .next ((s.setReg .txCur 0#32).goto (.txSetdesc .ringBase base n))
  | .ringBase => .next ((s.setReg .txRingBase base).goto (.txSetdesc .ringLen base n))
  | .ringLen => .next ((s.setReg .txRingLen (n - 1#32)).goto (.txSetdesc .tailPtr base n))
  | .tailPtr => .next ((s.setReg .txTailPtr base).goto (.txSetdesc .valid base n))
  | .valid => toReturn .txSetdesc (some n) none s.setTxValid

/-- TX.SETDESC (R206, R207). -/
def execTxSetdesc (s : State) : Result :=
  match s.seq with
  | .idle =>
    let base := s.reg .arg0
    let l := s.reg .arg1
    if l = 0#32 then .refused .emptyArray
    else if !descAligned s.params base then .refused .misaligned
    else if !fitsBelow s.params base (pow2Floor l) then .refused .outOfAddressSpace
    else .next (s.goto (.txSetdesc .base base (pow2Floor l)))
  | .txSetdesc k base n => setdescStep k base n s
  | .ending .txSetdesc e => finish e s
  | _ => .refused .secondActor

/-- `x[TX_TAIL] - x[TX_CUR]`, the number of submitted and not yet reclaimed descriptors (R37, R205). -/
def State.txPending (s : State) : Word := indexDiff s.params (s.reg .txTail) (s.reg .txCur)

/-- The ring is at capacity (R208, R211, R212): only a ring of more than one slot can be. -/
def State.ringFull (s : State) : Bool := decide (1 < (s.reg .txN).toNat) && s.txPending == s.reg .txN

/-- Where TailPtr begins (R210): only where TX_TAIL_WRAP = 1 is TX_N read. -/
def tailPtrStart (P : Config.Params) (slot d : Word) : PutPos :=
  if P.txTailWrap then .ptrN slot d else .ptrBase slot d false

/-- One access of TX.PUT (R208 to R210, R213). DMA may consume the descriptor only from the TX_TAIL_PTR write on
(R222, R223; log entry 11). -/
def putStep (k : PutPos) (buf len : Word) (s : State) : Result :=
  match k with
  | .tail => .next (s.goto (.txPut (.mask (s.reg .txTail)) buf len))
  | .mask tail => .next (s.goto (.txPut (.base (slotOf tail (s.reg .txMask))) buf len))
  | .base slot => .next (s.goto (.txPut (.readOwn slot (descAddr s.params (s.reg .txBase) slot)) buf len))
  | .readOwn slot d => s.memRead (descWord s.params d 3) fun w3 =>
    if own w3 then toRaise .txPut .slotBusy s else .next (s.goto (.txPut (.capN slot d) buf len))
  | .capN slot d =>
    .next (s.goto (.txPut (if 1 < (s.reg .txN).toNat then .capTail slot d else .writeBuf slot d) buf len))
  | .capTail slot d => .next (s.goto (.txPut (.capCur slot d (s.reg .txTail)) buf len))
  | .capCur slot d tail => .next (s.goto (.txPut (.capEq slot d (indexDiff s.params tail (s.reg .txCur))) buf len))
  | .capEq slot d used =>
    if used = s.reg .txN then toRaise .txPut .ringFull s else .next (s.goto (.txPut (.writeBuf slot d) buf len))
  | .writeBuf slot d => s.memWrite (descWord s.params d 0) buf fun s' =>
    .next (s'.goto (.txPut (.writeLen slot d) buf len))
  | .writeLen slot d => s.memWrite (descWord s.params d 2) (txLenWord len) fun s' =>
    .next (s'.goto (.txPut (.writeCtl slot d) buf len))
  | .writeCtl slot d => s.memWrite (descWord s.params d 3) txCtl fun s' =>
    .next (s'.goto (.txPut (tailPtrStart s.params slot d) buf len))
  | .ptrN slot d => .next (s.goto (.txPut (.ptrBase slot d (tailWraps s.params (s.reg .txN) slot)) buf len))
  | .ptrBase slot d wraps =>
    .next (s.goto (.txPut (.writeTailPtr slot d (txTailPtrAfter s.params wraps (s.reg .txBase) slot)) buf len))
  | .writeTailPtr slot d ptr =>
    .next (((s.setReg .txTailPtr ptr).grantTx (descWord s.params d 3)).goto (.txPut (.incTail slot d) buf len))
  | .incTail slot d => .next (s.goto (.txPut (.writeTail slot d (nextIndex s.params (s.reg .txTail))) buf len))
  | .writeTail slot d tail => toReturn .txPut (some d) (some slot) (s.setReg .txTail tail)

/-- TX.PUT (R208). -/
def execTxPut (s : State) : Result :=
  match s.seq with
  | .idle =>
    if !s.txValid then .refused .ringNotSet
    else if !lenOk (s.reg .arg1) then .refused .lengthRange
    else .next (s.goto (.txPut .tail (s.reg .arg0) (s.reg .arg1)))
  | .txPut k buf len => putStep k buf len s
  | .ending .txPut e => finish e s
  | _ => .refused .secondActor

/-- One access of TX.UPDATE (R215, R216). -/
def updateStep (k : UpdatePos) (s : State) : Result :=
  match k with
  | .headCur => .next (s.goto (.txUpdate (.headTail (s.reg .txCur))))
  | .headTail cur => .next (s.goto (.txUpdate (if cur = s.reg .txTail then .retTail else .slotCur)))
  | .slotCur => .next (s.goto (.txUpdate (.slotMask (s.reg .txCur))))
  | .slotMask cur => .next (s.goto (.txUpdate (.base (slotOf cur (s.reg .txMask)))))
  | .base slot => .next (s.goto (.txUpdate (.readOwn (descAddr s.params (s.reg .txBase) slot))))
  | .readOwn d => s.memRead (descWord s.params d 3) fun w3 =>
    .next (s.goto (.txUpdate (if own w3 then .retTail else .incCur)))
  | .incCur => .next (s.goto (.txUpdate (.writeCur (nextIndex s.params (s.reg .txCur)))))
  | .writeCur cur => .next ((s.setReg .txCur cur).goto (.txUpdate .headCur))
  | .retTail => .next (s.goto (.txUpdate (.retCur (s.reg .txTail))))
  | .retCur tail => .next (s.goto (.txUpdate (.retSlotCur (indexDiff s.params tail (s.reg .txCur)))))
  | .retSlotCur pending => .next (s.goto (.txUpdate (.retMask pending (s.reg .txCur))))
  | .retMask pending cur => toReturn .txUpdate (some pending) (some (slotOf cur (s.reg .txMask))) s

/-- TX.UPDATE (R215 to R217). -/
def execTxUpdate (s : State) : Result :=
  match s.seq with
  | .idle => if s.txValid then .next (s.goto (.txUpdate .headCur)) else .refused .ringNotSet
  | .txUpdate k => updateStep k s
  | .ending .txUpdate e => finish e s
  | _ => .refused .secondActor

end Sys2Proof.Machine
end

