-- ==== Sys2Proof/Machine/Dispatch.lean ====
section
/-! DEFINITION. One arm per instruction. An operation's meaning is one step of SEQ inside it (R14, R34; log entry 1):
its start when SEQ is IDLE, else the access, return or raise SEQ stands at. A command word's meaning is BUS's
completion of it. -/

namespace Sys2Proof.Machine

def exec (i : Instr) (s : State) : Host.Outcome State Fault Refusal :=
  match i with
  | .mdioRead => Sys2Proof.Machine.execMdioRead s
  | .mdioWrite => Sys2Proof.Machine.execMdioWrite s
  | .phySetaddr => Sys2Proof.Machine.execPhySetaddr s
  | .phyDetect => Sys2Proof.Machine.execPhyDetect s
  | .phyReset => Sys2Proof.Machine.execPhyReset s
  | .phyLinkstatus => Sys2Proof.Machine.execPhyLinkstatus s
  | .txSetdesc => Sys2Proof.Machine.execTxSetdesc s
  | .txPut => Sys2Proof.Machine.execTxPut s
  | .txUpdate => Sys2Proof.Machine.execTxUpdate s
  | .rxArm => Sys2Proof.Machine.execRxArm s
  | .rxPoll => Sys2Proof.Machine.execRxPoll s
  | .rxRearm => Sys2Proof.Machine.execRxRearm s
  | .dmaSwreset => Sys2Proof.Machine.execDmaSwreset s
  | .cmdwRead p r => Sys2Proof.Machine.execCmdwRead p r s
  | .cmdwWrite p r => Sys2Proof.Machine.execCmdwWrite p r s

end Sys2Proof.Machine
end

