-- ==== Sys2Proof/Machine/Agents.lean ====
section
/-! DEFINITION. The steps of the agents (R8): SEQ's turn, HOST's accesses (R21, R30, R271), and the steps of BUS, PHY
and DMA (R154 to R160, R222, R241, R252), and the reset of the block (R300). -/

namespace Sys2Proof.Machine

/-- SEQ takes its next step (R34, R320); while it is IDLE there is none and nothing changes (log entry 22). -/
def seqTurn (s : State) : Result :=
  match s.seq.operation with
  | none => .next s
  | some i => exec i s

/-! ### HOST -/

/-- HOST writes a register it may write while SEQ is IDLE (R31, R40). -/
def hostSet (r : Reg) (v : Word) (s : State) : Result :=
  if s.seq = .idle then .next (s.setReg r v) else .refused .secondActor

/-- HOST writes OPW (R30, R115): the selected operation starts in the same step. -/
def hostStart (v : Word) (s : State) : Result :=
  if s.seq = .idle then
    match decode s.params .opw (wordBytes v) with
    | .ok i => exec i (s.setReg .opw v)
    | .error _ => .refused .reservedEncoding
  else .refused .secondActor

/-- HOST writes the register of number `n` (R21, R271). Of CFG only bit 0 is stored, the rest of the layout being 0
(R108; DEDUCED, log entry 15, unsafe). -/
def hostWrite (n : Fin 27) (v : Word) (s : State) : Result :=
  match Reg.ofNumber n with
  | some .opw => hostStart v s
  | some .arg0 => hostSet .arg0 v s
  | some .arg1 => hostSet .arg1 v s
  | some .arg2 => hostSet .arg2 v s
  | some .cfg => hostSet .cfg (v &&& 1#32) s
  | _ => .refused .notHostWritable

/-- What a HOST read of a register shows (R21): its value, or for SEQ whether it is IDLE (R34). -/
inductive HostView where
  | word (v : Word)
  | seqIdle (b : Bool)
  deriving DecidableEq, Repr

/-- What HOST reads from the register of number `n`. -/
def State.hostSees (s : State) (n : Fin 27) : HostView :=
  match Reg.ofNumber n with
  | some r => .word (s.reg r)
  | none => .seqIdle (decide (s.seq = .idle))

/-- HOST reads a register: no side effect (R21, R78). -/
def hostRead (_n : Fin 27) (s : State) : Result := .next s

/-- HOST writes an aligned word of system memory (R45, R305; log entry 19). DESIGN CHOICE (log entry 23): HOST may
write at any position of SEQ and any word, though R8 makes HOST and SEQ one thread and R321 leaves a direct write of a
descriptor word the block manages without rules; the word is stored, and a grant of DMA on it ends. -/
def hostMem (a v : Word) (s : State) : Result := s.memWrite a v fun s' => .next s'

/-! ### BUS and PHY -/

/-- BUS completes the transaction in flight, if there is one (R154 to R156). -/
def busTurn (s : State) : Result :=
  match cmdTransaction s.params (s.reg .mdioCmd) with
  | .ok i => exec i s
  | .error .notBegun => .refused .notEnabled
  | .error _ => .refused .reservedEncoding

/-- The PHY at `p` changes a register (R160): only a present device has any. -/
def phyTurn (p : PhyAddr) (r : RegAddr) (v : Data16) (s : State) : Result :=
  if s.isPresent p then .next (s.phyWrite p r v) else .refused .notEnabled

/-! ### DMA -/

/-- `DMA: tx-done s` (R222): the slot is covered by the ring registers, its descriptor's OWN bit is 1 and TX_TAIL_PTR
has been written for it; OWN is cleared and nothing else in memory changes. -/
def dmaTxDone (slot : Word) (s : State) : Result :=
  let a := descWord s.params (descAddr s.params (s.reg .txRingBase) slot) 3
  if slot.toNat < (s.reg .txRingLen).toNat + 1 ∧ s.isGrantedTx a = true then
    s.memRead a fun w3 =>
      if own w3 then s.memWrite a (clearOwn w3) fun s' => .next s'
      else .refused .notEnabled
  else .refused .notEnabled

/-- `DMA: rx-frame n` (R241), one atomic step: RX_TAIL_PTR has been written for the descriptor RX_RING_BASE names, and
its OWN bit is 1; the length, then OWN. The frame's data is not moved (R241; log entry 12). -/
def dmaRxFrame (n : Nat) (bufv : Bool) (s : State) : Result :=
  let d := s.reg .rxRingBase
  let a₂ := descWord s.params d 2
  let a₃ := descWord s.params d 3
  if n ≤ Config.txLenMax ∧ s.isGrantedRx a₃ = true then
    s.memRead a₃ fun w3 =>
      if own w3 then
        s.memWrite a₂ (withRxLen (s.word a₂) n) fun s' =>
          s'.memWrite a₃ (clearOwn w3 ||| (if bufv then buf1v else 0#32)) fun s'' => .next s''
      else .refused .notEnabled
  else .refused .notEnabled

/-- `DMA: swr-done` (R252): SWR is cleared and DMA forgets every tail pointer write. -/
def dmaSwrDone (s : State) : Result :=
  if s.swr then .next (s.setReg .dmaCtrl (s.reg .dmaCtrl &&& ~~~ 1#32)).forgetGrants
  else .refused .notEnabled

/-! ### The reset of the block -/

/-- A reset (R300): the registers and SEQ take the values of R51; system memory, the PHY, DMA and the other agents
are not touched (log entry 20). -/
def blockReset (s : State) : Result := .next { s with regs := .reset, seq := .idle }

/-! ### One event -/

/-- The step of one agent. -/
def eventTurn (e : Event) (s : State) : Result :=
  match e with
  | .seq => seqTurn s
  | .hostWrite n v => hostWrite n v s
  | .hostRead n => hostRead n s
  | .hostMem a v => hostMem a v s
  | .bus => busTurn s
  | .phy p r v => phyTurn p r v s
  | .dmaTxDone slot => dmaTxDone slot s
  | .dmaRxFrame n bufv => dmaRxFrame n bufv s
  | .dmaSwrDone => dmaSwrDone s
  | .blockReset => blockReset s

/-- The machine with a word of the opcode table standing where its instruction is taken from next: a command word in
MDIO_CMD with BUS to move, any other word about to be written to OPW by HOST, SEQ being IDLE (log entry 17). -/
def placeTableWord (s : State) (nbits w : Nat) : State :=
  match decodeTableWord nbits w with
  | some (.cmdwRead p r) =>
    { s.setReg .mdioCmd (cmdw s.params p r Config.opRead) with agenda := .bus :: s.agenda }
  | some (.cmdwWrite p r) =>
    { s.setReg .mdioCmd (cmdw s.params p r Config.opWrite) with agenda := .bus :: s.agenda }
  | _ => { s with seq := .idle, agenda := .hostWrite Reg.opw.number (BitVec.ofNat 32 w) :: s.agenda }

end Sys2Proof.Machine
end

