-- ==== Sys2Proof/Machine/Step.lean ====
section
/-! DEFINITION. One step of the machine: one step of one agent (R8, R14, R84). The agenda says which; when it is
empty SEQ moves (R320, log entry 2). -/

namespace Sys2Proof.Machine

/-- One step (R14): the first event of the agenda, else SEQ's turn. -/
def step (s : State) : Host.Outcome State Fault Refusal :=
  match s.agenda with
  | [] => seqTurn s
  | e :: rest => eventTurn e { s with agenda := rest }

/-- `s` with a word of spec/opcode_table.json stored where the next step takes its instruction from. -/
def State.withFetchWord (s : State) (nbits w : Nat) : State := placeTableWord s nbits w

end Sys2Proof.Machine
end

