-- ==== Sys2Proof/Safety.lean ====
section
/-! DEFINITION. The terms claims are made in: runs of the agents' steps, what a step leaves unchanged, and the
invariants of the machine. -/

namespace Sys2Proof

open Sys2Proof.Machine

/-! ### Runs -/

/-- The agents' steps in the given order, stopping at the first that is refused. -/
def play : List Event → State → Result
  | [], s => .next s
  | e :: es, s =>
    match eventTurn e s with
    | .next t => play es t
    | .fault f => .fault f
    | .refused r => .refused r

/-- SEQ alone takes `n` steps. -/
def playSeq (n : Nat) (s : State) : Result := play (List.replicate n .seq) s

/-! ### What stays unchanged -/

/-- Every register but those listed keeps its value. -/
def KeepsRegsBut (rs : List Reg) (s t : State) : Prop := ∀ r, r ∉ rs → t.reg r = s.reg r

/-- Every byte of memory reads as before. -/
def KeepsMemory (s t : State) : Prop := ∀ a, t.mem.read a = s.mem.read a

/-- Every byte of memory outside the `n` bytes from `lo` reads as before. -/
def KeepsMemoryBut (lo n : Nat) (s t : State) : Prop :=
  ∀ a, a < lo ∨ lo + n ≤ a → t.mem.read a = s.mem.read a

/-- The PHYs, the parameters and the agents' coming steps are as before. -/
def KeepsOutside (s t : State) : Prop :=
  t.present = s.present ∧ t.phyRegs = s.phyRegs ∧ t.params = s.params ∧ t.agenda = s.agenda

/-- DMA's position is as before. -/
def KeepsGrants (s t : State) : Prop := t.txGranted = s.txGranted ∧ t.rxGranted = s.rxGranted

/-- DMA may consume and fill the same descriptors as before, but for those whose word 3 is at a listed address. -/
def KeepsGrantsBut (ws : List Word) (s t : State) : Prop :=
  ∀ a, a ∉ ws → t.isGrantedTx a = s.isGrantedTx a ∧ t.isGrantedRx a = s.isGrantedRx a

/-! ### The lists' canonical forms -/

/-- A list of numbers rises strictly. -/
def risingNats : List Nat → Bool
  | [] => true
  | [_] => true
  | a :: b :: l => decide (a < b) && risingNats (b :: l)

/-- Memory, the PHY register view and DMA's position are in their canonical form. -/
def CanonicalInv (s : State) : Prop :=
  s.mem.wf = true ∧ Assoc.rising s.phyRegs = true ∧ risingNats s.txGranted = true ∧
  risingNats s.rxGranted = true

/-! ### Register formats (R107, R108, R22, R30, R23) -/

/-- The reserved bits of MDIO_CMD: those of none of its four fields (R22, R102). -/
def cmdReserved (P : Config.Params) : Word := ~~~ (cmdw P 63#6 31#5 0b11#2)

/-- STATUS holds one of the codes 0 to 5; MDIO_CMD, DMA_CTRL, CFG, INIT, PHYADDR, OPW and MDIO_DATA hold 0 in their
reserved bits. -/
def RegisterFormatInv (s : State) : Prop :=
  s.reg .mdioCmd &&& cmdReserved s.params = 0#32 ∧
  (s.reg .status).toNat ≤ 5 ∧ (s.reg .dmaCtrl).toNat ≤ 1 ∧ (s.reg .cfg).toNat ≤ 1 ∧
  (s.reg .init).toNat ≤ 3 ∧ (s.reg .opw).toNat < 16 ∧ (s.reg .mdioData).toNat < 2 ^ 16 ∧
  s.reg .phyaddr &&& 0x7FFFFFC0#32 = 0#32

/-! ### The TX ring (R36, R37, R50, R206, R211) -/

/-- A power of two. -/
def PowerOfTwo (n : Word) : Prop := ∃ k, k < 32 ∧ n = 1#32 <<< k

/-- A base and a slot count TX.SETDESC accepts (R206, R207). -/
def RingGeometry (P : Config.Params) (base n : Word) : Prop :=
  descAligned P base = true ∧ fitsBelow P base n = true ∧ PowerOfTwo n

/-- What R50, R36, R37 and R211 say of a ring that TX.SETDESC has set. -/
def RingSet (s : State) : Prop :=
  RingGeometry s.params (s.reg .txBase) (s.reg .txN) ∧
  s.reg .txMask = s.reg .txN - 1#32 ∧
  s.reg .txRingBase = s.reg .txBase ∧
  s.reg .txRingLen = s.reg .txMask ∧
  (s.reg .txTail).toNat < 2 ^ s.params.idxW ∧ (s.reg .txCur).toNat < 2 ^ s.params.idxW ∧
  (1 < (s.reg .txN).toNat → s.txPending.toNat ≤ (s.reg .txN).toNat)

/-- How many writes of TX.SETDESC lie before a position. -/
def setdescIndex : SetdescPos → Nat
  | .base => 0
  | .n => 1
  | .mask => 2
  | .tail => 3
  | .cur => 4
  | .ringBase => 5
  | .ringLen => 6
  | .tailPtr => 7
  | .valid => 8

/-- The registers TX.SETDESC has written before a position hold their new values. -/
def SetdescProgress (k : SetdescPos) (base n : Word) (s : State) : Prop :=
  (0 < setdescIndex k → s.reg .txBase = base) ∧ (1 < setdescIndex k → s.reg .txN = n) ∧
  (2 < setdescIndex k → s.reg .txMask = n - 1#32) ∧ (3 < setdescIndex k → s.reg .txTail = 0#32) ∧
  (4 < setdescIndex k → s.reg .txCur = 0#32) ∧ (5 < setdescIndex k → s.reg .txRingBase = base) ∧
  (6 < setdescIndex k → s.reg .txRingLen = n - 1#32) ∧ (7 < setdescIndex k → s.reg .txTailPtr = base)

/-- The slot and the descriptor's address SEQ holds inside TX.PUT are those of the producer index (R201, R208). -/
def AtPutSlot (s : State) (slot d : Word) : Prop :=
  slot = slotOf (s.reg .txTail) (s.reg .txMask) ∧ d = descAddr s.params (s.reg .txBase) slot

/-- As AtPutSlot, on a ring that is not at capacity, and DMA may not yet consume the descriptor: its tail pointer write
is still to come (R213, R222, R223). -/
def BeforeTailPtr (s : State) (slot d : Word) : Prop :=
  AtPutSlot s slot d ∧ s.ringFull = false ∧ s.isGrantedTx (descWord s.params d 3) = false

/-- Inside TX.PUT, SEQ's local variables agree with the registers, the writes come only where the ring is not at
capacity, and from the write of OWN to the tail pointer write the descriptor is not DMA's to consume. -/
def PutProgress (s : State) : PutPos → Prop
  | .tail => True
  | .mask tail => tail = s.reg .txTail
  | .base slot => slot = slotOf (s.reg .txTail) (s.reg .txMask)
  | .readOwn slot d => AtPutSlot s slot d
  | .capN slot d => AtPutSlot s slot d
  | .capTail slot d => AtPutSlot s slot d
  | .capCur slot d tail => AtPutSlot s slot d ∧ tail = s.reg .txTail
  | .capEq slot d used => AtPutSlot s slot d ∧ used = s.txPending
  | .writeBuf slot d => AtPutSlot s slot d ∧ s.ringFull = false
  | .writeLen slot d => AtPutSlot s slot d ∧ s.ringFull = false
  | .writeCtl slot d => AtPutSlot s slot d ∧ s.ringFull = false
  | .ptrN slot d => BeforeTailPtr s slot d ∧ s.params.txTailWrap = true
  | .ptrBase slot d wraps => BeforeTailPtr s slot d ∧ wraps = tailWraps s.params (s.reg .txN) slot
  | .writeTailPtr slot d ptr => BeforeTailPtr s slot d ∧
    ptr = txTailPtrAfter s.params (tailWraps s.params (s.reg .txN) slot) (s.reg .txBase) slot
  | .incTail slot d => AtPutSlot s slot d ∧ s.ringFull = false
  | .writeTail slot d tail =>
    AtPutSlot s slot d ∧ s.ringFull = false ∧ tail = nextIndex s.params (s.reg .txTail)

/-- Inside TX.UPDATE, SEQ's local variables agree with the registers, and a slot is examined and passed only where one
is pending (R215, R216). -/
def UpdateProgress (s : State) : UpdatePos → Prop
  | .headCur => True
  | .headTail cur => cur = s.reg .txCur
  | .slotCur => s.reg .txCur ≠ s.reg .txTail
  | .slotMask cur => cur = s.reg .txCur ∧ s.reg .txCur ≠ s.reg .txTail
  | .base slot => slot = slotOf (s.reg .txCur) (s.reg .txMask) ∧ s.reg .txCur ≠ s.reg .txTail
  | .readOwn d =>
    d = descAddr s.params (s.reg .txBase) (slotOf (s.reg .txCur) (s.reg .txMask)) ∧ s.reg .txCur ≠ s.reg .txTail
  | .incCur => s.reg .txCur ≠ s.reg .txTail
  | .writeCur cur => cur = nextIndex s.params (s.reg .txCur) ∧ s.reg .txCur ≠ s.reg .txTail
  | .retTail => True
  | .retCur tail => tail = s.reg .txTail
  | .retSlotCur pending => pending = s.txPending
  | .retMask pending cur => pending = s.txPending ∧ cur = s.reg .txCur

/-- The TX ring's invariant: the parameters are well-formed; outside TX.SETDESC, a valid ring is set as R50 says and,
for more than one slot, never over-committed (R211); inside the TX operations, SEQ's local variables agree with the
registers. -/
def TxRingInv (s : State) : Prop :=
  s.params.wellFormed = true ∧
  match s.seq with
  | .txSetdesc k base n => RingGeometry s.params base n ∧ SetdescProgress k base n s
  | .txPut k _ len => s.txValid = true ∧ RingSet s ∧ lenOk len = true ∧ PutProgress s k
  | .txUpdate k => s.txValid = true ∧ RingSet s ∧ UpdateProgress s k
  | _ => s.txValid = true → RingSet s

/-! ### The RX slot (R50, R231, R232) -/

/-- A descriptor address RX.ARM accepts. -/
def SlotGeometry (P : Config.Params) (d : Word) : Prop := descAligned P d = true ∧ fitsBelow P d 1#32 = true

/-- What R50 and R232 say of a slot that RX.ARM has set. -/
def SlotSet (s : State) : Prop := SlotGeometry s.params (s.reg .rxDesc) ∧ s.reg .rxRingBase = s.reg .rxDesc

/-- How many writes of RX.ARM lie before a position. -/
def armIndex : ArmPos → Nat
  | .desc => 0
  | .buf => 1
  | .memBuf => 2
  | .memCtl => 3
  | .ringBase => 4
  | .tailPtr => 5
  | .valid => 6

/-- Inside RX.POLL, the descriptor's address SEQ holds is RX_DESC. -/
def PollProgress (s : State) : PollPos → Prop
  | .desc => True
  | .readOwn d => d = s.reg .rxDesc
  | .readLen d => d = s.reg .rxDesc
  | .buf _ => True

/-- Inside RX.REARM, SEQ's local variables agree with the registers, and from the write of OWN to the tail pointer
write the slot is not DMA's to fill (R241). -/
def RearmProgress (s : State) : RearmPos → Prop
  | .desc => True
  | .readOwn d => d = s.reg .rxDesc
  | .writeCtl d => d = s.reg .rxDesc
  | .readTailPtr d => d = s.reg .rxDesc ∧ s.isGrantedRx (descWord s.params d 3) = false
  | .writeTailPtr d _ => d = s.reg .rxDesc ∧ s.isGrantedRx (descWord s.params d 3) = false

/-- The RX slot's invariant: the parameters are well-formed; outside RX.ARM, a valid slot is set as R50 says; inside
RX.ARM the slot is not yet valid (R231), the registers written so far hold their new values, and from the write of OWN
to the tail pointer write the slot is not DMA's to fill (R241). -/
def RxSlotInv (s : State) : Prop :=
  s.params.wellFormed = true ∧
  match s.seq with
  | .rxArm k d buf =>
    s.rxValid = false ∧ SlotGeometry s.params d ∧ (0 < armIndex k → s.reg .rxDesc = d) ∧
    (1 < armIndex k → s.reg .rxBuf = buf) ∧ (4 < armIndex k → s.reg .rxRingBase = d) ∧
    (5 < armIndex k → s.reg .rxTailPtr = d) ∧
    (k = .ringBase ∨ k = .tailPtr → s.isGrantedRx (descWord s.params d 3) = false)
  | .rxPoll k => s.rxValid = true ∧ SlotSet s ∧ PollProgress s k
  | .rxRearm k => s.rxValid = true ∧ SlotSet s ∧ RearmProgress s k
  | _ => s.rxValid = true → SlotSet s

/-! ### The two handshakes SEQ waits on (R159, R251) -/

/-- SWR is 1 only inside DMA.SWRESET, after its first write (R251). -/
def SwrInv (s : State) : Prop :=
  s.swr = true → s.seq = .dmaSwreset .clearInit ∨ s.seq = .dmaSwreset .poll

/-- The position of the transaction SEQ is inside, top-level or nested (R171). -/
def transactionOf : Seq → Option MdioPos
  | .mdioRead m => some m
  | .mdioWrite m => some m
  | .phyDetect _ m => some m
  | .phyResetWrite _ m => some m
  | .phyResetRead _ m => some m
  | .phyLinkFirst _ m => some m
  | .phyLinkSecond _ m => some m
  | _ => none

/-- The PHY address of a data write or command write that is about to happen. -/
def mdioTarget : MdioPos → Option PhyAddr
  | .writeData p _ _ => some p
  | .writeCmd p _ _ => some p
  | .poll _ => none
  | .cfg _ => none
  | .hook _ => none
  | .readData => none

/-- A position of a read of an address 0..62 (R142). -/
def mdioIsRead : MdioPos → Bool
  | .writeData _ _ _ => false
  | .writeCmd p _ o => decide (p.toNat ≤ Config.phyAddrMax) && o == Config.opRead
  | .poll o => o == Config.opRead
  | .cfg o => o == Config.opRead
  | .hook o => o == Config.opRead
  | .readData => true

/-- A position of a write to an address 0..62 (R143). -/
def mdioIsWrite : MdioPos → Bool
  | .writeData p _ _ => decide (p.toNat ≤ Config.phyAddrMax)
  | .writeCmd p _ o => decide (p.toNat ≤ Config.phyAddrMax) && o == Config.opWrite
  | .poll o => o == Config.opWrite
  | .cfg o => o == Config.opWrite
  | .hook o => o == Config.opWrite
  | .readData => false

/-- A PHY address 0..62 (R112). -/
def AddressOk (p : PhyAddr) : Prop := p.toNat ≤ Config.phyAddrMax

/-- The addresses and transactions SEQ is busy with: a valid PHYADDR, and every address SEQ holds, is 0..62 (R112);
a transaction inside MDIO.READ, PHY.DETECT, PHY.LINKSTATUS or a poll of PHY.RESET is a read, one inside MDIO.WRITE or at
the start of PHY.RESET is a write; what is about to end is an operation of the port. -/
def TransactionInv (s : State) : Prop :=
  (s.phyValid = true → AddressOk s.phyAddr) ∧
  match s.seq with
  | .mdioRead m => mdioIsRead m = true
  | .mdioWrite m => mdioIsWrite m = true
  | .phySetaddr a => AddressOk a
  | .phyDetect a m => AddressOk a ∧ mdioIsRead m = true
  | .phyDetectStore a => AddressOk a
  | .phyResetAddr => s.phyValid = true
  | .phyResetWrite p m => AddressOk p ∧ mdioIsWrite m = true
  | .phyResetRead p m => AddressOk p ∧ mdioIsRead m = true
  | .phyResetCfg p => AddressOk p
  | .phyResetHook p => AddressOk p
  | .phyLinkAddr => s.phyValid = true
  | .phyLinkFirst p m => AddressOk p ∧ mdioIsRead m = true
  | .phyLinkSecond p m => AddressOk p ∧ mdioIsRead m = true
  | .ending i _ => i.format = .opw
  | _ => True

/-- The invariants together. -/
def MachineInv (s : State) : Prop :=
  CanonicalInv s ∧ RegisterFormatInv s ∧ TxRingInv s ∧ RxSlotInv s ∧ SwrInv s ∧ TransactionInv s

/-! ### What a step of an operation may write -/

/-- The registers the accesses of an instruction write (the "written by" column of R21). -/
def Instr.accesses : Instr → List Reg
  | .mdioRead => [.mdioCmd]
  | .mdioWrite => [.mdioData, .mdioCmd]
  | .phySetaddr => [.phyaddr]
  | .phyDetect => [.mdioCmd, .phyaddr]
  | .phyReset => [.mdioData, .mdioCmd]
  | .phyLinkstatus => [.mdioCmd]
  | .txSetdesc => [.txBase, .txN, .txMask, .txTail, .txCur, .txRingBase, .txRingLen, .txTailPtr, .init]
  | .txPut => [.txTailPtr, .txTail]
  | .txUpdate => [.txCur]
  | .rxArm => [.rxDesc, .rxBuf, .rxRingBase, .rxTailPtr, .init]
  | .rxPoll => []
  | .rxRearm => [.rxTailPtr]
  | .dmaSwreset => [.dmaCtrl, .init]
  | .cmdwRead _ _ => [.mdioData, .mdioCmd]
  | .cmdwWrite _ _ => [.mdioCmd]

/-- The registers the step that ends an operation writes (R267, R269). -/
def endRegs : List Reg := [.status, .res0, .res1, .errinfo]

/-- The registers a step of `i` may write in `s`: those of its end when SEQ is about to end it, else those of its
accesses. -/
def writtenBy (i : Instr) (s : State) : List Reg :=
  match s.seq, i.format with
  | .ending _ _, .opw => endRegs
  | _, _ => i.accesses

/-- The address of the word SEQ's next step stores in system memory, if it stores one (R72). -/
def storeAddress (s : State) : Option Word :=
  match s.seq with
  | .txPut (.writeBuf _ d) _ _ => some (descWord s.params d 0)
  | .txPut (.writeLen _ d) _ _ => some (descWord s.params d 2)
  | .txPut (.writeCtl _ d) _ _ => some (descWord s.params d 3)
  | .rxArm .memBuf d _ => some (descWord s.params d 0)
  | .rxArm .memCtl d _ => some (descWord s.params d 3)
  | .rxRearm (.writeCtl d) => some (descWord s.params d 3)
  | _ => none

/-- The address of the word 3 of the TX descriptor for which SEQ's next step writes TX_TAIL_PTR, if it does (R222). -/
def txHandOver (s : State) : Option Word :=
  match s.seq with
  | .txPut (.writeTailPtr _ d _) _ _ => some (descWord s.params d 3)
  | _ => none

/-- The address of the word 3 of the RX descriptor for which SEQ's next step writes RX_TAIL_PTR, if it does (R241). -/
def rxHandOver (s : State) : Option Word :=
  match s.seq with
  | .rxArm .tailPtr d _ => some (descWord s.params d 3)
  | .rxRearm (.writeTailPtr d _) => some (descWord s.params d 3)
  | _ => none

/-! ### Operations that run to their end -/

/-- From `s` the instruction's meaning answers a next state in which SEQ has left IDLE (R30), the agents' steps `es`
then bring SEQ back to IDLE, and the state reached is as `Q` says. -/
def Completes (i : Instr) (es : List Event) (s : State) (Q : State → Prop) : Prop :=
  ∃ s₁ t, exec i s = .next s₁ ∧ s₁.seq ≠ .idle ∧ play es s₁ = .next t ∧ t.seq = .idle ∧ Q t

/-- The status code an operation ended with (R107). -/
def EndsWith (code : Word) (t : State) : Prop := t.reg .status = code

/-- The events of one transaction that BUS completes before SEQ's first poll, for a read: command write, BUS, poll,
data read. -/
def readEvents : List Event := [.seq, .bus, .seq, .seq]

/-- As readEvents for a write: data write, command write, BUS, poll. -/
def writeEvents : List Event := [.seq, .seq, .bus, .seq]

/-- How many steps `k` iterations of PollBusy that see BUSY = 1 take: the reads of MDIO_CMD and of CFG, and the hook
call if there is a hook (R14, R146). -/
def pollSteps (s : State) (k : Nat) : Nat := if s.hookEn then 3 * k else 2 * k

/-- How many steps a TX.PUT that succeeds takes after its start: the capacity test reads three more registers where the
ring has more than one slot, and TailPtr one more where TX_TAIL_WRAP = 1 (R14, R208, R210). -/
def putSteps (s : State) : Nat :=
  13 + (if 1 < (s.reg .txN).toNat then 3 else 0) + (if s.params.txTailWrap then 1 else 0)

/-- How many steps an RX.REARM of a ready slot takes after its start (R14, R238). -/
def rearmSteps (s : State) : Nat := if s.params.rxRearmMode = .absolute then 5 else 6

/-- If there is a hook, its next `k` answers are ok. -/
def HookAllows (s : State) (k : Nat) (rest : List Config.HookAnswer) : Prop :=
  s.hookEn = true → s.hookAnswers = List.replicate k .ok ++ rest

/-- The read of register `r` of PHY `p` will answer 0xFFFF: no device, or a pinned 0xFFFF (R157). -/
def AnswersAllOnes (s : State) (p : PhyAddr) (r : RegAddr) : Prop :=
  s.isPresent p = false ∨ Assoc.lookup (phyKey p r) s.phyRegs = some 0xFFFF#16

/-- The address of word 3 of the descriptor of a ring index (R201, R215). -/
def ctlAddress (s : State) (index : Word) : Word :=
  descWord s.params (descAddr s.params (s.reg .txBase) (slotOf index (s.reg .txMask))) 3

end Sys2Proof
end

