-- ==== Sys2Proof/Certificates/Slice0/Obligations.lean ====
section
/-! DEFINITION. The statements for the provers. Each cites the rule of spec/ it formalises. Where a result register
or ERRINFO "holds no value" (R33, R268) it is listed among the registers that may change and nothing is said of its
value. -/

open Sys2Proof Sys2Proof.Machine

/-! ### What a step runs -/

/-- HOST's write of OPW runs the operation its bytes decode to, in that same step (R30). -/
def Obligations.StepRunsOperationWord : Prop :=
  ∀ (s : State) (w : Word) (rest : List Event) (i : Instr), s.agenda = .hostWrite Reg.opw.number w :: rest →
    s.seq = .idle → decode s.params .opw (wordBytes w) = .ok i →
    step s = exec i (({ s with agenda := rest } : State).setReg .opw w)

/-- BUS's step runs the command word standing in MDIO_CMD (R154, R155). -/
def Obligations.StepRunsCommandWord : Prop :=
  ∀ (s : State) (rest : List Event) (i : Instr), s.agenda = .bus :: rest →
    decode s.params .cmdw (wordBytes (s.reg .mdioCmd)) = .ok i →
    step s = exec i { s with agenda := rest }

/-- SEQ's turn, announced or with no other step announced, runs the operation SEQ is inside (R34, R320). -/
def Obligations.StepRunsSequencer : Prop :=
  ∀ (s : State) (rest : List Event) (i : Instr), s.agenda = .seq :: rest ∨ (s.agenda = [] ∧ rest = []) →
    s.seq.operation = some i → step s = exec i { s with agenda := rest }

/-- The words of a few rows of the opcode table, written out, decode to their instructions (R101, R102). The command
words are those of the default parameters, which are general knowledge (PRESUMED, log entry 9). -/
def Obligations.TableWordsDecode : Prop :=
  decodeTableWord 32 0x00000001 = some .mdioRead ∧ decodeTableWord 32 0x00000006 = some .phyLinkstatus ∧
  decodeTableWord 32 0x00000009 = some .txPut ∧ decodeTableWord 32 0x0000000B = some .rxArm ∧
  decodeTableWord 32 0x0000000E = some .dmaSwreset ∧
  decodeTableWord 32 0x00A2000D = some (.cmdwRead 5#6 2#5) ∧
  decodeTableWord 32 0x07DF0005 = some (.cmdwWrite 62#6 31#5) ∧
  decodeTableWord 32 0x07FF000D = none

/-- Decoding the encoding of a well-formed instruction gives it back, for every choice of parameters whose fields are
disjoint (R101, R102, R110). -/
def Obligations.EncodeThenDecode : Prop :=
  ∀ (P : Config.Params) (i : Instr), P.wellFormed = true → i.wellFormed = true →
    decode P i.format (wordBytes (encode P i)) = .ok i

/-- A word that decodes is the encoding of the instruction it decodes to, which is well-formed and of that format:
no word with a reserved bit, code or address decodes (R112, R115, R116). -/
def Obligations.DecodeThenEncode : Prop :=
  ∀ (P : Config.Params) (f : Format) (w : Word) (i : Instr), decodeWord P f w = .ok i →
    encode P i = w ∧ i.format = f ∧ i.wellFormed = true

/-- The four fields of cmdw(p, r, o) read back, and clearing BUSY keeps the other three (R102, R110, R154). -/
def Obligations.CommandWordFields : Prop :=
  ∀ (P : Config.Params) (p : PhyAddr) (r : RegAddr) (o : BitVec 2), P.wellFormed = true →
    let c := cmdw P p r o
    let c' := cmdClearBusy P c
    cmdPhyad P c = p ∧ cmdRegad P c = r ∧ cmdOp P c = o ∧ cmdBusy P c = true ∧
    cmdPhyad P c' = p ∧ cmdRegad P c' = r ∧ cmdOp P c' = o ∧ cmdBusy P c' = false

/-! ### The operation port and reset -/

/-- A write of OPW while SEQ is not IDLE, or with a reserved OPSEL or any of bits [31:4] set, is refused; any other
write starts the selected operation's meaning (R30, R115). -/
def Obligations.OpwWriteAcceptedOrRefused : Prop :=
  ∀ (s : State) (w : Word),
    (s.seq ≠ .idle → hostWrite 8 w s = .refused .secondActor) ∧
    (s.seq = .idle → (w.toNat ≥ 16 ∨ w = 0#32 ∨ w = 7#32 ∨ w = 15#32) →
      hostWrite 8 w s = .refused .reservedEncoding) ∧
    (s.seq = .idle → w.toNat < 16 → w ≠ 0#32 → w ≠ 7#32 → w ≠ 15#32 →
      ∃ i, encode s.params i = w ∧ i.format = .opw ∧ hostWrite 8 w s = exec i (s.setReg .opw w))

/-- HOST may write ARG0, ARG1, ARG2 and CFG, only while SEQ is IDLE, and besides OPW nothing else (R21, R31, R40). -/
def Obligations.HostWritesOnlyThePort : Prop :=
  ∀ (s : State) (v : Word),
    (s.seq = .idle → hostWrite 9 v s = .next (s.setReg .arg0 v) ∧ hostWrite 10 v s = .next (s.setReg .arg1 v) ∧
      hostWrite 11 v s = .next (s.setReg .arg2 v) ∧
      ∃ t, hostWrite 25 v s = .next t ∧ t.hookEn = v.getLsbD 0 ∧ KeepsRegsBut [.cfg] s t) ∧
    (s.seq ≠ .idle → ∀ n ∈ ([9, 10, 11, 25] : List (Fin 27)), hostWrite n v s = .refused .secondActor) ∧
    (∀ n : Fin 27, n ∉ ([8, 9, 10, 11, 25] : List (Fin 27)) → hostWrite n v s = .refused .notHostWritable)

/-- A HOST read of any register, at any time, changes nothing (R21, R78). -/
def Obligations.HostReadHasNoEffect : Prop :=
  ∀ (s : State) (n : Fin 27) (rest : List Event), s.agenda = .hostRead n :: rest →
    step s = .next { s with agenda := rest }

/-- A reset of the block gives SEQ, MDIO_CMD, DMA_CTRL, STATUS, PHYADDR.VALID, CFG and INIT their values and touches
neither system memory nor the PHYs nor DMA's own state (R300). -/
def Obligations.BlockResetValues : Prop :=
  ∀ s : State, ∃ t, eventTurn .blockReset s = .next t ∧ t.seq = .idle ∧ t.reg .mdioCmd = 0#32 ∧
    t.reg .dmaCtrl = 0#32 ∧ t.reg .status = 0#32 ∧ t.phyValid = false ∧ t.reg .cfg = 0#32 ∧ t.reg .init = 0#32 ∧
    t.mem = s.mem ∧ KeepsOutside s t ∧ KeepsGrants s t

/-- An operation on something that is not set up is refused: PHY.RESET and PHY.LINKSTATUS with no PHY address (R172),
TX.PUT and TX.UPDATE with no ring (R204), RX.POLL and RX.REARM with no slot, and RX.ARM with one (R231); and so is a
TX.PUT of more than 16383 bytes (R214). -/
def Obligations.SetUpRefusals : Prop :=
  ∀ s : State, s.seq = .idle →
    (s.phyValid = false →
      exec .phyReset s = .refused .noPhyAddress ∧ exec .phyLinkstatus s = .refused .noPhyAddress) ∧
    (s.txValid = false → exec .txPut s = .refused .ringNotSet ∧ exec .txUpdate s = .refused .ringNotSet) ∧
    (s.txValid = true → 16383 < (s.reg .arg1).toNat → exec .txPut s = .refused .lengthRange) ∧
    (s.rxValid = false → exec .rxPoll s = .refused .slotNotArmed ∧ exec .rxRearm s = .refused .slotNotArmed) ∧
    (s.rxValid = true → exec .rxArm s = .refused .alreadyArmed)

/-- What the state after reset allows with no bring-up, whatever the operands HOST writes, as far as they are in
range: the seven operations that start, and the six that are refused (R302). -/
def Obligations.ResetAllows : Prop :=
  ∀ (a0 a1 a2 : Word),
    let s := ((State.reset.setReg .arg0 a0).setReg .arg1 a1).setReg .arg2 a2
    let starts := fun i => ∃ t, exec i s = .next t ∧ t.seq.operation = some i
    (a0.toNat ≤ 62 → a1.toNat ≤ 31 → starts .mdioRead) ∧
    (a0.toNat ≤ 62 → a1.toNat ≤ 31 → a2.toNat ≤ 0xFFFF → starts .mdioWrite) ∧
    (a0.toNat ≤ 62 → starts .phySetaddr) ∧ starts .phyDetect ∧ starts .dmaSwreset ∧
    (a0.toNat % 4 = 0 → a1 ≠ 0#32 → a0.toNat + 16 * (pow2Floor a1).toNat < 2 ^ 32 → starts .txSetdesc) ∧
    (a0.toNat % 4 = 0 → a0.toNat + 16 < 2 ^ 32 → starts .rxArm) ∧
    exec .phyReset s = .refused .noPhyAddress ∧ exec .phyLinkstatus s = .refused .noPhyAddress ∧
    exec .txPut s = .refused .ringNotSet ∧ exec .txUpdate s = .refused .ringNotSet ∧
    exec .rxPoll s = .refused .slotNotArmed ∧ exec .rxRearm s = .refused .slotNotArmed ∧ s.hookEn = false

/-- The invariants hold after reset. Of MDIO_DATA, OPW and PHYADDR.ADDR it rests on the model's own reset values
(log entry 4), of memory, the PHYs and DMA on entries 5, 8 and 11. -/
def Obligations.ResetMeetsTheInvariants : Prop := MachineInv State.reset

/-! ### MTC: MDIO.READ, MDIO.WRITE and the poll loop -/

/-- MDIO.READ, started while BUSY = 0, runs to its end: after `k` polls that saw BUSY = 1, BUS completes, and RES0 and
MDIO_DATA hold the PHY's answer, zero-extended (R142, R146, R151, R154). -/
def Obligations.MdioReadReturnsTheAnswer : Prop :=
  ∀ (s : State) (p : PhyAddr) (r : RegAddr) (k : Nat) (rest : List Config.HookAnswer),
    s.params.wellFormed = true → s.seq = .idle → s.busy = false → s.reg .arg0 = p.setWidth 32 →
    s.reg .arg1 = r.setWidth 32 → AddressOk p → HookAllows s k rest →
    Completes .mdioRead ([.seq] ++ List.replicate (pollSteps s k) .seq ++ [.bus, .seq, .seq, .seq]) s fun t =>
      EndsWith 0#32 t ∧ t.reg .res0 = ((s.phyRead p r).1).setWidth 32 ∧
      t.reg .mdioData = ((s.phyRead p r).1).setWidth 32 ∧
      t.reg .mdioCmd = cmdClearBusy s.params (cmdw s.params p r 0b11#2) ∧
      KeepsRegsBut ([.mdioCmd, .mdioData] ++ endRegs) s t ∧ KeepsMemory s t ∧ KeepsOutside s t ∧ KeepsGrants s t

/-- MDIO.WRITE, started while BUSY = 0, runs to its end: MDIO_DATA holds the value, a present PHY has received it and
an absent one nothing (R143, R146, R155, R157). -/
def Obligations.MdioWriteReachesThePhy : Prop :=
  ∀ (s : State) (p : PhyAddr) (r : RegAddr) (v : Data16) (k : Nat) (rest : List Config.HookAnswer),
    s.params.wellFormed = true → s.seq = .idle → s.busy = false → s.reg .arg0 = p.setWidth 32 →
    s.reg .arg1 = r.setWidth 32 → s.reg .arg2 = v.setWidth 32 → AddressOk p → HookAllows s k rest →
    Completes .mdioWrite ([.seq, .seq] ++ List.replicate (pollSteps s k) .seq ++ [.bus, .seq, .seq]) s fun t =>
      EndsWith 0#32 t ∧ t.reg .mdioData = v.setWidth 32 ∧
      t.reg .mdioCmd = cmdClearBusy s.params (cmdw s.params p r 0b01#2) ∧
      t.phyRegs = (if s.isPresent p then Assoc.insert (phyKey p r) v s.phyRegs else s.phyRegs) ∧
      KeepsRegsBut ([.mdioCmd, .mdioData] ++ endRegs) s t ∧ KeepsMemory s t ∧ t.present = s.present ∧
      t.params = s.params ∧ KeepsGrants s t

/-- A value written by MDIO.WRITE and then read by MDIO.READ, with no PHY step between, comes back unchanged from a
present PHY (R158). -/
def Obligations.WriteThenReadRoundTrip : Prop :=
  ∀ (s : State) (p : PhyAddr) (r : RegAddr) (v : Data16), s.params.wellFormed = true → s.seq = .idle →
    s.busy = false → s.reg .arg0 = p.setWidth 32 → s.reg .arg1 = r.setWidth 32 → s.reg .arg2 = v.setWidth 32 →
    AddressOk p → s.isPresent p = true →
    ∃ t, play ([.hostWrite 8 2#32] ++ writeEvents ++ [.seq] ++ [.hostWrite 8 1#32] ++ readEvents ++ [.seq]) s =
      .next t ∧ t.seq = .idle ∧ EndsWith 0#32 t ∧ t.reg .res0 = v.setWidth 32

/-- An operand out of range refuses MDIO.READ and MDIO.WRITE at their start; with operands in range and BUSY = 0 they
start (R144). -/
def Obligations.MdioOperandRanges : Prop :=
  ∀ s : State, s.seq = .idle →
    let bad := 62 < (s.reg .arg0).toNat ∨ 31 < (s.reg .arg1).toNat
    let badValue := 0xFFFF < (s.reg .arg2).toNat
    (bad → exec .mdioRead s = .refused .operandRange) ∧
    (¬ bad → s.busy = false → ∃ t, exec .mdioRead s = .next t ∧ t.seq.operation = some .mdioRead) ∧
    (bad ∨ badValue → exec .mdioWrite s = .refused .operandRange) ∧
    (¬ bad → ¬ badValue → s.busy = false →
      ∃ t, exec .mdioWrite s = .next t ∧ t.seq.operation = some .mdioWrite)

/-- A transaction, top-level or nested, that is about to write MDIO_DATA or MDIO_CMD while BUSY = 1 is refused (R149,
R171); and an operation that uses MDIO, with operands and PHYADDR as it needs them, is refused at its start while BUSY
= 1 (R142, R143, R312). That both tests are made is the model's reading (DEDUCED, log entry 14). -/
def Obligations.CommandWhileBusyIsRefused : Prop :=
  ∀ s : State, s.busy = true →
    (∀ (m : MdioPos) (p : PhyAddr), transactionOf s.seq = some m → mdioTarget m = some p → AddressOk p →
      seqTurn s = .refused .commandWhileBusy) ∧
    (s.seq = .idle →
      ((s.reg .arg0).toNat ≤ 62 → (s.reg .arg1).toNat ≤ 31 → exec .mdioRead s = .refused .commandWhileBusy) ∧
      ((s.reg .arg0).toNat ≤ 62 → (s.reg .arg1).toNat ≤ 31 → (s.reg .arg2).toNat ≤ 0xFFFF →
        exec .mdioWrite s = .refused .commandWhileBusy) ∧
      exec .phyDetect s = .refused .commandWhileBusy ∧
      (s.phyValid = true →
        exec .phyReset s = .refused .commandWhileBusy ∧ exec .phyLinkstatus s = .refused .commandWhileBusy))

/-- With no hook and BUSY = 1, PollBusy goes round for ever: any number of iterations, each a read of MDIO_CMD and one
of CFG, changes nothing (R147, R275). That the read of CFG is a step, so that an iteration takes two, is the model's
reading of R14 and R146 (DEDUCED, log entry 3). -/
def Obligations.PollLoopSpinsUnbounded : Prop :=
  ∀ (s : State) (o : BitVec 2) (n : Nat), transactionOf s.seq = some (.poll o) → s.busy = true → s.hookEn = false →
    playSeq (2 * n) s = .next s

/-- With a hook, PollBusy calls it exactly once for each poll that saw BUSY = 1: `n` ok answers are used up by `n`
iterations, each a read of MDIO_CMD, one of CFG and the call, and nothing else changes (R146, R323). That the read of
CFG is a step, so that an iteration takes three, is the model's reading of R14 and R146 (DEDUCED, log entry 3). -/
def Obligations.OneHookCallPerBusyPoll : Prop :=
  ∀ (s : State) (o : BitVec 2) (n : Nat) (rest : List Config.HookAnswer),
    transactionOf s.seq = some (.poll o) → s.busy = true → s.hookEn = true →
    s.hookAnswers = List.replicate n .ok ++ rest → playSeq (3 * n) s = .next { s with hookAnswers := rest }

/-- A hook failure in PollBusy of MDIO.READ, MDIO.WRITE, PHY.LINKSTATUS or PHY.RESET's initial write, or between the
polls of PHY.RESET, ends the operation with HOOK_FAIL and the hook's code, and leaves what the operation did, a
transaction in flight among it, as it is: MDIO_CMD, MDIO_DATA, the PHYs and memory are untouched (R150, R181, R182,
R190, R261). -/
def Obligations.HookFailureEndsTheOperation : Prop :=
  ∀ (s : State) (p : PhyAddr) (o : BitVec 2) (e : Word) (rest : List Config.HookAnswer),
    s.seq ∈ ([.mdioRead (.hook o), .mdioWrite (.hook o), .phyLinkFirst p (.hook o), .phyLinkSecond p (.hook o),
      .phyResetWrite p (.hook o), .phyResetHook p] : List Seq) → s.hookAnswers = .fail e :: rest →
    ∃ t, playSeq 2 s = .next t ∧ t.seq = .idle ∧ EndsWith 1#32 t ∧ t.reg .errinfo = e ∧ t.busy = s.busy ∧
      KeepsRegsBut endRegs s t ∧ KeepsMemory s t ∧ KeepsOutside s t ∧ KeepsGrants s t

/-- BUS's completion of a read in flight puts the PHY's answer, zero-extended, in MDIO_DATA and clears BUSY, and
changes nothing else (R154). -/
def Obligations.BusCompletesRead : Prop :=
  ∀ (s : State) (p : PhyAddr) (r : RegAddr), s.inFlight p r 0b11#2 = true → AddressOk p →
    ∃ t, exec (.cmdwRead p r) s = .next t ∧ t.reg .mdioData = ((s.phyRead p r).1).setWidth 32 ∧
      t.reg .mdioCmd = s.reg .mdioCmd &&& ~~~ (1#32 <<< s.params.cmdBusyBit) ∧ t.seq = s.seq ∧
      KeepsRegsBut [.mdioCmd, .mdioData] s t ∧ t.mem = s.mem ∧ KeepsOutside s t ∧ KeepsGrants s t

/-- BUS's completion of a write in flight gives the PHY bits [15:0] of MDIO_DATA and clears BUSY; MDIO_DATA, the
other PHY registers and everything else keep their values (R155, R157). -/
def Obligations.BusCompletesWrite : Prop :=
  ∀ (s : State) (p : PhyAddr) (r : RegAddr), s.inFlight p r 0b01#2 = true → AddressOk p →
    ∃ t, exec (.cmdwWrite p r) s = .next t ∧
      t.reg .mdioCmd = s.reg .mdioCmd &&& ~~~ (1#32 <<< s.params.cmdBusyBit) ∧
      (∀ k, Assoc.lookup k t.phyRegs =
        if s.isPresent p = true ∧ k = phyKey p r then some ((s.reg .mdioData).setWidth 16)
        else Assoc.lookup k s.phyRegs) ∧
      t.seq = s.seq ∧ KeepsRegsBut [.mdioCmd] s t ∧ t.mem = s.mem ∧ t.present = s.present ∧
      t.params = s.params ∧ KeepsGrants s t

/-- An address with no device answers 0xFFFF and ignores writes (R157). -/
def Obligations.AbsentDeviceAnswersAllOnes : Prop :=
  ∀ (s : State) (p : PhyAddr) (r : RegAddr), s.isPresent p = false → AddressOk p →
    (s.inFlight p r 0b11#2 = true → ∃ t, exec (.cmdwRead p r) s = .next t ∧ t.reg .mdioData = 0xFFFF#32) ∧
    (s.inFlight p r 0b01#2 = true → ∃ t, exec (.cmdwWrite p r) s = .next t ∧ t.phyRegs = s.phyRegs)

/-- The life of the busy flag: only a command write of SEQ sets it, and only a completion of BUS or a reset of the
block clears it (R159). The invariant rules out a SEQ that is about to end a command word. -/
def Obligations.BusyFlagLife : Prop :=
  ∀ s t : State, TransactionInv s → step s = .next t →
    (s.busy = false → t.busy = true →
      ∃ p r o, transactionOf s.seq = some (.writeCmd p r o) ∧ (s.agenda = [] ∨ ∃ rest, s.agenda = .seq :: rest)) ∧
    (s.busy = true → t.busy = false →
      ∃ rest, s.agenda = .bus :: rest ∨ s.agenda = .blockReset :: rest)

/-! ### PLC -/

/-- PHY.SETADDR stores the address with VALID = 1, without a transaction, and refuses an address above 62 (R173). -/
def Obligations.SetaddrStoresTheAddress : Prop :=
  ∀ s : State, s.seq = .idle →
    (62 < (s.reg .arg0).toNat → exec .phySetaddr s = .refused .operandRange) ∧
    ((s.reg .arg0).toNat ≤ 62 → Completes .phySetaddr [.seq, .seq] s fun t =>
      EndsWith 0#32 t ∧ t.reg .phyaddr = (1#32 <<< 31) ||| s.reg .arg0 ∧
      KeepsRegsBut ([.phyaddr] ++ endRegs) s t ∧ KeepsMemory s t ∧ KeepsOutside s t ∧ KeepsGrants s t)

/-- PHY.DETECT skips every address that answers 0xFFFF, in ascending order, and returns and stores the first that
answers anything else (R176, R177). -/
def Obligations.DetectFindsTheLowestAnswering : Prop :=
  ∀ (s : State) (a : PhyAddr) (v : Data16), s.params.wellFormed = true → s.seq = .idle → s.busy = false →
    AddressOk a → (∀ b : PhyAddr, b.toNat < a.toNat → AnswersAllOnes s b s.params.idIdx) →
    s.isPresent a = true → Assoc.lookup (phyKey a s.params.idIdx) s.phyRegs = some v → v ≠ 0xFFFF#16 →
    Completes .phyDetect ((List.replicate (a.toNat + 1) readEvents).flatten ++ [.seq, .seq]) s fun t =>
      EndsWith 0#32 t ∧ t.reg .res0 = a.setWidth 32 ∧ t.reg .phyaddr = (1#32 <<< 31) ||| a.setWidth 32 ∧
      KeepsRegsBut ([.phyaddr, .mdioCmd, .mdioData] ++ endRegs) s t ∧ KeepsMemory s t ∧ KeepsOutside s t

/-- PHY.DETECT over a bus where every address answers 0xFFFF ends with NOT_FOUND after 63 reads, PHYADDR unchanged
(R176, R262). -/
def Obligations.DetectNotFound : Prop :=
  ∀ s : State, s.params.wellFormed = true → s.seq = .idle → s.busy = false →
    (∀ b : PhyAddr, AddressOk b → AnswersAllOnes s b s.params.idIdx) →
    Completes .phyDetect ((List.replicate 63 readEvents).flatten ++ [.seq]) s fun t =>
      EndsWith 2#32 t ∧ KeepsRegsBut ([.mdioCmd, .mdioData] ++ endRegs) s t ∧ KeepsMemory s t ∧ KeepsOutside s t

/-- A read that fails inside PHY.DETECT skips its address, and one that fails inside a poll of PHY.RESET counts as "not
yet done" and goes on to the read of CFG before the next poll: neither is surfaced, and the aborted transaction stays
in flight (R178, R182). -/
def Obligations.SwallowedReadFailures : Prop :=
  ∀ (s : State) (a : PhyAddr) (o : BitVec 2) (e : Word) (rest : List Config.HookAnswer),
    s.hookAnswers = .fail e :: rest →
    (s.seq = .phyDetect a (.hook o) →
      ∃ t, exec .phyDetect s = .next t ∧ t.busy = s.busy ∧ KeepsRegsBut [] s t ∧
        t.seq = if a.toNat < 62 then .phyDetect (a + 1#6) (.writeCmd (a + 1#6) s.params.idIdx 0b11#2)
          else .ending .phyDetect (.raise .notFound)) ∧
    (s.seq = .phyResetRead a (.hook o) →
      ∃ t, exec .phyReset s = .next t ∧ t.busy = s.busy ∧ KeepsRegsBut [] s t ∧
        t.seq = .phyResetCfg a)

/-- PHY.RESET on a present PHY runs to its end: its write, once BUS has completed it, leaves MDIO_DATA and the control
register with the reset bit alone, `n` polling reads see it still set, the PHY clears it, and the next read ends the
operation (R180, R181). -/
def Obligations.ResetPollsUntilCleared : Prop :=
  ∀ (s : State) (v : Data16) (n : Nat) (rest : List Config.HookAnswer),
    s.params.wellFormed = true → s.seq = .idle → s.busy = false → s.phyValid = true → AddressOk s.phyAddr →
    s.isPresent s.phyAddr = true → HookAllows s n rest → v.getLsbD s.params.bcrResetBit = false →
    let poll := if s.hookEn then readEvents ++ [.seq, .seq] else readEvents ++ [.seq]
    (∃ s₁ u, exec .phyReset s = .next s₁ ∧ play ([.seq] ++ writeEvents) s₁ = .next u ∧
      u.reg .mdioData = (1#16 <<< s.params.bcrResetBit).setWidth 32 ∧
      Assoc.lookup (phyKey s.phyAddr s.params.bcrIdx) u.phyRegs = some (1#16 <<< s.params.bcrResetBit) ∧
      KeepsRegsBut [.mdioCmd, .mdioData] s u) ∧
    Completes .phyReset ([.seq] ++ writeEvents ++ (List.replicate n poll).flatten ++
        [.phy s.phyAddr s.params.bcrIdx v] ++ readEvents ++ [.seq]) s fun t =>
      EndsWith 0#32 t ∧ KeepsRegsBut ([.mdioCmd, .mdioData] ++ endRegs) s t ∧ KeepsMemory s t ∧
      t.params = s.params ∧ t.present = s.present ∧ KeepsGrants s t

/-- PHY.LINKSTATUS with the link bit clear makes one transaction and returns 0x00, whatever the other bits of BSR
(R188). -/
def Obligations.LinkDownMakesOneRead : Prop :=
  ∀ s : State, s.params.wellFormed = true → s.seq = .idle → s.busy = false → s.phyValid = true →
    AddressOk s.phyAddr → ((s.phyRead s.phyAddr s.params.bsrIdx).1).getLsbD s.params.bsrLinkBit = false →
    Completes .phyLinkstatus ([.seq] ++ readEvents ++ [.seq]) s fun t =>
      EndsWith 0#32 t ∧ t.reg .res0 = 0x00#32 ∧
      t.reg .mdioCmd = cmdClearBusy s.params (cmdw s.params s.phyAddr s.params.bsrIdx 0b11#2) ∧
      KeepsRegsBut ([.mdioCmd, .mdioData] ++ endRegs) s t ∧ KeepsMemory s t ∧ KeepsOutside s t

/-- PHY.LINKSTATUS with the link bit set reads LS_SECOND_REG and returns the link status word of the fixed code table:
0x01 where autonegotiation is not done or the code is not one of the four (R186, R187, R191). -/
def Obligations.LinkUpDecodesTheCode : Prop :=
  ∀ (s : State) (bsr vsr : Data16), s.params.wellFormed = true → s.seq = .idle → s.busy = false →
    s.phyValid = true → AddressOk s.phyAddr → (s.phyRead s.phyAddr s.params.bsrIdx).1 = bsr →
    (((s.phyRead s.phyAddr s.params.bsrIdx).2).phyRead s.phyAddr s.params.lsSecondReg).1 = vsr →
    bsr.getLsbD s.params.bsrLinkBit = true →
    Completes .phyLinkstatus ([.seq] ++ readEvents ++ readEvents ++ [.seq]) s fun t =>
      EndsWith 0#32 t ∧ KeepsRegsBut ([.mdioCmd, .mdioData] ++ endRegs) s t ∧ KeepsMemory s t ∧ KeepsOutside s t ∧
      t.reg .res0 =
        (let code := (vsr >>> s.params.vsrCodeLo).toNat % 8
         if vsr.getLsbD s.params.vsrAndoneBit = false then 0x01#32
         else if code = 1 then 0x0B#32 else if code = 5 then 0x0F#32
         else if code = 2 then 0x13#32 else if code = 6 then 0x17#32 else 0x01#32)

/-! ### DRM: the TX ring -/

/-- Pow2Floor(L) is the largest power of two not greater than L, and TX.SETDESC refuses L = 0 (R207). -/
def Obligations.PowerOfTwoFloor : Prop :=
  (∀ l : Word, l ≠ 0#32 → ∃ k, (pow2Floor l).toNat = 2 ^ k ∧ 2 ^ k ≤ l.toNat ∧ l.toNat < 2 ^ (k + 1)) ∧
  (∀ s : State, s.seq = .idle → s.reg .arg1 = 0#32 → exec .txSetdesc s = .refused .emptyArray)

/-- TX.SETDESC refuses an empty, a misaligned or an out-of-range array, in that order, and otherwise runs to its end
with the ring's registers as R206 lists them; it neither reads nor writes descriptor memory. -/
def Obligations.SetdescProgramsTheRing : Prop :=
  ∀ s : State, s.seq = .idle →
    let base := s.reg .arg0
    let n := pow2Floor (s.reg .arg1)
    if s.reg .arg1 = 0#32 then exec .txSetdesc s = .refused .emptyArray
    else if base.toNat % s.params.descAlign ≠ 0 then exec .txSetdesc s = .refused .misaligned
    else if 2 ^ s.params.addrW ≤ base.toNat + s.params.descSpan * n.toNat then
      exec .txSetdesc s = .refused .outOfAddressSpace
    else Completes .txSetdesc (List.replicate 10 .seq) s fun t =>
      EndsWith 0#32 t ∧ t.reg .res0 = n ∧ t.reg .txBase = base ∧ t.reg .txN = n ∧ t.reg .txMask = n - 1#32 ∧
      t.reg .txTail = 0#32 ∧ t.reg .txCur = 0#32 ∧ t.reg .txRingBase = base ∧ t.reg .txRingLen = n - 1#32 ∧
      t.reg .txTailPtr = base ∧ t.txValid = true ∧ t.rxValid = s.rxValid ∧
      KeepsRegsBut ([.txBase, .txN, .txMask, .txTail, .txCur, .txRingBase, .txRingLen, .txTailPtr, .init] ++
        endRegs) s t ∧ KeepsMemory s t ∧ KeepsOutside s t ∧ KeepsGrants s t

/-- TX.PUT into a free slot of a ring that is not at capacity runs to its end: word 0 is the buffer, word 2 the length,
word 3 OWN, LD and FD, no other byte of memory changes; the tail pointer and the producer index advance; RES0 is the
descriptor's address and RES1 the slot; DMA may then consume this descriptor, and of every descriptor whose word 3 is
none of the three words written it may consume or fill what it might before (R208, R210, R213, R222). -/
def Obligations.PutHandsTheSlotOver : Prop :=
  ∀ s : State, s.params.wellFormed = true → s.seq = .idle → s.txValid = true → RingSet s →
    (s.reg .arg1).toNat ≤ 16383 → own (s.word (ctlAddress s (s.reg .txTail))) = false → s.ringFull = false →
    let slot := s.reg .txTail &&& s.reg .txMask
    let d := s.reg .txBase + BitVec.ofNat 32 s.params.descSpan * slot
    Completes .txPut (List.replicate (putSteps s) .seq) s fun t =>
      EndsWith 0#32 t ∧ t.reg .res0 = d ∧ t.reg .res1 = slot ∧ t.word d = s.reg .arg0 ∧
      t.word (d + 8#32) = s.reg .arg1 ∧ t.word (d + 12#32) = 0xB0000000#32 ∧
      (∀ a, (a < d.toNat ∨ d.toNat + 4 ≤ a) → (a < d.toNat + 8 ∨ d.toNat + 16 ≤ a) →
        t.mem.read a = s.mem.read a) ∧
      t.reg .txTailPtr = (if s.params.txTailWrap = true ∧ slot + 1#32 = s.reg .txN then s.reg .txBase
        else s.reg .txBase + BitVec.ofNat 32 s.params.descSpan * (slot + 1#32)) ∧
      (t.reg .txTail).toNat = ((s.reg .txTail).toNat + 1) % 2 ^ s.params.idxW ∧
      t.isGrantedTx (d + 12#32) = true ∧ t.isGrantedRx (d + 12#32) = false ∧
      KeepsGrantsBut [d, d + 8#32, d + 12#32] s t ∧
      KeepsRegsBut ([.txTailPtr, .txTail] ++ endRegs) s t ∧ KeepsOutside s t

/-- TX.PUT's two signals, the OWN test first: SLOT_BUSY where the slot is still DMA-owned, else RING_FULL where a ring
of more than one slot is at capacity; both leave every register but the end's and all of memory as it was (R209, R263,
R264). -/
def Obligations.PutSignals : Prop :=
  ∀ s : State, s.params.wellFormed = true → s.seq = .idle → s.txValid = true → RingSet s →
    (s.reg .arg1).toNat ≤ 16383 →
    let owned := own (s.word (ctlAddress s (s.reg .txTail)))
    let full := 1 < (s.reg .txN).toNat ∧ s.txPending = s.reg .txN
    owned = true ∨ full →
    ∃ s₁ t, exec .txPut s = .next s₁ ∧ playSeq (if owned = true then 5 else 9) s₁ = .next t ∧ t.seq = .idle ∧
      EndsWith (if owned = true then 3#32 else 4#32) t ∧
      KeepsRegsBut endRegs s t ∧ KeepsMemory s t ∧ KeepsOutside s t ∧ KeepsGrants s t

/-- The tail pointer TX.PUT writes once it has set OWN (R210): the position just past the slot, or the base after the
last slot where TX_TAIL_WRAP = 1; the write hands this descriptor to DMA, and no other (R222). -/
def Obligations.PutTailPointer : Prop :=
  ∀ (s : State) (buf len slot d : Word), s.params.wellFormed = true →
    s.seq = .txPut (if s.params.txTailWrap then .ptrN slot d else .ptrBase slot d false) buf len →
    ∃ t, playSeq (if s.params.txTailWrap then 3 else 2) s = .next t ∧ KeepsRegsBut [.txTailPtr] s t ∧
      t.isGrantedTx (descWord s.params d 3) = true ∧
      (∀ a, a ≠ descWord s.params d 3 → t.isGrantedTx a = s.isGrantedTx a) ∧ t.rxGranted = s.rxGranted ∧
      (s.params.txTailWrap = true → slot + 1#32 = s.reg .txN → t.reg .txTailPtr = s.reg .txBase) ∧
      (s.params.txTailWrap = false ∨ slot + 1#32 ≠ s.reg .txN →
        (t.reg .txTailPtr).toNat =
          ((s.reg .txBase).toNat + s.params.descSpan * (slot + 1#32).toNat) % 2 ^ s.params.addrW)

/-- TX.UPDATE reclaims exactly the submitted slots whose OWN bit is clear, from the consumer index on, up to the first
that is still owned, and reports what remains and the current slot; it writes only TX_CUR (R215, R216). -/
def Obligations.UpdateReclaimsInOrder : Prop :=
  ∀ (s : State) (m : Nat), s.params.wellFormed = true → s.seq = .idle → s.txValid = true → RingSet s →
    let pending := s.txPending.toNat
    m ≤ pending → (∀ j < m, own (s.word (ctlAddress s (s.reg .txCur + BitVec.ofNat 32 j))) = false) →
    (m < pending → own (s.word (ctlAddress s (s.reg .txCur + BitVec.ofNat 32 m))) = true) →
    Completes .txUpdate (List.replicate (8 * m + (if m < pending then 6 else 2) + 5) .seq) s fun t =>
      EndsWith 0#32 t ∧ (t.reg .txCur).toNat = ((s.reg .txCur).toNat + m) % 2 ^ s.params.idxW ∧
      t.reg .res0 = BitVec.ofNat 32 (pending - m) ∧
      t.reg .res1 = (s.reg .txCur + BitVec.ofNat 32 m) &&& s.reg .txMask ∧
      KeepsRegsBut ([.txCur] ++ endRegs) s t ∧ KeepsMemory s t ∧ KeepsOutside s t ∧ KeepsGrants s t

/-- A put into an empty ring, DMA's completion of the slot, and an update: pendingCount 0, the consumer index
advanced by exactly 1, and the slot the next put will use as the current one (R216, R217, R222). -/
def Obligations.PutDoneUpdateEmptiesTheRing : Prop :=
  ∀ s : State, s.params.wellFormed = true → s.seq = .idle → s.txValid = true → RingSet s →
    (s.reg .arg1).toNat ≤ 16383 →
    s.reg .txCur = s.reg .txTail → own (s.word (ctlAddress s (s.reg .txTail))) = false →
    ∃ t, play ([.hostWrite 8 9#32] ++ List.replicate (putSteps s) .seq ++
        [.dmaTxDone (s.reg .txTail &&& s.reg .txMask), .hostWrite 8 10#32] ++ List.replicate 15 .seq) s = .next t ∧
      t.seq = .idle ∧ EndsWith 0#32 t ∧ t.reg .res0 = 0#32 ∧
      (t.reg .txCur).toNat = ((s.reg .txCur).toNat + 1) % 2 ^ s.params.idxW ∧
      t.reg .res1 = (s.reg .txCur + 1#32) &&& s.reg .txMask ∧
      t.word (ctlAddress s (s.reg .txTail)) = 0x30000000#32 ∧
      t.isGrantedTx (ctlAddress s (s.reg .txTail)) = false

/-! ### DRM: the RX slot and the DMA soft reset -/

/-- RX.ARM refuses an armed slot, a misaligned or an out-of-range descriptor, in that order, and otherwise runs to its
end: word 0 is the buffer, word 3 OWN and BUF1V, no other byte of memory changes, the ring base and the tail pointer
hold the descriptor's address, and DMA may fill this slot, and of every descriptor whose word 3 is neither word written
it may consume or fill what it might before (R232, R241). -/
def Obligations.ArmSetsUpTheSlot : Prop :=
  ∀ s : State, s.params.wellFormed = true → s.seq = .idle →
    let d := s.reg .arg0
    if s.rxValid = true then exec .rxArm s = .refused .alreadyArmed
    else if d.toNat % s.params.descAlign ≠ 0 then exec .rxArm s = .refused .misaligned
    else if 2 ^ s.params.addrW ≤ d.toNat + s.params.descSpan then exec .rxArm s = .refused .outOfAddressSpace
    else Completes .rxArm (List.replicate 8 .seq) s fun t =>
      EndsWith 0#32 t ∧ t.reg .rxDesc = d ∧ t.reg .rxBuf = s.reg .arg1 ∧ t.reg .rxRingBase = d ∧
      t.reg .rxTailPtr = d ∧ t.rxValid = true ∧ t.txValid = s.txValid ∧
      t.word d = s.reg .arg1 ∧ t.word (d + 12#32) = 0x81000000#32 ∧
      (∀ a, (a < d.toNat ∨ d.toNat + 4 ≤ a) → (a < d.toNat + 12 ∨ d.toNat + 16 ≤ a) →
        t.mem.read a = s.mem.read a) ∧
      t.isGrantedRx (d + 12#32) = true ∧ t.isGrantedTx (d + 12#32) = false ∧
      KeepsGrantsBut [d, d + 12#32] s t ∧
      KeepsRegsBut ([.rxDesc, .rxBuf, .rxRingBase, .rxTailPtr, .init] ++ endRegs) s t ∧ KeepsOutside s t

/-- RX.POLL tests OWN alone: where it is clear the operation returns bits [29:16] of word 2 and the buffer's address,
where it is set it ends with NOT_READY; either way nothing but the end's registers changes (R235, R236, R265). -/
def Obligations.PollReportsTheFrame : Prop :=
  ∀ s : State, s.params.wellFormed = true → s.seq = .idle → s.rxValid = true → SlotSet s →
    (own (s.word (s.reg .rxDesc + 12#32)) = false → Completes .rxPoll (List.replicate 5 .seq) s fun t =>
      EndsWith 0#32 t ∧ (t.reg .res0).toNat = (s.word (s.reg .rxDesc + 8#32)).toNat / 2 ^ 16 % 2 ^ 14 ∧
      t.reg .res1 = s.reg .rxBuf ∧ KeepsRegsBut endRegs s t ∧ KeepsMemory s t ∧ KeepsOutside s t ∧
      KeepsGrants s t) ∧
    (own (s.word (s.reg .rxDesc + 12#32)) = true →
      ∃ s₁ t, exec .rxPoll s = .next s₁ ∧ playSeq 3 s₁ = .next t ∧ t.seq = .idle ∧ EndsWith 5#32 t ∧
        KeepsRegsBut endRegs s t ∧ KeepsMemory s t ∧ KeepsOutside s t ∧ KeepsGrants s t)

/-- RX.REARM on a ready slot writes word 3 whole, OWN and BUF1V, and then moves RX_TAIL_PTR as RX_REARM_MODE says, no
other byte of memory changes, and DMA may then fill this slot, and no other descriptor's grant changes; on a slot DMA
owns it is refused at its read of word 3 (R238, R239, R240, R241). -/
def Obligations.RearmGivesTheSlotBack : Prop :=
  ∀ s : State, s.params.wellFormed = true → s.seq = .idle → s.rxValid = true → SlotSet s →
    (own (s.word (s.reg .rxDesc + 12#32)) = false →
      Completes .rxRearm (List.replicate (rearmSteps s) .seq) s fun t =>
        EndsWith 0#32 t ∧ t.word (s.reg .rxDesc + 12#32) = 0x81000000#32 ∧
        (t.reg .rxTailPtr).toNat = ((if s.params.rxRearmMode = .absolute then s.reg .rxDesc
          else s.reg .rxTailPtr).toNat + s.params.descSpan) % 2 ^ s.params.addrW ∧
        t.isGrantedRx (s.reg .rxDesc + 12#32) = true ∧ t.isGrantedTx (s.reg .rxDesc + 12#32) = false ∧
        KeepsGrantsBut [s.reg .rxDesc + 12#32] s t ∧
        KeepsMemoryBut (s.reg .rxDesc + 12#32).toNat 4 s t ∧ KeepsRegsBut ([.rxTailPtr] ++ endRegs) s t ∧
        KeepsOutside s t) ∧
    (own (s.word (s.reg .rxDesc + 12#32)) = true →
      ∃ s₁ s₂, exec .rxRearm s = .next s₁ ∧ seqTurn s₁ = .next s₂ ∧ s₂.mem = s.mem ∧
        seqTurn s₂ = .refused .descriptorDmaOwned)

/-- The receive side end to end: arm the slot, DMA deposits a frame of `n` bytes, the poll reports `n`, and after a
re-arm OWN and buffer-valid are set and the slot is not ready (R232, R235, R238, R241). -/
def Obligations.ReceiveEndToEnd : Prop :=
  ∀ (s : State) (n : Nat) (bufv : Bool), s.params.wellFormed = true → s.seq = .idle → s.rxValid = false →
    SlotGeometry s.params (s.reg .arg0) → n ≤ 16383 →
    ∃ t u, play ([.hostWrite 8 11#32] ++ List.replicate 8 .seq ++ [.dmaRxFrame n bufv, .hostWrite 8 12#32] ++
        List.replicate 5 .seq) s = .next t ∧ t.seq = .idle ∧ EndsWith 0#32 t ∧
      t.reg .res0 = BitVec.ofNat 32 n ∧ t.reg .res1 = s.reg .arg1 ∧
      play ([.hostWrite 8 13#32] ++ List.replicate (rearmSteps s) .seq ++ [.hostWrite 8 12#32] ++
        List.replicate 3 .seq) t = .next u ∧ u.seq = .idle ∧ EndsWith 5#32 u ∧
      u.word (s.reg .arg0 + 12#32) = 0x81000000#32

/-- DMA.SWRESET polls, with no hook call, until DMA has cleared SWR: `k` polls that see SWR = 1, then the end; it
clears INIT and touches nothing else of the block (R251, R253). -/
def Obligations.SwresetWaitsForDma : Prop :=
  ∀ (s : State) (k : Nat), s.seq = .idle →
    Completes .dmaSwreset ([.seq, .seq] ++ List.replicate k .seq ++ [.dmaSwrDone, .seq, .seq]) s fun t =>
      EndsWith 0#32 t ∧ t.reg .dmaCtrl = 0#32 ∧ t.reg .init = 0#32 ∧ t.hookAnswers = s.hookAnswers ∧
      KeepsRegsBut ([.dmaCtrl, .init] ++ endRegs) s t ∧ KeepsMemory s t ∧ KeepsOutside s t

/-! ### DMA -/

/-- `DMA: tx-done` happens exactly when the slot lies in the ring the registers name, TX_TAIL_PTR has been written for
its descriptor, and OWN is 1; it clears that bit and changes no other byte of memory, no register and no other
descriptor's grant, and the descriptor is then no longer DMA's to consume (R222). The ring the registers name lies in
the address space, as TX.SETDESC leaves it. -/
def Obligations.TxDoneClearsOwnOnly : Prop :=
  ∀ (s : State) (slot : Word), s.params.wellFormed = true → descAligned s.params (s.reg .txRingBase) = true →
    (s.reg .txRingBase).toNat + s.params.descSpan * ((s.reg .txRingLen).toNat + 1) < 2 ^ s.params.addrW →
    let d := s.reg .txRingBase + BitVec.ofNat 32 s.params.descSpan * slot
    let w3 := s.word (d + 12#32)
    let enabled := slot.toNat < (s.reg .txRingLen).toNat + 1 ∧ s.isGrantedTx (d + 12#32) = true ∧ own w3 = true
    (¬ enabled → dmaTxDone slot s = .refused .notEnabled) ∧
    (enabled → ∃ t, dmaTxDone slot s = .next t ∧ t.word (d + 12#32) = w3 &&& 0x7FFFFFFF#32 ∧
      KeepsMemoryBut (d + 12#32).toNat 4 s t ∧ KeepsRegsBut [] s t ∧ t.seq = s.seq ∧ KeepsOutside s t ∧
      t.isGrantedTx (d + 12#32) = false ∧ KeepsGrantsBut [d + 12#32] s t)

/-- `DMA: rx-frame n` happens exactly when n is at most 16383, RX_TAIL_PTR has been written for the descriptor that
RX_RING_BASE names, and OWN is 1; in one atomic step it puts n in bits [29:16] of word 2, clears OWN in word 3, may set
bit 24, and changes no other byte of memory and no register; the slot is then no longer DMA's to fill, and of every
descriptor whose word 3 is neither word written DMA may consume or fill what it might before (R241; log entry 11). That
the frame's bytes are not moved is the model's (log entry 12). -/
def Obligations.RxFrameWritesLengthAndOwn : Prop :=
  ∀ (s : State) (n : Nat) (bufv : Bool), s.params.wellFormed = true → SlotGeometry s.params (s.reg .rxRingBase) →
    let d := s.reg .rxRingBase
    let w3 := s.word (d + 12#32)
    let enabled := n ≤ 16383 ∧ s.isGrantedRx (d + 12#32) = true ∧ own w3 = true
    (¬ enabled → dmaRxFrame n bufv s = .refused .notEnabled) ∧
    (enabled → ∃ t, dmaRxFrame n bufv s = .next t ∧
      t.word (d + 8#32) = (s.word (d + 8#32) &&& 0xC000FFFF#32) ||| (BitVec.ofNat 32 n <<< 16) ∧
      t.word (d + 12#32) = (w3 &&& 0x7FFFFFFF#32) ||| (if bufv then 1#32 <<< 24 else 0#32) ∧
      KeepsMemoryBut (d + 8#32).toNat 8 s t ∧ KeepsRegsBut [] s t ∧ t.seq = s.seq ∧ KeepsOutside s t ∧
      t.isGrantedRx (d + 12#32) = false ∧ KeepsGrantsBut [d + 8#32, d + 12#32] s t)

/-- `DMA: swr-done` happens exactly when SWR is 1; it clears SWR, writes no memory, and DMA forgets every tail pointer
write: no tx-done and no rx-frame is enabled after it (R252). -/
def Obligations.SwrDoneForgetsTailPointers : Prop :=
  ∀ s : State, (s.swr = false → dmaSwrDone s = .refused .notEnabled) ∧
    (s.swr = true → ∃ t, dmaSwrDone s = .next t ∧ t.swr = false ∧ t.mem = s.mem ∧ KeepsRegsBut [.dmaCtrl] s t ∧
      t.seq = s.seq ∧ KeepsOutside s t ∧
      (∀ slot, dmaTxDone slot t = .refused .notEnabled) ∧ ∀ n b, dmaRxFrame n b t = .refused .notEnabled)

/-! ### How operations end, and what they leave unchanged -/

/-- A raise writes the code in STATUS, the hook's code in ERRINFO where there is one, and SEQ = IDLE, and undoes
nothing; RES0, RES1 and else ERRINFO hold no value then (R267, R268; log entry 6). -/
def Obligations.RaiseEndsTheOperation : Prop :=
  ∀ (s : State) (i : Instr) (k : Raise), s.seq = .ending i (.raise k) → i.format = .opw →
    ∃ t, exec i s = .next t ∧ t.seq = .idle ∧
      t.reg .status = (match k with
        | .hookFail _ => 1#32 | .notFound => 2#32 | .slotBusy => 3#32 | .ringFull => 4#32 | .notReady => 5#32) ∧
      (∀ e, k = .hookFail e → t.reg .errinfo = e) ∧ KeepsRegsBut endRegs s t ∧ t.mem = s.mem ∧ KeepsOutside s t ∧
      KeepsGrants s t

/-- A return writes STATUS = OK, the result registers the operation lists, and SEQ = IDLE (R269). -/
def Obligations.ReturnWritesResults : Prop :=
  ∀ (s : State) (i : Instr) (x y : Option Word), s.seq = .ending i (.ret x y) → i.format = .opw →
    ∃ t, exec i s = .next t ∧ t.seq = .idle ∧ t.reg .status = 0#32 ∧ (∀ v ∈ x, t.reg .res0 = v) ∧
      (∀ v ∈ y, t.reg .res1 = v) ∧ KeepsRegsBut endRegs s t ∧ t.mem = s.mem ∧ KeepsOutside s t ∧ KeepsGrants s t

/-- The frame of the registers: a step of an instruction writes no register but those R21 says it writes, and the end's
registers only when it ends (R21, R41, R170). -/
def Obligations.RegisterFrame : Prop :=
  ∀ (i : Instr) (s t : State), TransactionInv s → exec i s = .next t → KeepsRegsBut (writtenBy i s) s t

/-- The frame of memory: a step of an instruction changes no byte of system memory but those of the one word it stores,
if it stores one; which word that is follows from where SEQ stands (R72, R81). -/
def Obligations.MemoryFrame : Prop :=
  ∀ (i : Instr) (s t : State), exec i s = .next t →
    (∀ a, storeAddress s = some a → KeepsMemoryBut a.toNat 4 s t) ∧
    (storeAddress s = none → KeepsMemory s t)

/-- The frame of everything around: no instruction changes the parameters, PRESENT or the agenda; only a completed
write changes the PHY register view; only TX.PUT, RX.ARM and RX.REARM change what DMA may consume or fill, and none of
them gives DMA a descriptor but by its tail pointer write for it; a command word leaves SEQ where it is (R3, R170, R222,
R241). -/
def Obligations.OutsideFrame : Prop :=
  ∀ (i : Instr) (s t : State), exec i s = .next t →
    t.params = s.params ∧ t.present = s.present ∧ t.agenda = s.agenda ∧
    ((∀ p r, i ≠ .cmdwWrite p r) → t.phyRegs = s.phyRegs) ∧
    (i ≠ .txPut → i ≠ .rxArm → i ≠ .rxRearm → KeepsGrants s t) ∧
    (∀ a, t.isGrantedTx a = true → s.isGrantedTx a = true ∨ (i = .txPut ∧ txHandOver s = some a)) ∧
    (∀ a, t.isGrantedRx a = true →
      s.isGrantedRx a = true ∨ ((i = .rxArm ∨ i = .rxRearm) ∧ rxHandOver s = some a)) ∧
    (i.format = .cmdw → t.seq = s.seq)

/-! ### Invariants every step keeps -/

/-- Memory, the PHY register view and DMA's position stay in their canonical form. -/
def Obligations.CanonicalFormsAreKept : Prop := ∀ s t : State, CanonicalInv s → step s = .next t → CanonicalInv t

/-- The registers keep their formats: STATUS is one of the codes 0 to 5, reserved bits stay 0 (R107, R108; MDIO_CMD: R22,
R102; OPW: R30; MDIO_DATA: R23). Across a reset of the block the bounds on OPW and MDIO_DATA rest on the model's reset values (DESIGN
CHOICE, log entry 4), and the bound on CFG on log entry 15. -/
def Obligations.RegisterFormatsAreKept : Prop :=
  ∀ s t : State, RegisterFormatInv s → step s = .next t → RegisterFormatInv t

/-- The TX ring's relations hold after every step of every agent, a ring of more than one slot is never
over-committed, and a descriptor whose OWN is set but whose tail pointer is not yet written is not DMA's to consume
(R50, R211, R213, R222, R223). -/
def Obligations.TxRingInvariantIsKept : Prop := ∀ s t : State, TxRingInv s → step s = .next t → TxRingInv t

/-- The RX slot's relations hold after every step of every agent, and a slot whose OWN is set but whose tail pointer is
not yet written is not DMA's to fill (R50, R231, R241). -/
def Obligations.RxSlotInvariantIsKept : Prop := ∀ s t : State, RxSlotInv s → step s = .next t → RxSlotInv t

/-- SWR is 1 only while DMA.SWRESET waits for it, so never when an operation starts (R251). -/
def Obligations.SwrInvariantIsKept : Prop := ∀ s t : State, SwrInv s → step s = .next t → SwrInv t

/-- Every PHY address SEQ holds or has stored as valid is 0..62, and every transaction has its own operation code
(R112). -/
def Obligations.TransactionInvariantIsKept : Prop :=
  ∀ s t : State, TransactionInv s → step s = .next t → TransactionInv t

/-- SEQ's next step is always enabled: in a state that meets the invariants SEQ's turn answers a next state, but for
the two refusals R271 names inside a running operation, a command write while BUSY and a re-arm of a descriptor DMA owns
(R271, R320). -/
def Obligations.SequencerStepsOrIsRefused : Prop :=
  ∀ s : State, TxRingInv s → RxSlotInv s → TransactionInv s →
    (∃ t, seqTurn s = .next t) ∨ (seqTurn s = .refused .commandWhileBusy ∧ s.busy = true) ∨
    (seqTurn s = .refused .descriptorDmaOwned ∧ ∃ d, s.seq = .rxRearm (.readOwn d))
end

