-- ==== Sys2Proof/Laws/State.lean ====
section
/-! SUPPORT. What each named update leaves of each field of State: one small lemma per field and update. -/

namespace Sys2Proof.Machine

/-! ### `setReg` -/
@[simp] theorem State.seq_setReg (s : State) (r : Reg) (v : Word) : (s.setReg r v).seq = s.seq := rfl
@[simp] theorem State.mem_setReg (s : State) (r : Reg) (v : Word) : (s.setReg r v).mem = s.mem := rfl
@[simp] theorem State.present_setReg (s : State) (r : Reg) (v : Word) : (s.setReg r v).present = s.present := rfl
@[simp] theorem State.phyRegs_setReg (s : State) (r : Reg) (v : Word) : (s.setReg r v).phyRegs = s.phyRegs := rfl
@[simp] theorem State.txGranted_setReg (s : State) (r : Reg) (v : Word) : (s.setReg r v).txGranted = s.txGranted := rfl
@[simp] theorem State.rxGranted_setReg (s : State) (r : Reg) (v : Word) : (s.setReg r v).rxGranted = s.rxGranted := rfl
@[simp] theorem State.hookAnswers_setReg (s : State) (r : Reg) (v : Word) : (s.setReg r v).hookAnswers = s.hookAnswers := rfl
@[simp] theorem State.agenda_setReg (s : State) (r : Reg) (v : Word) : (s.setReg r v).agenda = s.agenda := rfl
@[simp] theorem State.draws_setReg (s : State) (r : Reg) (v : Word) : (s.setReg r v).draws = s.draws := rfl
@[simp] theorem State.params_setReg (s : State) (r : Reg) (v : Word) : (s.setReg r v).params = s.params := rfl

/-! ### `goto` -/
@[simp] theorem State.mem_goto (s : State) (q : Seq) : (s.goto q).mem = s.mem := rfl
@[simp] theorem State.present_goto (s : State) (q : Seq) : (s.goto q).present = s.present := rfl
@[simp] theorem State.phyRegs_goto (s : State) (q : Seq) : (s.goto q).phyRegs = s.phyRegs := rfl
@[simp] theorem State.txGranted_goto (s : State) (q : Seq) : (s.goto q).txGranted = s.txGranted := rfl
@[simp] theorem State.rxGranted_goto (s : State) (q : Seq) : (s.goto q).rxGranted = s.rxGranted := rfl
@[simp] theorem State.hookAnswers_goto (s : State) (q : Seq) : (s.goto q).hookAnswers = s.hookAnswers := rfl
@[simp] theorem State.agenda_goto (s : State) (q : Seq) : (s.goto q).agenda = s.agenda := rfl
@[simp] theorem State.draws_goto (s : State) (q : Seq) : (s.goto q).draws = s.draws := rfl
@[simp] theorem State.params_goto (s : State) (q : Seq) : (s.goto q).params = s.params := rfl
@[simp] theorem State.reg_goto (s : State) (q : Seq) (r : Reg) : (s.goto q).reg r = s.reg r := rfl

/-! ### `setWord` -/
@[simp] theorem State.seq_setWord (s : State) (a v : Word) : (s.setWord a v).seq = s.seq := rfl
@[simp] theorem State.present_setWord (s : State) (a v : Word) : (s.setWord a v).present = s.present := rfl
@[simp] theorem State.phyRegs_setWord (s : State) (a v : Word) : (s.setWord a v).phyRegs = s.phyRegs := rfl
@[simp] theorem State.txGranted_setWord (s : State) (a v : Word) :
    (s.setWord a v).txGranted = Grants.erase a.toNat s.txGranted := rfl
@[simp] theorem State.rxGranted_setWord (s : State) (a v : Word) :
    (s.setWord a v).rxGranted = Grants.erase a.toNat s.rxGranted := rfl
@[simp] theorem State.hookAnswers_setWord (s : State) (a v : Word) : (s.setWord a v).hookAnswers = s.hookAnswers := rfl
@[simp] theorem State.agenda_setWord (s : State) (a v : Word) : (s.setWord a v).agenda = s.agenda := rfl
@[simp] theorem State.draws_setWord (s : State) (a v : Word) : (s.setWord a v).draws = s.draws := rfl
@[simp] theorem State.params_setWord (s : State) (a v : Word) : (s.setWord a v).params = s.params := rfl
@[simp] theorem State.reg_setWord (s : State) (a v : Word) (r : Reg) : (s.setWord a v).reg r = s.reg r := rfl

/-! ### `grantTx` -/
@[simp] theorem State.seq_grantTx (s : State) (a : Word) : (s.grantTx a).seq = s.seq := rfl
@[simp] theorem State.mem_grantTx (s : State) (a : Word) : (s.grantTx a).mem = s.mem := rfl
@[simp] theorem State.present_grantTx (s : State) (a : Word) : (s.grantTx a).present = s.present := rfl
@[simp] theorem State.phyRegs_grantTx (s : State) (a : Word) : (s.grantTx a).phyRegs = s.phyRegs := rfl
@[simp] theorem State.rxGranted_grantTx (s : State) (a : Word) : (s.grantTx a).rxGranted = s.rxGranted := rfl
@[simp] theorem State.hookAnswers_grantTx (s : State) (a : Word) : (s.grantTx a).hookAnswers = s.hookAnswers := rfl
@[simp] theorem State.agenda_grantTx (s : State) (a : Word) : (s.grantTx a).agenda = s.agenda := rfl
@[simp] theorem State.draws_grantTx (s : State) (a : Word) : (s.grantTx a).draws = s.draws := rfl
@[simp] theorem State.params_grantTx (s : State) (a : Word) : (s.grantTx a).params = s.params := rfl
@[simp] theorem State.reg_grantTx (s : State) (a : Word) (r : Reg) : (s.grantTx a).reg r = s.reg r := rfl

/-! ### `grantRx` -/
@[simp] theorem State.seq_grantRx (s : State) (a : Word) : (s.grantRx a).seq = s.seq := rfl
@[simp] theorem State.mem_grantRx (s : State) (a : Word) : (s.grantRx a).mem = s.mem := rfl
@[simp] theorem State.present_grantRx (s : State) (a : Word) : (s.grantRx a).present = s.present := rfl
@[simp] theorem State.phyRegs_grantRx (s : State) (a : Word) : (s.grantRx a).phyRegs = s.phyRegs := rfl
@[simp] theorem State.txGranted_grantRx (s : State) (a : Word) : (s.grantRx a).txGranted = s.txGranted := rfl
@[simp] theorem State.hookAnswers_grantRx (s : State) (a : Word) : (s.grantRx a).hookAnswers = s.hookAnswers := rfl
@[simp] theorem State.agenda_grantRx (s : State) (a : Word) : (s.grantRx a).agenda = s.agenda := rfl
@[simp] theorem State.draws_grantRx (s : State) (a : Word) : (s.grantRx a).draws = s.draws := rfl
@[simp] theorem State.params_grantRx (s : State) (a : Word) : (s.grantRx a).params = s.params := rfl
@[simp] theorem State.reg_grantRx (s : State) (a : Word) (r : Reg) : (s.grantRx a).reg r = s.reg r := rfl

/-! ### `forgetGrants` -/
@[simp] theorem State.seq_forgetGrants (s : State) : (s.forgetGrants).seq = s.seq := rfl
@[simp] theorem State.mem_forgetGrants (s : State) : (s.forgetGrants).mem = s.mem := rfl
@[simp] theorem State.present_forgetGrants (s : State) : (s.forgetGrants).present = s.present := rfl
@[simp] theorem State.phyRegs_forgetGrants (s : State) : (s.forgetGrants).phyRegs = s.phyRegs := rfl
@[simp] theorem State.hookAnswers_forgetGrants (s : State) : (s.forgetGrants).hookAnswers = s.hookAnswers := rfl
@[simp] theorem State.agenda_forgetGrants (s : State) : (s.forgetGrants).agenda = s.agenda := rfl
@[simp] theorem State.draws_forgetGrants (s : State) : (s.forgetGrants).draws = s.draws := rfl
@[simp] theorem State.params_forgetGrants (s : State) : (s.forgetGrants).params = s.params := rfl
@[simp] theorem State.reg_forgetGrants (s : State) (r : Reg) : (s.forgetGrants).reg r = s.reg r := rfl

/-! ### `endOperation` -/
@[simp] theorem State.mem_endOperation (s : State) (c : Word) (x y z : Option Word) : (s.endOperation c x y z).mem = s.mem := rfl
@[simp] theorem State.present_endOperation (s : State) (c : Word) (x y z : Option Word) : (s.endOperation c x y z).present = s.present := rfl
@[simp] theorem State.phyRegs_endOperation (s : State) (c : Word) (x y z : Option Word) : (s.endOperation c x y z).phyRegs = s.phyRegs := rfl
@[simp] theorem State.txGranted_endOperation (s : State) (c : Word) (x y z : Option Word) : (s.endOperation c x y z).txGranted = s.txGranted := rfl
@[simp] theorem State.rxGranted_endOperation (s : State) (c : Word) (x y z : Option Word) : (s.endOperation c x y z).rxGranted = s.rxGranted := rfl
@[simp] theorem State.hookAnswers_endOperation (s : State) (c : Word) (x y z : Option Word) : (s.endOperation c x y z).hookAnswers = s.hookAnswers := rfl
@[simp] theorem State.agenda_endOperation (s : State) (c : Word) (x y z : Option Word) : (s.endOperation c x y z).agenda = s.agenda := rfl
@[simp] theorem State.params_endOperation (s : State) (c : Word) (x y z : Option Word) : (s.endOperation c x y z).params = s.params := rfl

@[simp] theorem State.seq_goto (s : State) (q : Seq) : (s.goto q).seq = q := rfl
@[simp] theorem State.mem_setWord (s : State) (a v : Word) : (s.setWord a v).mem = s.mem.writeWord a.toNat v := rfl
@[simp] theorem State.txGranted_grantTx (s : State) (a : Word) :
    (s.grantTx a).txGranted = Grants.insert a.toNat s.txGranted := rfl
@[simp] theorem State.rxGranted_grantRx (s : State) (a : Word) :
    (s.grantRx a).rxGranted = Grants.insert a.toNat s.rxGranted := rfl
@[simp] theorem State.txGranted_forgetGrants (s : State) : s.forgetGrants.txGranted = [] := rfl
@[simp] theorem State.rxGranted_forgetGrants (s : State) : s.forgetGrants.rxGranted = [] := rfl
@[simp] theorem State.seq_endOperation (s : State) (c : Word) (x y z : Option Word) :
    (s.endOperation c x y z).seq = .idle := rfl
@[simp] theorem State.draws_endOperation (s : State) (c : Word) (x y z : Option Word) :
    (s.endOperation c x y z).draws = s.draws + 3 := rfl

/-! ### DMA's position (R222, R241) -/

theorem Grants.mem_insert (a b : Nat) (l : List Nat) : b ∈ Grants.insert a l ↔ b = a ∨ b ∈ l := by
  induction l with
  | nil => simp [Grants.insert]
  | cons c l ih => grind [Grants.insert]

theorem Grants.mem_erase (a b : Nat) (l : List Nat) : b ∈ Grants.erase a l ↔ b ∈ l ∧ b ≠ a := by
  simp [Grants.erase]

theorem State.isGrantedTx_iff (s : State) (a : Word) : s.isGrantedTx a = true ↔ a.toNat ∈ s.txGranted := by
  simp [State.isGrantedTx]

theorem State.isGrantedTx_congr {s t : State} (h : t.txGranted = s.txGranted) (a : Word) :
    t.isGrantedTx a = s.isGrantedTx a := by
  rw [State.isGrantedTx, State.isGrantedTx, h]

/-- A word write ends the grants of that word and of no other. -/
@[simp] theorem State.isGrantedTx_setWord (s : State) (a b v : Word) :
    (s.setWord a v).isGrantedTx b = (decide (b ≠ a) && s.isGrantedTx b) := by
  rw [Bool.eq_iff_iff, Bool.and_eq_true, decide_eq_true_eq, State.isGrantedTx_iff, State.isGrantedTx_iff,
    State.txGranted_setWord, Grants.mem_erase, Ne, BitVec.toNat_inj]
  exact and_comm

theorem State.isGrantedRx_iff (s : State) (a : Word) : s.isGrantedRx a = true ↔ a.toNat ∈ s.rxGranted := by
  simp [State.isGrantedRx]

theorem State.isGrantedRx_congr {s t : State} (h : t.rxGranted = s.rxGranted) (a : Word) :
    t.isGrantedRx a = s.isGrantedRx a := by
  rw [State.isGrantedRx, State.isGrantedRx, h]

/-- A word write ends the grants of that word and of no other. -/
@[simp] theorem State.isGrantedRx_setWord (s : State) (a b v : Word) :
    (s.setWord a v).isGrantedRx b = (decide (b ≠ a) && s.isGrantedRx b) := by
  rw [Bool.eq_iff_iff, Bool.and_eq_true, decide_eq_true_eq, State.isGrantedRx_iff, State.isGrantedRx_iff,
    State.rxGranted_setWord, Grants.mem_erase, Ne, BitVec.toNat_inj]
  exact and_comm

/-- A tail pointer write grants one word. -/
@[simp] theorem State.isGrantedTx_grantTx (s : State) (a b : Word) :
    (s.grantTx a).isGrantedTx b = (decide (b = a) || s.isGrantedTx b) := by
  rw [Bool.eq_iff_iff, Bool.or_eq_true, decide_eq_true_eq, State.isGrantedTx_iff, State.isGrantedTx_iff,
    State.txGranted_grantTx, Grants.mem_insert, BitVec.toNat_inj]

@[simp] theorem State.isGrantedTx_grantRx (s : State) (a b : Word) :
    (s.grantRx a).isGrantedTx b = s.isGrantedTx b := rfl
@[simp] theorem State.isGrantedTx_setReg (s : State) (r : Reg) (v : Word) (b : Word) :
    (s.setReg r v).isGrantedTx b = s.isGrantedTx b := rfl
@[simp] theorem State.isGrantedTx_goto (s : State) (q : Seq) (b : Word) :
    (s.goto q).isGrantedTx b = s.isGrantedTx b := rfl
@[simp] theorem State.isGrantedTx_endOperation (s : State) (c : Word) (x y z : Option Word) (b : Word) :
    (s.endOperation c x y z).isGrantedTx b = s.isGrantedTx b := rfl
@[simp] theorem State.isGrantedTx_forgetGrants (s : State) (b : Word) : s.forgetGrants.isGrantedTx b = false := rfl

/-- A tail pointer write grants one word. -/
@[simp] theorem State.isGrantedRx_grantRx (s : State) (a b : Word) :
    (s.grantRx a).isGrantedRx b = (decide (b = a) || s.isGrantedRx b) := by
  rw [Bool.eq_iff_iff, Bool.or_eq_true, decide_eq_true_eq, State.isGrantedRx_iff, State.isGrantedRx_iff,
    State.rxGranted_grantRx, Grants.mem_insert, BitVec.toNat_inj]

@[simp] theorem State.isGrantedRx_grantTx (s : State) (a b : Word) :
    (s.grantTx a).isGrantedRx b = s.isGrantedRx b := rfl
@[simp] theorem State.isGrantedRx_setReg (s : State) (r : Reg) (v : Word) (b : Word) :
    (s.setReg r v).isGrantedRx b = s.isGrantedRx b := rfl
@[simp] theorem State.isGrantedRx_goto (s : State) (q : Seq) (b : Word) :
    (s.goto q).isGrantedRx b = s.isGrantedRx b := rfl
@[simp] theorem State.isGrantedRx_endOperation (s : State) (c : Word) (x y z : Option Word) (b : Word) :
    (s.endOperation c x y z).isGrantedRx b = s.isGrantedRx b := rfl
@[simp] theorem State.isGrantedRx_forgetGrants (s : State) (b : Word) : s.forgetGrants.isGrantedRx b = false := rfl

/-! ### Registers read after a write -/

theorem Regs.get_set (rs : Regs) (r r' : Reg) (v : Word) :
    (rs.set r v).get r' = if r' = r then v else rs.get r' := by
  cases r <;> cases r' <;> rfl

/-- A register reads the value written to it, every other register as before. -/
@[simp] theorem State.reg_setReg (s : State) (r r' : Reg) (v : Word) :
    (s.setReg r v).reg r' = if r' = r then v else s.reg r' := Regs.get_set s.regs r r' v

/-- The step that ends an operation writes STATUS, RES0, RES1 and ERRINFO and no other register (R267, R269). -/
@[simp] theorem State.reg_endOperation (s : State) (c : Word) (x y z : Option Word) (r : Reg) :
    (s.endOperation c x y z).reg r =
      if r = .errinfo then z.getD (Config.freeWord (s.draws + 2))
      else if r = .res1 then y.getD (Config.freeWord (s.draws + 1))
      else if r = .res0 then x.getD (Config.freeWord s.draws)
      else if r = .status then c
      else s.reg r := by
  simp only [State.reg, State.endOperation, Regs.get_set]

/-- The number of a register names it (R21). -/
theorem Reg.ofNumber_number (r : Reg) : Reg.ofNumber r.number = some r := by
  cases r <;> rfl

/-! ### The PHY register view and the hook -/

@[simp] theorem State.reg_phyWrite (s : State) (p : PhyAddr) (a : RegAddr) (v : Data16) (r : Reg) :
    (s.phyWrite p a v).reg r = s.reg r := by
  unfold State.phyWrite; split <;> rfl

@[simp] theorem State.reg_phyRead (s : State) (p : PhyAddr) (a : RegAddr) (r : Reg) :
    (s.phyRead p a).2.reg r = s.reg r := by
  unfold State.phyRead; repeat' split
  all_goals rfl

@[simp] theorem State.reg_callHook (s : State) (r : Reg) : s.callHook.2.reg r = s.reg r := by
  unfold State.callHook; split <;> rfl

/-- A PHY read changes nothing but the count of free values drawn. -/
theorem State.phyRead_state (s : State) (p : PhyAddr) (a : RegAddr) :
    (s.phyRead p a).2 = s ∨ (s.phyRead p a).2 = { s with draws := s.draws + 1 } := by
  unfold State.phyRead; repeat' split
  all_goals simp

/-- A hook call changes nothing but the listed answers and the count of free values drawn. -/
theorem State.callHook_state (s : State) :
    (∃ a rest, s.hookAnswers = a :: rest ∧ s.callHook = (a, { s with hookAnswers := rest })) ∨
    (s.hookAnswers = [] ∧ s.callHook = (Config.freeHook s.draws, { s with draws := s.draws + 1 })) := by
  unfold State.callHook; split <;> simp_all

/-- A PHY write changes nothing but the view. -/
theorem State.phyWrite_state (s : State) (p : PhyAddr) (a : RegAddr) (v : Data16) :
    s.phyWrite p a v = s ∨
    (s.isPresent p = true ∧ s.phyWrite p a v = { s with phyRegs := Assoc.insert (phyKey p a) v s.phyRegs }) := by
  unfold State.phyWrite; split <;> simp_all

end Sys2Proof.Machine
end

