-- ==== Sys2Proof/Laws/Mdio.lean ====
section
/-! SUPPORT. Everything one step of a transaction can do (R142, R143, R146), said once, and everything the last step
of an operation can do (R267, R269). -/

namespace Sys2Proof.Machine

/-- The tests before a command or data write pass exactly when the address is in range and BUSY is 0 (R144, R149). -/
theorem mdioRefusal_eq_none {p : PhyAddr} {s : State} :
    mdioRefusal p s = none ↔ p.toNat ≤ Config.phyAddrMax ∧ s.busy = false := by
  unfold mdioRefusal
  split
  · simp; omega
  · split <;> simp_all

/-- A start that is not refused found BUSY = 0 (R312). -/
theorem unlessBusy_next {s t : State} {k : Result} (h : unlessBusy s k = .next t) :
    s.busy = false ∧ k = .next t := by
  unfold unlessBusy at h
  split at h
  · cases h
  · exact ⟨by simpa using ‹¬ s.busy = true›, h⟩

/-- A transaction's step that goes on: the data write, the command write, a poll read, the read of CFG or a hook call
that answered ok. -/
theorem mdioStep_more {m m' : MdioPos} {s t : State} (h : mdioStep m s = .more m' t) :
    (∃ p r v, m = .writeData p r v ∧ p.toNat ≤ Config.phyAddrMax ∧ s.busy = false ∧
      m' = .writeCmd p r Config.opWrite ∧ t = s.setReg .mdioData (v.setWidth 32)) ∨
    (∃ p r o, m = .writeCmd p r o ∧ p.toNat ≤ Config.phyAddrMax ∧ s.busy = false ∧
      m' = .poll o ∧ t = s.setReg .mdioCmd (cmdw s.params p r o)) ∨
    (∃ o, m = .poll o ∧ s.busy = true ∧ m' = .cfg o ∧ t = s) ∨
    (∃ o, m = .cfg o ∧ m' = (if s.hookEn then .hook o else .poll o) ∧ t = s) ∨
    (m = .poll Config.opRead ∧ s.busy = false ∧ m' = .readData ∧ t = s) ∨
    (∃ o, m = .hook o ∧ m' = .poll o ∧ s.callHook = (.ok, t)) := by
  cases m with
  | writeData p r v =>
    simp only [mdioStep] at h
    split at h
    · cases h
    · cases h
      exact .inl ⟨p, r, v, rfl, (mdioRefusal_eq_none.1 ‹_›).1, (mdioRefusal_eq_none.1 ‹_›).2, rfl, rfl⟩
  | writeCmd p r o =>
    simp only [mdioStep] at h
    split at h
    · cases h
    · cases h
      exact .inr (.inl ⟨p, r, o, rfl, (mdioRefusal_eq_none.1 ‹_›).1, (mdioRefusal_eq_none.1 ‹_›).2, rfl, rfl⟩)
  | poll o =>
    simp only [mdioStep] at h
    split at h
    · cases h
      exact .inr (.inr (.inl ⟨o, rfl, ‹_›, rfl, rfl⟩))
    · split at h
      · cases h
        subst ‹o = _›
        exact .inr (.inr (.inr (.inr (.inl ⟨rfl, by simpa using ‹¬ s.busy = true›, rfl, rfl⟩))))
      · cases h
  | cfg o =>
    cases h
    exact .inr (.inr (.inr (.inl ⟨o, rfl, rfl, rfl⟩)))
  | hook o =>
    simp only [mdioStep] at h
    split at h
    · cases h
      exact .inr (.inr (.inr (.inr (.inr ⟨o, rfl, rfl, ‹_›⟩))))
    · cases h
  | readData => simp [mdioStep] at h

/-- A transaction ends where a poll finds a write complete, or where a read takes its data (R146, R151); neither
changes the state. -/
theorem mdioStep_done {m : MdioPos} {v : Data16} {s t : State} (h : mdioStep m s = .done v t) :
    t = s ∧ ((∃ o, m = .poll o ∧ o ≠ Config.opRead ∧ s.busy = false ∧ v = 0#16) ∨
      (m = .readData ∧ v = s.data)) := by
  cases m with
  | poll o =>
    simp only [mdioStep] at h
    split at h
    · cases h
    · split at h
      · cases h
      · cases h
        exact ⟨rfl, .inl ⟨o, rfl, ‹_›, by simpa using ‹¬ s.busy = true›, rfl⟩⟩
  | readData => cases h; exact ⟨rfl, .inr ⟨rfl, rfl⟩⟩
  | writeData p r v => simp only [mdioStep] at h; split at h <;> cases h
  | writeCmd p r o => simp only [mdioStep] at h; split at h <;> cases h
  | cfg o => cases h
  | hook o => simp only [mdioStep] at h; split at h <;> cases h

/-- A transaction fails only at a hook call (R261). -/
theorem mdioStep_failed {m : MdioPos} {e : Word} {s t : State} (h : mdioStep m s = .failed e t) :
    ∃ o, m = .hook o ∧ s.callHook = (.fail e, t) := by
  cases m with
  | hook o =>
    simp only [mdioStep] at h
    split at h
    · cases h
    · cases h; exact ⟨o, rfl, ‹_›⟩
  | writeData p r v => simp only [mdioStep] at h; split at h <;> cases h
  | writeCmd p r o => simp only [mdioStep] at h; split at h <;> cases h
  | poll o => simp only [mdioStep] at h; repeat' split at h
              all_goals cases h
  | cfg o => cases h
  | readData => cases h

/-- A transaction's step inside an operation goes to a further position, or hands the value or the failure over. -/
theorem inTransaction_next {m : MdioPos} {s t : State} {at_ : MdioPos → Seq} {done : Data16 → State → Result}
    {failed : Word → State → Result} (h : inTransaction m s at_ done failed = .next t) :
    (∃ m' s', mdioStep m s = .more m' s' ∧ t = s'.goto (at_ m')) ∨
    (∃ v, mdioStep m s = .done v s ∧ done v s = .next t) ∨
    (∃ e s', mdioStep m s = .failed e s' ∧ failed e s' = .next t) := by
  unfold inTransaction at h
  split at h
  · cases h; exact .inl ⟨_, _, ‹_›, rfl⟩
  · obtain ⟨rfl, -⟩ := mdioStep_done ‹_›
    exact .inr (.inl ⟨_, ‹_›, h⟩)
  · exact .inr (.inr ⟨_, _, ‹_›, h⟩)
  · cases h

/-- A `return` or `raise` always answers, with SEQ IDLE (R267, R269). -/
theorem finish_next (e : Ending) (s : State) : ∃ t, finish e s = .next t ∧ t.seq = .idle := by
  cases e with
  | ret res0 res1 => exact ⟨_, rfl, rfl⟩
  | raise k => exact ⟨_, rfl, rfl⟩

/-- What a `return` or `raise` is: the step that ends an operation, with the code of R107. -/
theorem finish_cases {e : Ending} {s t : State} (h : finish e s = .next t) :
    (∃ x y, e = .ret x y ∧ t = s.endOperation 0#32 x y none) ∨
    (∃ k, e = .raise k ∧ t = s.endOperation k.code none none k.info) := by
  cases e with
  | ret x y => cases h; exact .inl ⟨x, y, rfl, rfl⟩
  | raise k => cases h; exact .inr ⟨k, rfl, rfl⟩

/-- The codes of a raise are 1 to 5 (R107). -/
theorem Raise.code_bounds (k : Raise) : 1 ≤ k.code.toNat ∧ k.code.toNat ≤ 5 := by
  cases k <;> simp [Raise.code]

end Sys2Proof.Machine
end

