-- ==== Sys2Proof/Laws/Memory.lean ====
section
/-! SUPPORT. The laws of the canonical lists and of system memory: a read after a write, everything else unchanged,
and the canonical form kept by every operation. -/

namespace Sys2Proof.Machine

variable {α : Type}

/-! ### Lookup after an update -/

@[simp] theorem Assoc.lookup_insert (k k' : Nat) (v : α) (l : List (Nat × α)) :
    Assoc.lookup k' (Assoc.insert k v l) = if k' = k then some v else Assoc.lookup k' l := by
  induction l with
  | nil => simp [Assoc.insert, Assoc.lookup, eq_comm]
  | cons c l ih => grind [Assoc.insert, Assoc.lookup]

@[simp] theorem Assoc.lookup_erase (k k' : Nat) (l : List (Nat × α)) :
    Assoc.lookup k' (Assoc.erase k l) = if k' = k then none else Assoc.lookup k' l := by
  induction l with
  | nil => simp [Assoc.erase, Assoc.lookup]
  | cons c l ih => grind [Assoc.erase, Assoc.lookup]

/-! ### The keys keep rising -/

theorem Assoc.risingFrom_mono {lo lo' : Nat} {l : List (Nat × α)} (h : lo' ≤ lo)
    (hr : Assoc.risingFrom lo l = true) : Assoc.risingFrom lo' l = true := by
  cases l with
  | nil => rfl
  | cons c l => grind [Assoc.risingFrom]

theorem Assoc.rising_of_risingFrom {lo : Nat} {l : List (Nat × α)} (h : Assoc.risingFrom lo l = true) :
    Assoc.rising l = true := by
  cases l with
  | nil => rfl
  | cons c l => grind [Assoc.risingFrom, Assoc.rising]

theorem Assoc.risingFrom_insert {lo k : Nat} (v : α) {l : List (Nat × α)} (hk : lo < k)
    (h : Assoc.risingFrom lo l = true) : Assoc.risingFrom lo (Assoc.insert k v l) = true := by
  induction l generalizing lo with
  | nil => simp [Assoc.insert, Assoc.risingFrom, hk]
  | cons c l ih => grind [Assoc.insert, Assoc.risingFrom]

theorem Assoc.rising_insert (k : Nat) (v : α) {l : List (Nat × α)} (h : Assoc.rising l = true) :
    Assoc.rising (Assoc.insert k v l) = true := by
  cases l with
  | nil => rfl
  | cons c l => grind [Assoc.insert, Assoc.rising, Assoc.risingFrom, Assoc.risingFrom_insert]

theorem Assoc.risingFrom_erase {lo : Nat} (k : Nat) {l : List (Nat × α)}
    (h : Assoc.risingFrom lo l = true) : Assoc.risingFrom lo (Assoc.erase k l) = true := by
  induction l generalizing lo with
  | nil => rfl
  | cons c l ih =>
    simp only [Assoc.risingFrom, Bool.and_eq_true, decide_eq_true_eq] at h
    unfold Assoc.erase
    split
    · exact ih (Assoc.risingFrom_mono h.1.le h.2)
    · simp [Assoc.risingFrom, h.1, ih h.2]

theorem Assoc.rising_erase (k : Nat) {l : List (Nat × α)} (h : Assoc.rising l = true) :
    Assoc.rising (Assoc.erase k l) = true := by
  cases l with
  | nil => rfl
  | cons c l =>
    simp only [Assoc.rising] at h
    unfold Assoc.erase
    split
    · exact Assoc.rising_of_risingFrom (Assoc.risingFrom_erase k h)
    · exact Assoc.risingFrom_erase k h

theorem Assoc.mem_insert {k : Nat} {v : α} {l : List (Nat × α)} {c : Nat × α}
    (h : c ∈ Assoc.insert k v l) : c = (k, v) ∨ c ∈ l := by
  induction l with
  | nil => simpa [Assoc.insert] using h
  | cons d l ih => grind [Assoc.insert]

theorem Assoc.mem_erase {k : Nat} {l : List (Nat × α)} {c : Nat × α} (h : c ∈ Assoc.erase k l) : c ∈ l := by
  induction l with
  | nil => simp [Assoc.erase] at h
  | cons d l ih => grind [Assoc.erase]

/-! ### Bytes of memory -/

/-- A byte reads the value written to it, every other byte as before. -/
@[simp] theorem Memory.read_write (m : Memory) (a a' : Nat) (b : Byte) :
    (m.write a b).read a' = if a' = a then b else m.read a' := by
  by_cases hb : b = Memory.unlisted <;> by_cases ha : a' = a <;>
    simp [Memory.write, Memory.read, hb, ha]

/-- The canonical form of memory in terms of its cells. -/
theorem Memory.wf_iff (m : Memory) :
    m.wf = true ↔ Assoc.rising m = true ∧ ∀ c ∈ m, c.1 < 2 ^ 32 ∧ c.2 ≠ Memory.unlisted := by
  simp [Memory.wf]

/-- A byte write below 2^32 keeps memory canonical. -/
theorem Memory.wf_write {m : Memory} {a : Nat} (b : Byte) (ha : a < 2 ^ 32) (h : m.wf = true) :
    (m.write a b).wf = true := by
  rw [Memory.wf_iff] at h ⊢
  unfold Memory.write
  split
  · exact ⟨Assoc.rising_erase a h.1, fun c hc => h.2 c (Assoc.mem_erase hc)⟩
  · refine ⟨Assoc.rising_insert a b h.1, fun c hc => ?_⟩
    rcases Assoc.mem_insert hc with rfl | hc
    · exact ⟨ha, ‹_›⟩
    · exact h.2 c hc

/-! ### Words of memory -/

theorem field_bytes (v : Word) :
    (field v 24 8 ++ field v 16 8 ++ field v 8 8 ++ field v 0 8 : BitVec (8 + 8 + 8 + 8)) = v := by
  unfold field
  ext i hi
  simp
  grind

/-- A word reads the value written to it (R74, R75). -/
@[simp] theorem Memory.readWord_writeWord (m : Memory) (a : Nat) (v : Word) :
    (m.writeWord a v).readWord a = v := by
  simp only [Memory.readWord, Memory.writeWord, Memory.read_write]
  simpa using field_bytes v

/-- A word write changes no byte outside its four bytes. -/
theorem Memory.read_writeWord_of_outside (m : Memory) {a b : Nat} (v : Word) (h : b < a ∨ a + 4 ≤ b) :
    (m.writeWord a v).read b = m.read b := by
  simp only [Memory.writeWord, Memory.read_write]
  grind

/-- A word write changes no word that shares no byte with it. -/
theorem Memory.readWord_writeWord_of_disjoint (m : Memory) {a b : Nat} (v : Word)
    (h : b + 4 ≤ a ∨ a + 4 ≤ b) : (m.writeWord a v).readWord b = m.readWord b := by
  unfold Memory.readWord
  repeat rw [Memory.read_writeWord_of_outside]
  all_goals omega

/-- A word write that ends below 2^32 keeps memory canonical. -/
theorem Memory.wf_writeWord {m : Memory} {a : Nat} (v : Word) (ha : a + 3 < 2 ^ 32) (h : m.wf = true) :
    (m.writeWord a v).wf = true := by
  unfold Memory.writeWord
  refine Memory.wf_write _ ha (Memory.wf_write _ (by omega) (Memory.wf_write _ (by omega) ?_))
  exact Memory.wf_write _ (by omega) h

/-! ### Aligned addresses -/

theorem aligned_iff (a : Word) : aligned a = true ↔ a.toNat % 4 = 0 := by
  simp only [aligned, beq_iff_eq]
  rw [← BitVec.toNat_inj, BitVec.toNat_and]
  exact (congrArg (· = 0) (Nat.and_two_pow_sub_one_eq_mod a.toNat 2)).to_iff

/-- An aligned word ends below 2^32 (R74). -/
theorem aligned_lt {a : Word} (h : aligned a = true) : a.toNat + 3 < 2 ^ 32 := by
  have := (aligned_iff a).1 h
  omega

/-- An accessible address is a multiple of 4 whose word lies in the address space (R74). -/
theorem accessible_iff {P : Config.Params} {a : Word} :
    accessible P a = true ↔ a.toNat % 4 = 0 ∧ a.toNat + 3 < 2 ^ P.addrW := by
  simp [accessible, aligned_iff]

theorem accessible_lt {P : Config.Params} {a : Word} (h : accessible P a = true) : a.toNat + 3 < 2 ^ 32 := by
  have := (accessible_iff.1 h).1
  omega

/-- What `MemRead` can do (R74): the address is accessible and the continuation gets its word, or it is refused. -/
theorem State.memRead_next {s : State} {a : Word} {k : Word → Result} {t : State}
    (h : s.memRead a k = .next t) : accessible s.params a = true ∧ k (s.word a) = .next t := by
  unfold State.memRead at h
  split at h
  · exact ⟨‹_›, h⟩
  · cases h

/-- What `MemWrite` can do (R74). -/
theorem State.memWrite_next {s : State} {a v : Word} {k : State → Result} {t : State}
    (h : s.memWrite a v k = .next t) : accessible s.params a = true ∧ k (s.setWord a v) = .next t := by
  unfold State.memWrite at h
  split at h
  · exact ⟨‹_›, h⟩
  · cases h

theorem State.memRead_of_accessible {s : State} {a : Word} (h : accessible s.params a = true) (k : Word → Result) :
    s.memRead a k = k (s.word a) := if_pos h

theorem State.memWrite_of_accessible {s : State} {a : Word} (h : accessible s.params a = true) (v : Word)
    (k : State → Result) : s.memWrite a v k = k (s.setWord a v) := if_pos h

/-- A word write of the state keeps memory canonical. -/
theorem State.wf_setWord {s : State} {a : Word} (v : Word) (ha : accessible s.params a = true)
    (h : s.mem.wf = true) : (s.setWord a v).mem.wf = true := Memory.wf_writeWord v (accessible_lt ha) h

@[simp] theorem State.word_setWord (s : State) (a v : Word) : (s.setWord a v).word a = v :=
  Memory.readWord_writeWord s.mem a.toNat v

/-- The other words of memory read as before. -/
theorem State.word_setWord_of_disjoint (s : State) {a b : Word} (v : Word)
    (h : b.toNat + 4 ≤ a.toNat ∨ a.toNat + 4 ≤ b.toNat) : (s.setWord a v).word b = s.word b :=
  Memory.readWord_writeWord_of_disjoint s.mem v h

end Sys2Proof.Machine
end

