-- ==== Sys2Proof/Laws/Exec.lean ====
section
/-! SUPPORT. Everything the meaning of each instruction can do when it answers a next state, said once for each: where
SEQ stood, and the state it leads to. -/

namespace Sys2Proof.Machine

@[simp] theorem next_eq_next {s t : State} : ((Host.Outcome.next s : Result) = .next t) ↔ s = t :=
  ⟨fun h => by injection h, fun h => by rw [h]⟩

@[simp] theorem refused_ne_next {r : Refusal} {t : State} : ((Host.Outcome.refused r : Result) = .next t) ↔ False :=
  ⟨fun h => (by cases h), False.elim⟩

/-- The state after a hook call. -/
def State.hooked (s : State) (rest : List Config.HookAnswer) (d : Nat) : State :=
  { s with hookAnswers := rest, draws := d }

@[simp] theorem State.reg_hooked (s : State) (l : List Config.HookAnswer) (d : Nat) (r : Reg) :
    (s.hooked l d).reg r = s.reg r := rfl
@[simp] theorem State.seq_hooked (s : State) (l : List Config.HookAnswer) (d : Nat) : (s.hooked l d).seq = s.seq := rfl
@[simp] theorem State.mem_hooked (s : State) (l : List Config.HookAnswer) (d : Nat) : (s.hooked l d).mem = s.mem := rfl
@[simp] theorem State.params_hooked (s : State) (l : List Config.HookAnswer) (d : Nat) :
    (s.hooked l d).params = s.params := rfl
@[simp] theorem State.present_hooked (s : State) (l : List Config.HookAnswer) (d : Nat) :
    (s.hooked l d).present = s.present := rfl
@[simp] theorem State.phyRegs_hooked (s : State) (l : List Config.HookAnswer) (d : Nat) :
    (s.hooked l d).phyRegs = s.phyRegs := rfl
@[simp] theorem State.agenda_hooked (s : State) (l : List Config.HookAnswer) (d : Nat) :
    (s.hooked l d).agenda = s.agenda := rfl
@[simp] theorem State.txGranted_hooked (s : State) (l : List Config.HookAnswer) (d : Nat) :
    (s.hooked l d).txGranted = s.txGranted := rfl
@[simp] theorem State.rxGranted_hooked (s : State) (l : List Config.HookAnswer) (d : Nat) :
    (s.hooked l d).rxGranted = s.rxGranted := rfl
@[simp] theorem State.isGrantedTx_hooked (s : State) (l : List Config.HookAnswer) (d : Nat) (b : Word) :
    (s.hooked l d).isGrantedTx b = s.isGrantedTx b := rfl
@[simp] theorem State.isGrantedRx_hooked (s : State) (l : List Config.HookAnswer) (d : Nat) (b : Word) :
    (s.hooked l d).isGrantedRx b = s.isGrantedRx b := rfl

/-- A hook call changes nothing but the listed answers and the count of free values. -/
theorem State.callHook_hooked {s t : State} {a : Config.HookAnswer} (h : s.callHook = (a, t)) :
    t = s.hooked t.hookAnswers t.draws := by
  rcases State.callHook_state s with ⟨b, rest, -, hc⟩ | ⟨-, hc⟩ <;> rw [hc] at h <;> injection h with _ h <;>
    subst h <;> rfl

/-- A start answers exactly where BUSY = 0 and the operation goes on (R312). -/
@[simp] theorem unlessBusy_eq_next {s t : State} {k : Result} :
    unlessBusy s k = .next t ↔ s.busy = false ∧ k = .next t :=
  ⟨unlessBusy_next, fun ⟨h, hk⟩ => by simp [unlessBusy, h, hk]⟩

/-- One step of a transaction that answers, by where it stood: the data write, the command write, a poll that saw
BUSY = 1, the read of CFG, a poll that saw a read complete, a hook call that answered ok, its end, or a hook failure. -/
theorem inTransaction_cases {m : MdioPos} {s t : State} {at_ : MdioPos → Seq} {done : Data16 → State → Result}
    {failed : Word → State → Result} (h : inTransaction m s at_ done failed = .next t) :
    (∃ p r v, m = .writeData p r v ∧ p.toNat ≤ Config.phyAddrMax ∧ s.busy = false ∧
      t = (s.setReg .mdioData (v.setWidth 32)).goto (at_ (.writeCmd p r Config.opWrite))) ∨
    (∃ p r o, m = .writeCmd p r o ∧ p.toNat ≤ Config.phyAddrMax ∧ s.busy = false ∧
      t = (s.setReg .mdioCmd (cmdw s.params p r o)).goto (at_ (.poll o))) ∨
    (∃ o, m = .poll o ∧ s.busy = true ∧ t = s.goto (at_ (.cfg o))) ∨
    (∃ o, m = .cfg o ∧ t = s.goto (at_ (if s.hookEn then .hook o else .poll o))) ∨
    (m = .poll Config.opRead ∧ s.busy = false ∧ t = s.goto (at_ .readData)) ∨
    (∃ o l d, m = .hook o ∧ t = (s.hooked l d).goto (at_ (.poll o))) ∨
    (∃ v, ((∃ o, m = .poll o ∧ o ≠ Config.opRead ∧ s.busy = false) ∨ (m = .readData ∧ v = s.data)) ∧
      done v s = .next t) ∨
    (∃ o e l d, m = .hook o ∧ failed e (s.hooked l d) = .next t) := by
  rcases inTransaction_next h with ⟨m', s', h1, rfl⟩ | ⟨v, h1, h2⟩ | ⟨e, s', h1, h2⟩
  · rcases mdioStep_more h1 with ⟨p, r, v, h3, h4, h5, rfl, rfl⟩ | ⟨p, r, v, h3, h4, h5, rfl, rfl⟩ |
      ⟨o, h3, h4, rfl, rfl⟩ | ⟨o, h3, rfl, rfl⟩ | ⟨h3, h4, rfl, rfl⟩ | ⟨o, h3, rfl, hc⟩
    · exact .inl ⟨p, r, v, h3, h4, h5, rfl⟩
    · exact .inr (.inl ⟨p, r, v, h3, h4, h5, rfl⟩)
    · exact .inr (.inr (.inl ⟨o, h3, h4, rfl⟩))
    · exact .inr (.inr (.inr (.inl ⟨o, h3, rfl⟩)))
    · exact .inr (.inr (.inr (.inr (.inl ⟨h3, h4, rfl⟩))))
    · exact .inr (.inr (.inr (.inr (.inr (.inl ⟨o, _, _, h3, by rw [← State.callHook_hooked hc]⟩)))))
  · obtain ⟨-, h3⟩ := mdioStep_done h1
    refine .inr (.inr (.inr (.inr (.inr (.inr (.inl ⟨v, ?_, h2⟩))))))
    rcases h3 with ⟨o, a, b, c, -⟩ | h3
    · exact .inl ⟨o, a, b, c⟩
    · exact .inr h3
  · obtain ⟨o, h3, h4⟩ := mdioStep_failed h1
    refine .inr (.inr (.inr (.inr (.inr (.inr (.inr ⟨o, e, s'.hookAnswers, s'.draws, h3, ?_⟩))))))
    rw [← State.callHook_hooked h4]
    exact h2

/-! ### MTC and PLC -/

theorem execMdioRead_next {s t : State} (h : execMdioRead s = .next t) :
    (s.seq = .idle ∧ phyAddrOk (s.reg .arg0) = true ∧ s.busy = false ∧
      t = s.goto (.mdioRead (readStart (field (s.reg .arg0) 0 6) (field (s.reg .arg1) 0 5)))) ∨
    (∃ m, s.seq = .mdioRead m ∧
      inTransaction m s .mdioRead (fun v => toReturn .mdioRead (some (v.setWidth 32)) none)
        (fun e => toRaise .mdioRead (.hookFail e)) = .next t) ∨
    (∃ e, s.seq = .ending .mdioRead e ∧ finish e s = .next t) := by
  unfold execMdioRead at h
  split at h
  · split at h <;> simp_all
  · exact .inr (.inl ⟨_, ‹_›, h⟩)
  · exact .inr (.inr ⟨_, ‹_›, h⟩)
  · simp at h

theorem execMdioWrite_next {s t : State} (h : execMdioWrite s = .next t) :
    (s.seq = .idle ∧ phyAddrOk (s.reg .arg0) = true ∧ s.busy = false ∧ t = s.goto (.mdioWrite
      (writeStart (field (s.reg .arg0) 0 6) (field (s.reg .arg1) 0 5) (field (s.reg .arg2) 0 16)))) ∨
    (∃ m, s.seq = .mdioWrite m ∧
      inTransaction m s .mdioWrite (fun _ => toReturn .mdioWrite none none)
        (fun e => toRaise .mdioWrite (.hookFail e)) = .next t) ∨
    (∃ e, s.seq = .ending .mdioWrite e ∧ finish e s = .next t) := by
  unfold execMdioWrite at h
  split at h
  · split at h <;> simp_all
  · exact .inr (.inl ⟨_, ‹_›, h⟩)
  · exact .inr (.inr ⟨_, ‹_›, h⟩)
  · simp at h

theorem execPhySetaddr_next {s t : State} (h : execPhySetaddr s = .next t) :
    (s.seq = .idle ∧ phyAddrOk (s.reg .arg0) = true ∧ t = s.goto (.phySetaddr (field (s.reg .arg0) 0 6))) ∨
    (∃ a, s.seq = .phySetaddr a ∧
      t = (s.setReg .phyaddr (phyaddrWord a)).goto (.ending .phySetaddr (.ret none none))) ∨
    (∃ e, s.seq = .ending .phySetaddr e ∧ finish e s = .next t) := by
  unfold execPhySetaddr toReturn at h
  split at h
  · split at h <;> simp_all
  · exact .inr (.inl ⟨_, ‹_›, by simpa using h.symm⟩)
  · exact .inr (.inr ⟨_, ‹_›, h⟩)
  · simp at h

theorem detectSkip_next {a : PhyAddr} {s t : State} (h : detectSkip a s = .next t) :
    (a.toNat < Config.phyAddrMax ∧
      t = s.goto (.phyDetect (a + 1#6) (readStart (a + 1#6) s.params.idIdx))) ∨
    (¬ a.toNat < Config.phyAddrMax ∧ t = s.goto (.ending .phyDetect (.raise .notFound))) := by
  unfold detectSkip toRaise at h
  split at h <;> simp_all

theorem execPhyDetect_next {s t : State} (h : execPhyDetect s = .next t) :
    (s.seq = .idle ∧ s.busy = false ∧ t = s.goto (.phyDetect 0#6 (readStart 0#6 s.params.idIdx))) ∨
    (∃ a m, s.seq = .phyDetect a m ∧
      inTransaction m s (.phyDetect a)
        (fun v s' => if v ≠ Config.noDevice then .next (s'.goto (.phyDetectStore a)) else detectSkip a s')
        (fun _ => detectSkip a) = .next t) ∨
    (∃ a, s.seq = .phyDetectStore a ∧
      t = (s.setReg .phyaddr (phyaddrWord a)).goto (.ending .phyDetect (.ret (some (a.setWidth 32)) none))) ∨
    (∃ e, s.seq = .ending .phyDetect e ∧ finish e s = .next t) := by
  unfold execPhyDetect toReturn at h
  split at h
  · obtain ⟨hb, h⟩ := unlessBusy_next h
    exact .inl ⟨‹_›, hb, by simpa using h.symm⟩
  · exact .inr (.inl ⟨_, _, ‹_›, h⟩)
  · exact .inr (.inr (.inl ⟨_, ‹_›, by simpa using h.symm⟩))
  · exact .inr (.inr (.inr ⟨_, ‹_›, h⟩))
  · simp at h

theorem execPhyReset_next {s t : State} (h : execPhyReset s = .next t) :
    (s.seq = .idle ∧ s.phyValid = true ∧ s.busy = false ∧ t = s.goto .phyResetAddr) ∨
    (s.seq = .phyResetAddr ∧ t = s.goto (.phyResetWrite s.phyAddr
      (writeStart s.phyAddr s.params.bcrIdx (resetValue s.params)))) ∨
    (∃ p m, s.seq = .phyResetWrite p m ∧
      inTransaction m s (.phyResetWrite p) (fun _ => resetPoll p) (fun e => toRaise .phyReset (.hookFail e)) =
        .next t) ∨
    (∃ p m, s.seq = .phyResetRead p m ∧
      inTransaction m s (.phyResetRead p)
        (fun v s' => if resetBit s'.params v then resetNotDone p s' else toReturn .phyReset none none s')
        (fun _ => resetNotDone p) = .next t) ∨
    (∃ p, s.seq = .phyResetCfg p ∧
      t = s.goto (if s.hookEn then .phyResetHook p else .phyResetRead p (readStart p s.params.bcrIdx))) ∨
    (∃ p l d, s.seq = .phyResetHook p ∧
      t = (s.hooked l d).goto (.phyResetRead p (readStart p s.params.bcrIdx))) ∨
    (∃ p e l d, s.seq = .phyResetHook p ∧ t = (s.hooked l d).goto (.ending .phyReset (.raise (.hookFail e)))) ∨
    (∃ e, s.seq = .ending .phyReset e ∧ finish e s = .next t) := by
  unfold execPhyReset toRaise at h
  split at h
  · split at h <;> simp_all
  · exact .inr (.inl ⟨‹_›, by simpa using h.symm⟩)
  · exact .inr (.inr (.inl ⟨_, _, ‹_›, h⟩))
  · exact .inr (.inr (.inr (.inl ⟨_, _, ‹_›, h⟩)))
  · refine .inr (.inr (.inr (.inr (.inl ⟨_, ‹_›, ?_⟩))))
    unfold resetPoll at h
    split at h <;> simp_all
  · split at h
    · rename_i s' hc
      refine .inr (.inr (.inr (.inr (.inr (.inl ⟨_, s'.hookAnswers, s'.draws, ‹_›, ?_⟩)))))
      rw [← State.callHook_hooked hc]
      rw [State.callHook_hooked hc] at h ⊢
      simpa [resetPoll] using h.symm
    · rename_i e s' hc
      refine .inr (.inr (.inr (.inr (.inr (.inr (.inl ⟨_, e, s'.hookAnswers, s'.draws, ‹_›, ?_⟩))))))
      rw [← State.callHook_hooked hc]
      simpa using h.symm
  · exact .inr (.inr (.inr (.inr (.inr (.inr (.inr ⟨_, ‹_›, h⟩))))))
  · simp at h

theorem execPhyLinkstatus_next {s t : State} (h : execPhyLinkstatus s = .next t) :
    (s.seq = .idle ∧ s.phyValid = true ∧ s.busy = false ∧ t = s.goto .phyLinkAddr) ∨
    (s.seq = .phyLinkAddr ∧ t = s.goto (.phyLinkFirst s.phyAddr (readStart s.phyAddr s.params.bsrIdx))) ∨
    (∃ p m, s.seq = .phyLinkFirst p m ∧
      inTransaction m s (.phyLinkFirst p)
        (fun v s' =>
          if linkBit s'.params v then .next (s'.goto (.phyLinkSecond p (readStart p s'.params.lsSecondReg)))
          else toReturn .phyLinkstatus (some (lsw false false 0#2 false)) none s')
        (fun e => toRaise .phyLinkstatus (.hookFail e)) = .next t) ∨
    (∃ p m, s.seq = .phyLinkSecond p m ∧
      inTransaction m s (.phyLinkSecond p)
        (fun v s' => toReturn .phyLinkstatus (some (linkUpStatus s'.params v)) none s')
        (fun e => toRaise .phyLinkstatus (.hookFail e)) = .next t) ∨
    (∃ e, s.seq = .ending .phyLinkstatus e ∧ finish e s = .next t) := by
  unfold execPhyLinkstatus at h
  split at h
  · split at h <;> simp_all
  · exact .inr (.inl ⟨‹_›, by simpa using h.symm⟩)
  · exact .inr (.inr (.inl ⟨_, _, ‹_›, h⟩))
  · exact .inr (.inr (.inr (.inl ⟨_, _, ‹_›, h⟩)))
  · exact .inr (.inr (.inr (.inr ⟨_, ‹_›, h⟩)))
  · simp at h

/-! ### DRM -/

theorem execTxSetdesc_next {s t : State} (h : execTxSetdesc s = .next t) :
    (s.seq = .idle ∧ s.reg .arg1 ≠ 0#32 ∧ descAligned s.params (s.reg .arg0) = true ∧
      fitsBelow s.params (s.reg .arg0) (pow2Floor (s.reg .arg1)) = true ∧
      t = s.goto (.txSetdesc .base (s.reg .arg0) (pow2Floor (s.reg .arg1)))) ∨
    (∃ k base n, s.seq = .txSetdesc k base n ∧ setdescStep k base n s = .next t) ∨
    (∃ e, s.seq = .ending .txSetdesc e ∧ finish e s = .next t) := by
  unfold execTxSetdesc at h
  split at h
  · simp only at h
    repeat' split at h
    all_goals simp_all
  · exact .inr (.inl ⟨_, _, _, ‹_›, h⟩)
  · exact .inr (.inr ⟨_, ‹_›, h⟩)
  · simp at h

theorem putStep_next {k : PutPos} {buf len : Word} {s t : State} (h : putStep k buf len s = .next t) :
    (k = .tail ∧ t = s.goto (.txPut (.mask (s.reg .txTail)) buf len)) ∨
    (∃ tail, k = .mask tail ∧ t = s.goto (.txPut (.base (slotOf tail (s.reg .txMask))) buf len)) ∨
    (∃ slot, k = .base slot ∧
      t = s.goto (.txPut (.readOwn slot (descAddr s.params (s.reg .txBase) slot)) buf len)) ∨
    (∃ slot d, k = .readOwn slot d ∧ own (s.word (descWord s.params d 3)) = true ∧
      t = s.goto (.ending .txPut (.raise .slotBusy))) ∨
    (∃ slot d, k = .readOwn slot d ∧ own (s.word (descWord s.params d 3)) = false ∧
      t = s.goto (.txPut (.capN slot d) buf len)) ∨
    (∃ slot d, k = .capN slot d ∧ 1 < (s.reg .txN).toNat ∧ t = s.goto (.txPut (.capTail slot d) buf len)) ∨
    (∃ slot d, k = .capN slot d ∧ ¬ 1 < (s.reg .txN).toNat ∧ t = s.goto (.txPut (.writeBuf slot d) buf len)) ∨
    (∃ slot d, k = .capTail slot d ∧ t = s.goto (.txPut (.capCur slot d (s.reg .txTail)) buf len)) ∨
    (∃ slot d tail, k = .capCur slot d tail ∧
      t = s.goto (.txPut (.capEq slot d (indexDiff s.params tail (s.reg .txCur))) buf len)) ∨
    (∃ slot d used, k = .capEq slot d used ∧ used = s.reg .txN ∧ t = s.goto (.ending .txPut (.raise .ringFull))) ∨
    (∃ slot d used, k = .capEq slot d used ∧ used ≠ s.reg .txN ∧
      t = s.goto (.txPut (.writeBuf slot d) buf len)) ∨
    (∃ slot d, k = .writeBuf slot d ∧ accessible s.params (descWord s.params d 0) = true ∧
      t = (s.setWord (descWord s.params d 0) buf).goto (.txPut (.writeLen slot d) buf len)) ∨
    (∃ slot d, k = .writeLen slot d ∧ accessible s.params (descWord s.params d 2) = true ∧
      t = (s.setWord (descWord s.params d 2) (txLenWord len)).goto (.txPut (.writeCtl slot d) buf len)) ∨
    (∃ slot d, k = .writeCtl slot d ∧ accessible s.params (descWord s.params d 3) = true ∧
      t = (s.setWord (descWord s.params d 3) txCtl).goto (.txPut (tailPtrStart s.params slot d) buf len)) ∨
    (∃ slot d, k = .ptrN slot d ∧
      t = s.goto (.txPut (.ptrBase slot d (tailWraps s.params (s.reg .txN) slot)) buf len)) ∨
    (∃ slot d wraps, k = .ptrBase slot d wraps ∧
      t = s.goto (.txPut (.writeTailPtr slot d (txTailPtrAfter s.params wraps (s.reg .txBase) slot)) buf len)) ∨
    (∃ slot d ptr, k = .writeTailPtr slot d ptr ∧
      t = ((s.setReg .txTailPtr ptr).grantTx (descWord s.params d 3)).goto (.txPut (.incTail slot d) buf len)) ∨
    (∃ slot d, k = .incTail slot d ∧
      t = s.goto (.txPut (.writeTail slot d (nextIndex s.params (s.reg .txTail))) buf len)) ∨
    (∃ slot d tail, k = .writeTail slot d tail ∧
      t = (s.setReg .txTail tail).goto (.ending .txPut (.ret (some d) (some slot)))) := by
  cases k <;> simp only [putStep, toRaise, toReturn] at h
  case readOwn =>
    obtain ⟨-, h⟩ := State.memRead_next h
    split at h <;> simp_all
  case writeBuf => obtain ⟨ha, h⟩ := State.memWrite_next h; simp_all
  case writeLen => obtain ⟨ha, h⟩ := State.memWrite_next h; simp_all
  case writeCtl => obtain ⟨ha, h⟩ := State.memWrite_next h; simp_all
  case capN => split at h <;> simp_all
  case capEq => split at h <;> simp_all
  case ptrBase slot d wraps => cases wraps <;> simp_all
  all_goals simp_all

theorem execTxPut_next {s t : State} (h : execTxPut s = .next t) :
    (s.seq = .idle ∧ s.txValid = true ∧ lenOk (s.reg .arg1) = true ∧
      t = s.goto (.txPut .tail (s.reg .arg0) (s.reg .arg1))) ∨
    (∃ k buf len, s.seq = .txPut k buf len ∧ putStep k buf len s = .next t) ∨
    (∃ e, s.seq = .ending .txPut e ∧ finish e s = .next t) := by
  unfold execTxPut at h
  split at h
  · repeat' split at h
    all_goals simp_all
  · exact .inr (.inl ⟨_, _, _, ‹_›, h⟩)
  · exact .inr (.inr ⟨_, ‹_›, h⟩)
  · simp at h

theorem updateStep_next {k : UpdatePos} {s t : State} (h : updateStep k s = .next t) :
    (k = .headCur ∧ t = s.goto (.txUpdate (.headTail (s.reg .txCur)))) ∨
    (∃ cur, k = .headTail cur ∧ cur = s.reg .txTail ∧ t = s.goto (.txUpdate .retTail)) ∨
    (∃ cur, k = .headTail cur ∧ cur ≠ s.reg .txTail ∧ t = s.goto (.txUpdate .slotCur)) ∨
    (k = .slotCur ∧ t = s.goto (.txUpdate (.slotMask (s.reg .txCur)))) ∨
    (∃ cur, k = .slotMask cur ∧ t = s.goto (.txUpdate (.base (slotOf cur (s.reg .txMask))))) ∨
    (∃ slot, k = .base slot ∧ t = s.goto (.txUpdate (.readOwn (descAddr s.params (s.reg .txBase) slot)))) ∨
    (∃ d, k = .readOwn d ∧ own (s.word (descWord s.params d 3)) = true ∧ t = s.goto (.txUpdate .retTail)) ∨
    (∃ d, k = .readOwn d ∧ own (s.word (descWord s.params d 3)) = false ∧ t = s.goto (.txUpdate .incCur)) ∨
    (k = .incCur ∧ t = s.goto (.txUpdate (.writeCur (nextIndex s.params (s.reg .txCur))))) ∨
    (∃ cur, k = .writeCur cur ∧ t = (s.setReg .txCur cur).goto (.txUpdate .headCur)) ∨
    (k = .retTail ∧ t = s.goto (.txUpdate (.retCur (s.reg .txTail)))) ∨
    (∃ tail, k = .retCur tail ∧
      t = s.goto (.txUpdate (.retSlotCur (indexDiff s.params tail (s.reg .txCur))))) ∨
    (∃ pending, k = .retSlotCur pending ∧ t = s.goto (.txUpdate (.retMask pending (s.reg .txCur)))) ∨
    (∃ pending cur, k = .retMask pending cur ∧
      t = s.goto (.ending .txUpdate (.ret (some pending) (some (slotOf cur (s.reg .txMask)))))) := by
  cases k <;> simp only [updateStep, toReturn] at h
  case readOwn =>
    obtain ⟨-, h⟩ := State.memRead_next h
    split at h <;> simp_all
  case headTail => split at h <;> simp_all
  all_goals simp_all

theorem execTxUpdate_next {s t : State} (h : execTxUpdate s = .next t) :
    (s.seq = .idle ∧ s.txValid = true ∧ t = s.goto (.txUpdate .headCur)) ∨
    (∃ k, s.seq = .txUpdate k ∧ updateStep k s = .next t) ∨
    (∃ e, s.seq = .ending .txUpdate e ∧ finish e s = .next t) := by
  unfold execTxUpdate at h
  split at h
  · split at h <;> simp_all
  · exact .inr (.inl ⟨_, ‹_›, h⟩)
  · exact .inr (.inr ⟨_, ‹_›, h⟩)
  · simp at h

theorem armStep_next {k : ArmPos} {desc buf : Word} {s t : State} (h : armStep k desc buf s = .next t) :
    (k = .desc ∧ t = (s.setReg .rxDesc desc).goto (.rxArm .buf desc buf)) ∨
    (k = .buf ∧ t = (s.setReg .rxBuf buf).goto (.rxArm .memBuf desc buf)) ∨
    (k = .memBuf ∧ accessible s.params (descWord s.params desc 0) = true ∧
      t = (s.setWord (descWord s.params desc 0) buf).goto (.rxArm .memCtl desc buf)) ∨
    (k = .memCtl ∧ accessible s.params (descWord s.params desc 3) = true ∧
      t = (s.setWord (descWord s.params desc 3) rxCtl).goto (.rxArm .ringBase desc buf)) ∨
    (k = .ringBase ∧ t = (s.setReg .rxRingBase desc).goto (.rxArm .tailPtr desc buf)) ∨
    (k = .tailPtr ∧
      t = ((s.setReg .rxTailPtr desc).grantRx (descWord s.params desc 3)).goto (.rxArm .valid desc buf)) ∨
    (k = .valid ∧ t = s.setRxValid.goto (.ending .rxArm (.ret none none))) := by
  cases k <;> simp only [armStep, toReturn] at h
  case memBuf => obtain ⟨ha, h⟩ := State.memWrite_next h; simp_all
  case memCtl => obtain ⟨ha, h⟩ := State.memWrite_next h; simp_all
  all_goals simp_all

theorem execRxArm_next {s t : State} (h : execRxArm s = .next t) :
    (s.seq = .idle ∧ s.rxValid = false ∧ descAligned s.params (s.reg .arg0) = true ∧
      fitsBelow s.params (s.reg .arg0) 1#32 = true ∧
      t = s.goto (.rxArm .desc (s.reg .arg0) (s.reg .arg1))) ∨
    (∃ k desc buf, s.seq = .rxArm k desc buf ∧ armStep k desc buf s = .next t) ∨
    (∃ e, s.seq = .ending .rxArm e ∧ finish e s = .next t) := by
  unfold execRxArm at h
  split at h
  · repeat' split at h
    all_goals simp_all
  · exact .inr (.inl ⟨_, _, _, ‹_›, h⟩)
  · exact .inr (.inr ⟨_, ‹_›, h⟩)
  · simp at h

theorem pollStep_next {k : PollPos} {s t : State} (h : pollStep k s = .next t) :
    (k = .desc ∧ t = s.goto (.rxPoll (.readOwn (s.reg .rxDesc)))) ∨
    (∃ d, k = .readOwn d ∧ own (s.word (descWord s.params d 3)) = true ∧
      t = s.goto (.ending .rxPoll (.raise .notReady))) ∨
    (∃ d, k = .readOwn d ∧ own (s.word (descWord s.params d 3)) = false ∧ t = s.goto (.rxPoll (.readLen d))) ∨
    (∃ d, k = .readLen d ∧ t = s.goto (.rxPoll (.buf (rxLen (s.word (descWord s.params d 2)))))) ∨
    (∃ len, k = .buf len ∧ t = s.goto (.ending .rxPoll (.ret (some len) (some (s.reg .rxBuf))))) := by
  cases k <;> simp only [pollStep, toRaise, toReturn] at h
  case readOwn =>
    obtain ⟨-, h⟩ := State.memRead_next h
    split at h <;> simp_all
  case readLen => obtain ⟨-, h⟩ := State.memRead_next h; simp_all
  all_goals simp_all

theorem execRxPoll_next {s t : State} (h : execRxPoll s = .next t) :
    (s.seq = .idle ∧ s.rxValid = true ∧ t = s.goto (.rxPoll .desc)) ∨
    (∃ k, s.seq = .rxPoll k ∧ pollStep k s = .next t) ∨
    (∃ e, s.seq = .ending .rxPoll e ∧ finish e s = .next t) := by
  unfold execRxPoll at h
  split at h
  · split at h <;> simp_all
  · exact .inr (.inl ⟨_, ‹_›, h⟩)
  · exact .inr (.inr ⟨_, ‹_›, h⟩)
  · simp at h

theorem rearmStep_next {k : RearmPos} {s t : State} (h : rearmStep k s = .next t) :
    (k = .desc ∧ t = s.goto (.rxRearm (.readOwn (s.reg .rxDesc)))) ∨
    (∃ d, k = .readOwn d ∧ own (s.word (descWord s.params d 3)) = false ∧ t = s.goto (.rxRearm (.writeCtl d))) ∨
    (∃ d, k = .writeCtl d ∧ accessible s.params (descWord s.params d 3) = true ∧
      t = (s.setWord (descWord s.params d 3) rxCtl).goto (.rxRearm (rearmPtrStart s.params d))) ∨
    (∃ d, k = .readTailPtr d ∧
      t = s.goto (.rxRearm (.writeTailPtr d (addAddr s.params (s.reg .rxTailPtr) s.params.descSpan)))) ∨
    (∃ d ptr, k = .writeTailPtr d ptr ∧
      t = ((s.setReg .rxTailPtr ptr).grantRx (descWord s.params d 3)).goto
        (.ending .rxRearm (.ret none none))) := by
  cases k <;> simp only [rearmStep, toReturn] at h
  case readOwn =>
    obtain ⟨-, h⟩ := State.memRead_next h
    split at h <;> simp_all
  case writeCtl => obtain ⟨ha, h⟩ := State.memWrite_next h; simp_all
  all_goals simp_all

theorem execRxRearm_next {s t : State} (h : execRxRearm s = .next t) :
    (s.seq = .idle ∧ s.rxValid = true ∧ t = s.goto (.rxRearm .desc)) ∨
    (∃ k, s.seq = .rxRearm k ∧ rearmStep k s = .next t) ∨
    (∃ e, s.seq = .ending .rxRearm e ∧ finish e s = .next t) := by
  unfold execRxRearm at h
  split at h
  · split at h <;> simp_all
  · exact .inr (.inl ⟨_, ‹_›, h⟩)
  · exact .inr (.inr ⟨_, ‹_›, h⟩)
  · simp at h

theorem execDmaSwreset_next {s t : State} (h : execDmaSwreset s = .next t) :
    (s.seq = .idle ∧ t = s.goto (.dmaSwreset .writeCtrl)) ∨
    (s.seq = .dmaSwreset .writeCtrl ∧ t = (s.setReg .dmaCtrl 1#32).goto (.dmaSwreset .clearInit)) ∨
    (s.seq = .dmaSwreset .clearInit ∧ t = (s.setReg .init 0#32).goto (.dmaSwreset .poll)) ∨
    (s.seq = .dmaSwreset .poll ∧ s.swr = true ∧ t = s.goto (.dmaSwreset .poll)) ∨
    (s.seq = .dmaSwreset .poll ∧ s.swr = false ∧ t = s.goto (.ending .dmaSwreset (.ret none none))) ∨
    (∃ e, s.seq = .ending .dmaSwreset e ∧ finish e s = .next t) := by
  unfold execDmaSwreset at h
  split at h
  · exact .inl ⟨‹_›, by simpa using h.symm⟩
  · rename_i k hk
    cases k <;> simp only [swresetStep, toReturn] at h
    · simp_all
    · simp_all
    · split at h <;> simp_all
  · exact .inr (.inr (.inr (.inr (.inr ⟨_, ‹_›, h⟩))))
  · simp at h

/-! ### BUS -/

theorem execCmdwRead_next {p : PhyAddr} {r : RegAddr} {s t : State} (h : execCmdwRead p r s = .next t) :
    s.inFlight p r Config.opRead = true ∧ p.toNat ≤ Config.phyAddrMax ∧
    t = ((s.phyRead p r).2.setReg .mdioData (((s.phyRead p r).1).setWidth 32)).clearBusy := by
  unfold execCmdwRead at h
  repeat' split at h
  all_goals simp_all

theorem execCmdwWrite_next {p : PhyAddr} {r : RegAddr} {s t : State} (h : execCmdwWrite p r s = .next t) :
    s.inFlight p r Config.opWrite = true ∧ p.toNat ≤ Config.phyAddrMax ∧
    t = (s.phyWrite p r s.data).clearBusy := by
  unfold execCmdwWrite at h
  repeat' split at h
  all_goals simp_all

end Sys2Proof.Machine
end

