-- ==== Sys2Proof/Laws/Formats.lean ====
section
/-! SUPPORT. What keeps the reserved bits of MDIO_CMD at 0 (R22, R102): a command word has none of them set, and
clearing BUSY sets none. -/

namespace Sys2Proof.Machine

/-- A bit that no value of a field sets is no bit of any value of it. -/
theorem place_and_eq_zero {w : Nat} (f : BitVec w) {lo : Nat} {m : Word}
    (h : place (BitVec.allOnes w) lo &&& m = 0#32) : place f lo &&& m = 0#32 := by
  apply BitVec.eq_of_getLsbD_eq
  intro i hi
  have hb := congrArg (fun v => v.getLsbD i) h
  simp only [place, BitVec.getLsbD_and, BitVec.getLsbD_shiftLeft, BitVec.getLsbD_setWidth, BitVec.getLsbD_zero,
    BitVec.getLsbD_allOnes] at hb ⊢
  by_cases hw : i - lo < w
  · rcases hm : m.getLsbD i <;> simp_all
  · simp [BitVec.getLsbD_of_ge f (i - lo) (by omega)]

/-- A command word has 0 in the reserved bits, for any choice of parameters. -/
@[simp] theorem cmdw_and_cmdReserved (P : Config.Params) (p : PhyAddr) (r : RegAddr) (o : BitVec 2) :
    cmdw P p r o &&& cmdReserved P = 0#32 := by
  have h : cmdw P 63#6 31#5 0b11#2 &&& cmdReserved P = 0#32 := BitVec.and_not_self _
  simp only [cmdw, BitVec.and_or_distrib_right, BitVec.or_eq_zero_iff] at h ⊢
  obtain ⟨⟨⟨hp, hr⟩, ho⟩, hb⟩ := h
  exact ⟨⟨⟨place_and_eq_zero p hp, place_and_eq_zero r hr⟩, place_and_eq_zero o ho⟩, hb⟩

/-- Clearing BUSY keeps the reserved bits at 0. -/
theorem cmdClearBusy_and_cmdReserved {P : Config.Params} {c : Word} (h : c &&& cmdReserved P = 0#32) :
    cmdClearBusy P c &&& cmdReserved P = 0#32 := by
  rw [cmdClearBusy, BitVec.and_assoc, BitVec.and_comm (~~~ _), ← BitVec.and_assoc, h, BitVec.zero_and]

end Sys2Proof.Machine
end

