-- ==== Sys2Proof/Laws/Operands.lean ====
section
/-! SUPPORT. Indices, addresses of descriptors and DMA's position: what the well-formed parameters give. -/

namespace Sys2Proof.Machine

/-! ### Well-formed parameters -/

theorem ringsOk_iff (P : Config.Params) : P.ringsOk = true ↔
    P.idxW ≤ 32 ∧ P.addrW ≤ 32 ∧ P.addrW ≤ P.idxW + 4 ∧ 0 < P.descAlign ∧ P.descAlign % 4 = 0 ∧
    P.descSpan % P.descAlign = 0 ∧ 16 ≤ P.descSpan := by
  simp [Config.Params.ringsOk, and_assoc]

theorem ringsOk_of_wellFormed {P : Config.Params} (h : P.wellFormed = true) : P.ringsOk = true := by
  simp only [Config.Params.wellFormed, Bool.and_eq_true] at h
  exact h.2

/-! ### Truncation (R13, R205) -/

theorem toNat_truncTo {w : Nat} (hw : w ≤ 32) (v : Word) : (truncTo w v).toNat = v.toNat % 2 ^ w := by
  simp only [truncTo, BitVec.toNat_setWidth]
  exact Nat.mod_eq_of_lt ((Nat.mod_lt _ (Nat.two_pow_pos w)).trans_le (Nat.pow_le_pow_right (by omega) hw))

theorem truncTo_of_lt {w : Nat} (hw : w ≤ 32) {v : Word} (h : v.toNat < 2 ^ w) : truncTo w v = v := by
  rw [← BitVec.toNat_inj, toNat_truncTo hw, Nat.mod_eq_of_lt h]

/-- With the default width an index or an address is the word itself. -/
@[simp] theorem truncTo_word (v : Word) : truncTo 32 v = v := truncTo_of_lt le_rfl v.isLt

/-- Modulo 2^w after modulo 2^32. -/
theorem mod_word_mod {w : Nat} (hw : w ≤ 32) (n : Nat) : n % 2 ^ 32 % 2 ^ w = n % 2 ^ w :=
  Nat.mod_mod_of_dvd n (Nat.pow_dvd_pow 2 hw)

theorem toNat_nextIndex {P : Config.Params} (h : P.ringsOk = true) (i : Word) :
    (nextIndex P i).toNat = (i.toNat + 1) % 2 ^ P.idxW := by
  obtain ⟨hw, -⟩ := (ringsOk_iff P).1 h
  rw [nextIndex, toNat_truncTo hw, BitVec.toNat_add]
  exact mod_word_mod hw _

theorem toNat_addAddr {P : Config.Params} (h : P.ringsOk = true) (a : Word) (n : Nat) :
    (addAddr P a n).toNat = (a.toNat + n) % 2 ^ P.addrW := by
  obtain ⟨-, hw, -⟩ := (ringsOk_iff P).1 h
  rw [addAddr, toNat_truncTo hw, BitVec.toNat_add, BitVec.toNat_ofNat, mod_word_mod hw, Nat.add_mod,
    mod_word_mod hw, ← Nat.add_mod]

/-- An address sum that stays in the address space is the plain sum (R13). -/
theorem toNat_addAddr_of_lt {P : Config.Params} (h : P.ringsOk = true) {a : Word} {n : Nat}
    (hn : a.toNat + n < 2 ^ P.addrW) : (addAddr P a n).toNat = a.toNat + n := by
  rw [toNat_addAddr h, Nat.mod_eq_of_lt hn]

theorem addAddr_of_lt {P : Config.Params} (h : P.ringsOk = true) {a : Word} {n : Nat}
    (hn : a.toNat + n < 2 ^ P.addrW) : addAddr P a n = a + BitVec.ofNat 32 n := by
  have hw : 2 ^ P.addrW ≤ 2 ^ 32 := Nat.pow_le_pow_right (by omega) ((ringsOk_iff P).1 h).2.1
  rw [← BitVec.toNat_inj, toNat_addAddr_of_lt h hn, BitVec.toNat_add, BitVec.toNat_ofNat]
  omega

/-! ### Descriptors (R42, R76, R201) -/

theorem fitsBelow_iff {P : Config.Params} {base n : Word} :
    fitsBelow P base n = true ↔ base.toNat + P.descSpan * n.toNat < 2 ^ P.addrW := by
  simp [fitsBelow]

theorem descAligned_iff {P : Config.Params} {a : Word} : descAligned P a = true ↔ a.toNat % P.descAlign = 0 := by
  simp [descAligned]

/-- A multiple of DESC_ALIGN is a multiple of 4 (R76). -/
theorem mod_four_of_descAligned {P : Config.Params} (h : P.ringsOk = true) {a : Word}
    (ha : descAligned P a = true) : a.toNat % 4 = 0 := by
  obtain ⟨-, -, -, -, h4, -⟩ := (ringsOk_iff P).1 h
  exact Nat.mod_eq_zero_of_dvd ((Nat.dvd_of_mod_eq_zero h4).trans (Nat.dvd_of_mod_eq_zero (descAligned_iff.1 ha)))

/-- The words of a descriptor RX.ARM accepts, or of a slot of a ring TX.SETDESC accepts, lie at d + 4k (R42). -/
theorem toNat_descWord {P : Config.Params} (h : P.ringsOk = true) {d : Word} (hd : SlotGeometry P d) {k : Nat}
    (hk : k < 4) : (descWord P d k).toNat = d.toNat + 4 * k := by
  have h16 := ((ringsOk_iff P).1 h).2.2.2.2.2.2
  have hf := fitsBelow_iff.1 hd.2
  simp only [BitVec.toNat_ofNat] at hf
  exact toNat_addAddr_of_lt h (by omega)

theorem descWord_eq {P : Config.Params} (h : P.ringsOk = true) {d : Word} (hd : SlotGeometry P d) {k : Nat}
    (hk : k < 4) : descWord P d k = d + BitVec.ofNat 32 (4 * k) := by
  have h16 := ((ringsOk_iff P).1 h).2.2.2.2.2.2
  have hf := fitsBelow_iff.1 hd.2
  simp only [BitVec.toNat_ofNat] at hf
  exact addAddr_of_lt h (by omega)

/-- The words of such a descriptor are accessible (R74, R76). -/
theorem accessible_descWord {P : Config.Params} (h : P.ringsOk = true) {d : Word} (hd : SlotGeometry P d) {k : Nat}
    (hk : k < 4) : accessible P (descWord P d k) = true := by
  have h4 := mod_four_of_descAligned h hd.1
  have h16 := ((ringsOk_iff P).1 h).2.2.2.2.2.2
  have hf := fitsBelow_iff.1 hd.2
  simp only [BitVec.toNat_ofNat] at hf
  rw [accessible_iff, toNat_descWord h hd hk]
  omega

/-- The descriptors of a ring that ends in the address space do not wrap (R206). -/
theorem toNat_descAddr {P : Config.Params} (h : P.ringsOk = true) {base n slot : Word}
    (hf : fitsBelow P base n = true) (hs : slot.toNat < n.toNat) :
    (descAddr P base slot).toNat = base.toNat + P.descSpan * slot.toNat := by
  have hm := Nat.mul_le_mul_left P.descSpan hs.le
  exact toNat_addAddr_of_lt h (by have := fitsBelow_iff.1 hf; omega)

theorem descAddr_eq {P : Config.Params} (h : P.ringsOk = true) {base n slot : Word}
    (hf : fitsBelow P base n = true) (hs : slot.toNat < n.toNat) :
    descAddr P base slot = base + BitVec.ofNat 32 P.descSpan * slot := by
  have hm := Nat.mul_le_mul_left P.descSpan hs.le
  rw [descAddr, addAddr_of_lt h (by have := fitsBelow_iff.1 hf; omega)]
  congr 1
  rw [← BitVec.toNat_inj, BitVec.toNat_ofNat, BitVec.toNat_mul, BitVec.toNat_ofNat, Nat.mod_mul_mod]

/-- Each slot of a ring is a descriptor like the RX slot's (R201, R206): aligned, and ending in the address space. -/
theorem slotGeometry_descAddr {P : Config.Params} (h : P.ringsOk = true) {base n slot : Word}
    (hb : descAligned P base = true) (hf : fitsBelow P base n = true) (hs : slot.toNat < n.toNat) :
    SlotGeometry P (descAddr P base slot) := by
  have hd := ((ringsOk_iff P).1 h).2.2.2.2.2.1
  have ht := toNat_descAddr h hf hs
  have hm := Nat.mul_le_mul_left P.descSpan (Nat.succ_le_of_lt hs)
  constructor
  · rw [descAligned_iff, ht, Nat.add_mod, descAligned_iff.1 hb, Nat.mul_mod, hd]
    simp
  · rw [fitsBelow_iff, ht]
    have := fitsBelow_iff.1 hf
    simp only [BitVec.toNat_ofNat]
    rw [Nat.mul_succ] at hm
    omega

/-- A slot count of a ring in the address space is an index (R205). -/
theorem slotCount_lt {P : Config.Params} (h : P.ringsOk = true) {base n : Word} (hf : fitsBelow P base n = true) :
    n.toNat < 2 ^ P.idxW := by
  obtain ⟨-, -, hw, -, -, -, h16⟩ := (ringsOk_iff P).1 h
  have hm := Nat.mul_le_mul_right n.toNat h16
  have hp : 2 ^ P.addrW ≤ 2 ^ P.idxW * 16 := by
    calc 2 ^ P.addrW ≤ 2 ^ (P.idxW + 4) := Nat.pow_le_pow_right (by omega) hw
      _ = 2 ^ P.idxW * 16 := by rw [Nat.pow_add]
  have := fitsBelow_iff.1 hf
  omega

/-- The slot of any index lies in the ring (R201). -/
theorem slotOf_lt (i : Word) {n : Word} (h : PowerOfTwo n) : (slotOf i (n - 1#32)).toNat < n.toNat := by
  obtain ⟨k, hk, rfl⟩ := h
  have hn : (1#32 <<< k).toNat = 2 ^ k := by
    rw [BitVec.toNat_shiftLeft, Nat.shiftLeft_eq, BitVec.toNat_ofNat]
    have : 2 ^ k < 2 ^ 32 := Nat.pow_lt_pow_right (by omega) hk
    omega
  have h1 : 1 ≤ 2 ^ k := Nat.one_le_two_pow
  have hs : (1#32 <<< k - 1#32).toNat = 2 ^ k - 1 := by
    rw [BitVec.toNat_sub_of_le (by rw [BitVec.le_def, hn]; simpa using h1), hn]; rfl
  rw [slotOf, BitVec.toNat_and, hs, hn]
  exact (Nat.and_le_right).trans_lt (by omega)

/-! ### DMA's position as rising lists -/

theorem risingNats_iff (l : List Nat) : risingNats l = true ↔ l.Pairwise (· < ·) := by
  induction l with
  | nil => simp [risingNats]
  | cons a l ih =>
    cases l with
    | nil => simp [risingNats]
    | cons b l =>
      simp only [risingNats, Bool.and_eq_true, decide_eq_true_eq, ih, List.pairwise_cons, List.mem_cons]
      constructor
      · rintro ⟨hab, hb, hl⟩
        exact ⟨by rintro c (rfl | hc) <;> [exact hab; exact hab.trans (hb c hc)], hb, hl⟩
      · rintro ⟨ha, hb, hl⟩
        exact ⟨ha b (.inl rfl), hb, hl⟩

/-- Granting a descriptor keeps DMA's position in its canonical form. -/
theorem risingNats_insert (a : Nat) {l : List Nat} (h : risingNats l = true) :
    risingNats (Grants.insert a l) = true := by
  rw [risingNats_iff] at h ⊢
  induction l with
  | nil => simp [Grants.insert]
  | cons c l ih =>
    simp only [List.pairwise_cons] at h
    unfold Grants.insert
    split
    · simp only [List.pairwise_cons, List.mem_cons]
      exact ⟨by rintro b (rfl | hb) <;> [assumption; exact lt_trans ‹_› (h.1 b hb)], h.1, h.2⟩
    · split
      · simpa [List.pairwise_cons] using h
      · simp only [List.pairwise_cons]
        refine ⟨fun b hb => ?_, ih h.2⟩
        rcases (Grants.mem_insert a b l).1 hb with rfl | hb
        · omega
        · exact h.1 b hb

/-- A word write keeps DMA's position in its canonical form. -/
theorem risingNats_erase (a : Nat) {l : List Nat} (h : risingNats l = true) :
    risingNats (Grants.erase a l) = true := by
  rw [risingNats_iff] at h ⊢
  exact h.filter _

end Sys2Proof.Machine
end

