-- ==== Sys2Proof/Laws/PerInstr.lean ====
section
/-! SUPPORT. Statements about every instruction, one lemma per constructor. TableRow: the encoder with the default
parameters gives a word of the instruction's own row of spec/opcode_table.json (its mask and match). -/

namespace Sys2Proof.Laws.TableRow

/-- The row's mask. -/
def mask (i : Instr) : Word := match i.format with
  | .opw => 0xFFFFFFFF#32
  | .cmdw => 0xF800FFFF#32

/-- The row's match. -/
def matchBits : Instr → Word
  | .mdioRead => 0x00000001#32
  | .mdioWrite => 0x00000002#32
  | .phySetaddr => 0x00000003#32
  | .phyDetect => 0x00000004#32
  | .phyReset => 0x00000005#32
  | .phyLinkstatus => 0x00000006#32
  | .txSetdesc => 0x00000008#32
  | .txPut => 0x00000009#32
  | .txUpdate => 0x0000000A#32
  | .rxArm => 0x0000000B#32
  | .rxPoll => 0x0000000C#32
  | .rxRearm => 0x0000000D#32
  | .dmaSwreset => 0x0000000E#32
  | .cmdwRead _ _ => 0x0000000D#32
  | .cmdwWrite _ _ => 0x00000005#32

/-- The encoded word belongs to the instruction's row. -/
def Statement (i : Instr) : Prop := encode .default i &&& mask i = matchBits i

theorem mdioRead : Statement .mdioRead := by unfold Statement; decide
theorem mdioWrite : Statement .mdioWrite := by unfold Statement; decide
theorem phySetaddr : Statement .phySetaddr := by unfold Statement; decide
theorem phyDetect : Statement .phyDetect := by unfold Statement; decide
theorem phyReset : Statement .phyReset := by unfold Statement; decide
theorem phyLinkstatus : Statement .phyLinkstatus := by unfold Statement; decide
theorem txSetdesc : Statement .txSetdesc := by unfold Statement; decide
theorem txPut : Statement .txPut := by unfold Statement; decide
theorem txUpdate : Statement .txUpdate := by unfold Statement; decide
theorem rxArm : Statement .rxArm := by unfold Statement; decide
theorem rxPoll : Statement .rxPoll := by unfold Statement; decide
theorem rxRearm : Statement .rxRearm := by unfold Statement; decide
theorem dmaSwreset : Statement .dmaSwreset := by unfold Statement; decide

/-- The fields of a command word lie outside the mask, whatever they are. -/
theorem masked_place {w : Nat} (f : BitVec w) (lo : Nat) (h : 16 ≤ lo) (h' : lo + w ≤ 27) :
    place f lo &&& 0xF800FFFF#32 = 0#32 := by
  apply BitVec.eq_of_getLsbD_eq
  intro i hi
  have hm : (0xF800FFFF#32).getLsbD i = true → i < 16 ∨ 27 ≤ i := by
    revert i; decide
  simp only [place, BitVec.getLsbD_and, BitVec.getLsbD_shiftLeft, BitVec.getLsbD_setWidth, BitVec.getLsbD_zero]
  by_cases hk : (0xF800FFFF#32).getLsbD i = true
  · rcases hm hk with h1 | h1
    · have : i < lo := by omega
      simp [this]
    · have : f.getLsbD (i - lo) = false := BitVec.getLsbD_of_ge _ _ (by omega)
      simp [this]
  · simp [hk]

theorem cmdwRead (p : PhyAddr) (r : RegAddr) : Statement (.cmdwRead p r) := by
  show cmdw .default p r Config.opRead &&& 0xF800FFFF#32 = 0x0000000D#32
  unfold cmdw
  simp only [BitVec.and_or_distrib_right]
  rw [masked_place p _ (by decide) (by decide), masked_place r _ (by decide) (by decide)]
  decide

theorem cmdwWrite (p : PhyAddr) (r : RegAddr) : Statement (.cmdwWrite p r) := by
  show cmdw .default p r Config.opWrite &&& 0xF800FFFF#32 = 0x00000005#32
  unfold cmdw
  simp only [BitVec.and_or_distrib_right]
  rw [masked_place p _ (by decide) (by decide), masked_place r _ (by decide) (by decide)]
  decide

end Sys2Proof.Laws.TableRow
end

