-- ==== Sys2Proof/Tests/Slice0.lean ====
section
/-! SUPPORT. The model's own tests: the WellFormed smoke, the decoder on words written out from spec/30_encoding.md,
single steps whose results stand in the rules' examples and in spec/95_test_vectors.md, and for every obligation with
hypotheses a state and operands that meet them. -/

namespace Sys2Proof.Tests

open Sys2Proof Sys2Proof.Machine

/-! ### Helpers -/

/-- What `f` shows of the next state. -/
def after {α : Type} (o : Result) (f : State → α) : Option α :=
  match o with
  | .next t => some (f t)
  | .fault _ => none
  | .refused _ => none

/-- Why a step was refused. -/
def why (o : Result) : Option Refusal :=
  match o with
  | .next _ => none
  | .fault _ => none
  | .refused r => some r

/-- The state after reset with SEQ at `q`. -/
def at_ (q : Seq) : State := State.reset.goto q

/-- The state after reset with the three operands. -/
def args (a0 a1 a2 : Word) : State := ((State.reset.setReg .arg0 a0).setReg .arg1 a1).setReg .arg2 a2

/-- The state after reset with MDIO_CMD holding `c`. -/
def cmd (c : Word) : State := State.reset.setReg .mdioCmd c

/-- A four-slot ring at 0x20000000 with the given indices (the example of R206). -/
def ring (tail cur : Word) : State :=
  (((((((State.reset.setReg .txBase 0x20000000#32).setReg .txN 4#32).setReg .txMask 3#32).setReg .txRingBase
    0x20000000#32).setReg .txRingLen 3#32).setReg .txTail tail).setReg .txCur cur).setReg .init 1#32

/-- An armed slot at 0x20000100 whose word 3 is `w3` and word 2 is `w2` (the example of R232). -/
def slot (w2 w3 : Word) : State :=
  (((((((State.reset.setReg .rxDesc 0x20000100#32).setReg .rxBuf 0x20002000#32).setReg .rxRingBase
    0x20000100#32).setReg .rxTailPtr 0x20000100#32).setReg .init 2#32).setWord 0x20000108#32 w2).setWord
    0x2000010C#32 w3)

/-- A machine with a PHY at address 5 whose register 2 holds 0x0007, and PHYADDR = 5. -/
def withPhy : State :=
  { State.reset.setReg .phyaddr 0x80000005#32 with present := [5], phyRegs := [(32 * 5 + 2, 0x0007#16)] }

/-! ### WellFormed: one ill-formed term for each check -/

theorem test_wellFormed_phyad_read : (Instr.cmdwRead 63#6 0#5).wellFormed = false := by decide
theorem test_wellFormed_phyad_write : (Instr.cmdwWrite 63#6 31#5).wellFormed = false := by decide
theorem test_wellFormed_boundary : (Instr.cmdwRead 62#6 31#5).wellFormed = true := by decide
theorem test_params_default : Config.Params.default.wellFormed = true := by decide
theorem test_params_busy_range : ({ cmdBusyBit := 32 } : Config.Params).wellFormed = false := by decide
theorem test_params_op_range : ({ cmdOpLo := 31 } : Config.Params).wellFormed = false := by decide
theorem test_params_regad_range : ({ cmdRegadLo := 28 } : Config.Params).wellFormed = false := by decide
theorem test_params_phyad_range : ({ cmdPhyadLo := 27 } : Config.Params).wellFormed = false := by decide
theorem test_params_busy_op : ({ cmdBusyBit := 3 } : Config.Params).wellFormed = false := by decide
theorem test_params_busy_regad : ({ cmdBusyBit := 20 } : Config.Params).wellFormed = false := by decide
theorem test_params_busy_phyad : ({ cmdBusyBit := 26 } : Config.Params).wellFormed = false := by decide
theorem test_params_op_regad : ({ cmdOpLo := 15 } : Config.Params).wellFormed = false := by decide
theorem test_params_op_phyad : ({ cmdOpLo := 26 } : Config.Params).wellFormed = false := by decide
theorem test_params_regad_phyad : ({ cmdRegadLo := 17 } : Config.Params).wellFormed = false := by decide
theorem test_params_bcr : ({ bcrResetBit := 16 } : Config.Params).wellFormed = false := by decide
theorem test_params_bsr : ({ bsrLinkBit := 16 } : Config.Params).wellFormed = false := by decide
theorem test_params_vsr_done : ({ vsrAndoneBit := 16 } : Config.Params).wellFormed = false := by decide
theorem test_params_vsr_code : ({ vsrCodeLo := 14 } : Config.Params).wellFormed = false := by decide
theorem test_params_idxW : ({ idxW := 33 } : Config.Params).wellFormed = false := by decide
theorem test_params_addrW : ({ addrW := 33 } : Config.Params).wellFormed = false := by decide
theorem test_params_addr_idx : ({ idxW := 16, addrW := 21 } : Config.Params).wellFormed = false := by decide
theorem test_params_align_zero : ({ descAlign := 0 } : Config.Params).wellFormed = false := by decide
theorem test_params_align_word : ({ descAlign := 2 } : Config.Params).wellFormed = false := by decide
theorem test_params_span_align : ({ descSpan := 20, descAlign := 8 } : Config.Params).wellFormed = false := by decide
theorem test_params_span : ({ descSpan := 12 } : Config.Params).wellFormed = false := by decide
theorem test_params_rings :
    ({ idxW := 16, addrW := 20, descSpan := 64, descAlign := 64 } : Config.Params).wellFormed = true := by decide

/-! ### Decode: words written out from R101 and R102 -/

theorem test_decode_opw :
    [0b0001, 0b0010, 0b0011, 0b0100, 0b0101, 0b0110, 0b1000, 0b1001, 0b1010, 0b1011, 0b1100, 0b1101, 0b1110].map
      (decodeTableWord 32) =
    [some .mdioRead, some .mdioWrite, some .phySetaddr, some .phyDetect, some .phyReset, some .phyLinkstatus,
      some .txSetdesc, some .txPut, some .txUpdate, some .rxArm, some .rxPoll, some .rxRearm,
      some .dmaSwreset] := by decide

/-- PHYAD = 5 in [26:21], REGAD = 2 in [20:16], OP = 0b11 in [3:2], BUSY in [0]. -/
theorem test_decode_cmdwRead :
    decodeTableWord 32 0b00000_000101_00010_000000000000_11_0_1 = some (.cmdwRead 5#6 2#5) := by decide

/-- PHYAD = 1, REGAD = 4, OP = 0b01, BUSY = 1: 0x00240005, the write of program 4. -/
theorem test_decode_cmdwWrite :
    decodeTableWord 32 0b00000_000001_00100_000000000000_01_0_1 = some (.cmdwWrite 1#6 4#5) := by decide

/-- PHY 0, register 0 are command words too where MDIO_CMD holds them: 0xD and 0x5. -/
theorem test_decode_cmdw_zero :
    decode .default .cmdw [0x0D#8, 0#8, 0#8, 0#8] = .ok (.cmdwRead 0#6 0#5) ∧
    decode .default .cmdw [0x05#8, 0#8, 0#8, 0#8] = .ok (.cmdwWrite 0#6 0#5) := by decide

theorem test_decode_rejects_opw :
    decodeOpw 0x0#32 = .error .reservedOpsel ∧ decodeOpw 0x7#32 = .error .reservedOpsel ∧
    decodeOpw 0xF#32 = .error .reservedOpsel ∧ decodeOpw 0x11#32 = .error .reservedOpwBits ∧
    decodeOpw 0x80000001#32 = .error .reservedOpwBits := by decide

theorem test_decode_rejects_cmdw :
    decodeCmdw .default 0x07FF000D#32 = .error .reservedPhyad ∧
    decodeCmdw .default 0x00A2000C#32 = .error .notBegun ∧
    decodeCmdw .default 0x00A20001#32 = .error .reservedOp ∧
    decodeCmdw .default 0x00A20009#32 = .error .reservedOp ∧
    decodeCmdw .default 0x00A2000F#32 = .error .reservedCmdwBits ∧
    decodeCmdw .default 0x08A2000D#32 = .error .reservedCmdwBits := by decide

theorem test_decode_length :
    decode .default .opw [1#8, 0#8, 0#8] = .error .length ∧
    decode .default .opw [1#8, 0#8, 0#8, 0#8, 0#8] = .error .length := by decide

theorem test_encode : encode .default (.cmdwRead 5#6 2#5) = 0x00A2000D#32 ∧
    encode .default (.cmdwWrite 62#6 31#5) = 0x07DF0005#32 ∧ encode .default .rxPoll = 0xC#32 := by decide

/-! ### The state after reset and the interface -/

theorem test_reset_memory : State.reset.mem.wf = true := by decide

theorem test_withFetchWord_opw :
    after (step (State.reset.withFetchWord 32 0x4)) (fun t => (t.seq.operation, t.reg .opw, t.agenda)) =
      some (some .phyDetect, 4#32, []) := by decide

theorem test_withFetchWord_cmdw :
    after (step (State.reset.withFetchWord 32 0x00A2000D)) (fun t => (t.reg .mdioData, t.reg .mdioCmd)) =
      some (0xFFFF#32, 0x00A2000C#32) := by decide

/-- Equal memories are equal lists: writing 0 over a byte removes its entry. -/
theorem test_memory_canonical : ((Memory.write [] 5 1#8).write 3 2#8).write 5 0#8 = [(3, 2#8)] := by decide

/-- Little-endian (R75). -/
theorem test_memory_bytes : (Memory.writeWord [] 8 0x11223344#32).read 8 = 0x44#8 ∧
    (Memory.writeWord [] 8 0x11223344#32).read 11 = 0x11#8 := by decide

/-! ### MDIO.READ and MDIO.WRITE (R142, R143; vectors M3, M6, M7, M11) -/

theorem test_mdioRead_command :
    after (exec .mdioRead (at_ (.mdioRead (.writeCmd 5#6 2#5 0b11#2)))) (fun t => (t.reg .mdioCmd, t.seq)) =
      some (0x00A2000D#32, .mdioRead (.poll 0b11#2)) := by decide

theorem test_mdioRead_range :
    why (exec .mdioRead (args 63#32 0#32 0#32)) = some .operandRange ∧
    why (exec .mdioRead (args 0#32 32#32 0#32)) = some .operandRange := by decide

theorem test_mdioWrite_data_first :
    after (exec .mdioWrite (at_ (.mdioWrite (.writeData 5#6 0#5 0x8000#16))))
      (fun t => (t.reg .mdioData, t.reg .mdioCmd, t.seq)) =
      some (0x00008000#32, 0#32, .mdioWrite (.writeCmd 5#6 0#5 0b01#2)) := by decide

/-- Refused at its start while BUSY = 1 (vector M7), and at a write it guards. -/
theorem test_mdioWrite_busy :
    why (exec .mdioWrite (cmd 0x00A2000D#32)) = some .commandWhileBusy ∧
    why (exec .mdioWrite ((cmd 0x00A2000D#32).goto (.mdioWrite (.writeData 5#6 2#5 1#16)))) =
      some .commandWhileBusy := by decide

/-! ### BUS (R154, R155, R157; vectors M1, M2) -/

theorem test_cmdwRead_answer :
    after (exec (.cmdwRead 5#6 2#5) ({ withPhy with regs := (cmd 0x00A2000D#32).regs }))
      (fun t => (t.reg .mdioData, t.reg .mdioCmd)) = some (0x0007#32, 0x00A2000C#32) := by decide

theorem test_cmdwRead_absent :
    after (exec (.cmdwRead 9#6 1#5) (cmd 0x0121000D#32)) (fun t => t.reg .mdioData) = some 0xFFFF#32 := by decide

theorem test_cmdwWrite_store :
    after (exec (.cmdwWrite 5#6 0#5) (({ withPhy with regs := (cmd 0x00A00005#32).regs }).setReg .mdioData 0x8000#32))
      (fun t => (t.phyRegs, t.reg .mdioCmd)) =
      some ([(160, 0x8000#16), (162, 0x0007#16)], 0x00A00004#32) := by decide

theorem test_cmdwWrite_absent :
    after (exec (.cmdwWrite 9#6 0#5) ((cmd 0x01200005#32).setReg .mdioData 0x1234#32))
      (fun t => (t.phyRegs, t.reg .mdioData)) = some ([], 0x1234#32) := by decide

/-! ### PLC (vectors P1, P2, P7, P11 to P14) -/

theorem test_phySetaddr :
    after (exec .phySetaddr (at_ (.phySetaddr 62#6))) (fun t => t.reg .phyaddr) = some 0x8000003E#32 := by decide

theorem test_phySetaddr_range : why (exec .phySetaddr (args 63#32 0#32 0#32)) = some .operandRange := by decide

theorem test_phyDetect_accepts_zero :
    after (exec .phyDetect (at_ (.phyDetect 0#6 .readData))) (fun t => t.seq) = some (.phyDetectStore 0#6) := by decide

theorem test_phyDetect_skips_all_ones :
    after (exec .phyDetect ((at_ (.phyDetect 4#6 .readData)).setReg .mdioData 0xFFFF#32)) (fun t => t.seq) =
      some (.phyDetect 5#6 (.writeCmd 5#6 2#5 0b11#2)) := by decide

theorem test_phyReset_value :
    after (exec .phyReset (withPhy.goto .phyResetAddr)) (fun t => t.seq) =
      some (.phyResetWrite 5#6 (.writeData 5#6 0#5 0x8000#16)) := by decide

theorem test_phyReset_only_bit_15 :
    after (exec .phyReset ((at_ (.phyResetRead 5#6 .readData)).setReg .mdioData 0x3100#32)) (fun t => t.seq) =
      some (.ending .phyReset (.ret none none)) := by decide

theorem test_phyLinkstatus_down :
    after (exec .phyLinkstatus ((at_ (.phyLinkFirst 5#6 .readData)).setReg .mdioData 0xFFFB#32)) (fun t => t.seq) =
      some (.ending .phyLinkstatus (.ret (some 0#32) none)) := by decide

/-- The table of R187 and the examples of R186, R191: what the second read's value decodes to. -/
theorem test_phyLinkstatus_codes :
    ([0x1004, 0x1014, 0x1008, 0x1018, 0x1058, 0xFFFF, 0x782D, 0x0018] : List Data16).map
      (linkUpStatus .default) = [0x0B, 0x0F, 0x13, 0x17, 0x17, 0x01, 0x01, 0x01] := by decide

/-! ### The TX ring (vectors T1, T2, T5 to T8, T12) -/

theorem test_txSetdesc_floor :
    ([1, 2, 3, 4, 5, 7, 8, 9, 15, 16, 17, 1000] : List Word).map pow2Floor =
      [1, 2, 2, 4, 4, 4, 8, 8, 8, 16, 16, 512] := by decide

theorem test_txSetdesc_refusals :
    why (exec .txSetdesc (args 0x20000000#32 0#32 0#32)) = some .emptyArray ∧
    why (exec .txSetdesc (args 0x20000002#32 4#32 0#32)) = some .misaligned ∧
    why (exec .txSetdesc (args 0xFFFFFFF0#32 1#32 0#32)) = some .outOfAddressSpace ∧
    why (exec .txSetdesc (args 0xFFFFFFE0#32 1#32 0#32)) = none := by decide

theorem test_txPut_tail_pointer :
    after (exec .txPut ((ring 3#32 0#32).goto (.txPut (.ptrBase 3#32 0x20000030#32 false) 0#32 0#32)))
      (fun t => t.seq) =
      some (.txPut (.writeTailPtr 3#32 0x20000030#32 0x20000040#32) 0#32 0#32) ∧
    after (exec .txPut { (ring 3#32 0#32).goto (.txPut (.ptrN 3#32 0x20000030#32) 0#32 0#32) with
      params := { txTailWrap := true } }) (fun t => t.seq) =
      some (.txPut (.ptrBase 3#32 0x20000030#32 true) 0#32 0#32) := by decide

/-- The OWN test comes first and ends the operation on a full ring too; with the slot free the capacity test does. -/
theorem test_txPut_own_before_full :
    after (exec .txPut (((ring 4#32 0#32).setWord 0x2000000C#32 0xB0000000#32).goto
      (.txPut (.readOwn 0#32 0x20000000#32) 0#32 0#32))) (fun t => t.seq) =
      some (.ending .txPut (.raise .slotBusy)) ∧
    after (exec .txPut ((ring 4#32 0#32).goto (.txPut (.capEq 0#32 0x20000000#32 4#32) 0#32 0#32))) (fun t => t.seq) =
      some (.ending .txPut (.raise .ringFull)) := by decide

theorem test_txUpdate_current_slot :
    after (exec .txUpdate ((ring 5#32 5#32).goto (.txUpdate (.retMask 0#32 5#32)))) (fun t => t.seq) =
      some (.ending .txUpdate (.ret (some 0#32) (some 1#32))) := by decide

theorem test_txUpdate_wraps :
    after (exec .txUpdate ((ring 0#32 0xFFFFFFFF#32).goto (.txUpdate .incCur))) (fun t => t.seq) =
      some (.txUpdate (.writeCur 0#32)) ∧
    after (exec .txUpdate { (ring 0#32 0xFF#32).goto (.txUpdate .incCur) with
      params := { idxW := 8, addrW := 12 } }) (fun t => t.seq) = some (.txUpdate (.writeCur 0#32)) := by decide

/-! ### The RX slot and the soft reset (vectors X2 to X6, X9, D1) -/

theorem test_rxArm_refusals :
    why (exec .rxArm (args 0x20000102#32 0#32 0#32)) = some .misaligned ∧
    why (exec .rxArm (args 0xFFFFFFF0#32 0#32 0#32)) = some .outOfAddressSpace ∧
    why (exec .rxArm (slot 0#32 0#32)) = some .alreadyArmed := by decide

theorem test_rxArm_control :
    after (exec .rxArm (at_ (.rxArm .memCtl 0x20000100#32 0x20002000#32)))
      (fun t => (t.word 0x2000010C#32, t.word 0x20000108#32)) = some (0x81000000#32, 0#32) := by decide

theorem test_rxPoll_length :
    after (exec .rxPoll ((slot 0xC03CFFFF#32 0x01000000#32).goto (.rxPoll (.readLen 0x20000100#32)))) (fun t => t.seq) =
      some (.rxPoll (.buf 60#32)) := by decide

theorem test_rxPoll_not_ready :
    after (exec .rxPoll ((slot 0#32 0x81000000#32).goto (.rxPoll (.readOwn 0x20000100#32)))) (fun t => t.seq) =
      some (.ending .rxPoll (.raise .notReady)) := by decide

theorem test_rxRearm_owned :
    why (exec .rxRearm ((slot 0#32 0x81000000#32).goto (.rxRearm (.readOwn 0x20000100#32)))) =
      some .descriptorDmaOwned := by decide

theorem test_rxRearm_tail_pointer :
    after (exec .rxRearm ((slot 0#32 0#32).goto (.rxRearm (.writeCtl 0x20000100#32)))) (fun t => t.seq) =
      some (.rxRearm (.writeTailPtr 0x20000100#32 0x20000110#32)) ∧
    after (exec .rxRearm { ((slot 0#32 0#32).setReg .rxTailPtr 0x20000110#32).goto
      (.rxRearm (.readTailPtr 0x20000100#32)) with params := { rxRearmMode := .increment } }) (fun t => t.seq) =
      some (.rxRearm (.writeTailPtr 0x20000100#32 0x20000120#32)) := by decide

theorem test_dmaSwreset_clears_init :
    after (exec .dmaSwreset ((ring 0#32 0#32).goto (.dmaSwreset .clearInit))) (fun t => t.reg .init) =
      some 0#32 := by decide

theorem test_dmaSwreset_waits :
    after (exec .dmaSwreset ((at_ (.dmaSwreset .poll)).setReg .dmaCtrl 1#32)) (fun t => t.seq) =
      some (.dmaSwreset .poll) := by decide

/-- A grant ends when its word is written again, by whatever agent. -/
theorem test_hostMem_ends_grant :
    after (hostMem 0x2000010C#32 0x81000000#32 ((slot 0#32 0x81000000#32).grantRx 0x2000010C#32))
      (fun t => t.rxGranted) = some [] := by decide

theorem test_dma_rxFrame_keeps_other_bits :
    after (dmaRxFrame 60 false ((slot 0xFFFFFFFF#32 0x81000000#32).grantRx 0x2000010C#32))
      (fun t => (t.word 0x20000108#32, t.word 0x2000010C#32)) = some (0xC03CFFFF#32, 0x01000000#32) := by decide

/-! ### Witnesses: for each obligation with hypotheses, a state and operands that meet them -/

theorem witness_StepRunsOperationWord :
    let s : State := { State.reset with agenda := [.hostWrite Reg.opw.number 0xE#32] }
    s.agenda = .hostWrite Reg.opw.number 0xE#32 :: [] ∧ s.seq = .idle ∧
    decode s.params .opw (wordBytes 0xE#32) = .ok .dmaSwreset := by decide

theorem witness_StepRunsCommandWord :
    let s : State := { cmd 0x07DF0005#32 with agenda := [.bus] }
    s.agenda = .bus :: [] ∧
    decode s.params .cmdw (wordBytes (s.reg .mdioCmd)) = .ok (.cmdwWrite 62#6 31#5) := by decide

theorem witness_StepRunsSequencer :
    let s : State := { at_ (.phyResetHook 5#6) with agenda := [.seq, .bus] }
    let u : State := at_ (.ending .rxPoll (.raise .notReady))
    (s.agenda = .seq :: [.bus] ∧ s.seq.operation = some .phyReset) ∧
    (u.agenda = [] ∧ u.seq.operation = some .rxPoll) := by decide

theorem witness_EncodeThenDecode :
    Config.Params.default.wellFormed = true ∧ (Instr.cmdwRead 62#6 31#5).wellFormed = true ∧
    ({ cmdBusyBit := 31, cmdOpLo := 0, cmdRegadLo := 8, cmdPhyadLo := 2 } : Config.Params).wellFormed = true := by
  decide

theorem witness_DecodeThenEncode :
    decodeWord .default .opw 0x1#32 = .ok .mdioRead ∧
    decodeWord .default .cmdw 0x07DF000D#32 = .ok (.cmdwRead 62#6 31#5) := by decide

theorem witness_CommandWordFields : Config.Params.default.wellFormed = true := by decide

theorem witness_OpwWriteAcceptedOrRefused :
    (at_ (.rxPoll (.readOwn 0#32))).seq ≠ .idle ∧ State.reset.seq = .idle ∧ (16#32).toNat ≥ 16 ∧
    (1#32).toNat < 16 ∧ 1#32 ≠ 0#32 ∧ 1#32 ≠ 7#32 ∧ 1#32 ≠ 15#32 ∧ (14#32).toNat < 16 ∧ 14#32 ≠ 15#32 := by decide

theorem witness_HostWritesOnlyThePort :
    State.reset.seq = .idle ∧ (at_ (.phyResetHook 0#6)).seq ≠ .idle ∧
    (16 : Fin 27) ∉ ([8, 9, 10, 11, 25] : List (Fin 27)) ∧
    (26 : Fin 27) ∉ ([8, 9, 10, 11, 25] : List (Fin 27)) := by decide

theorem witness_HostReadHasNoEffect :
    ({ at_ (.rxPoll (.readOwn 0#32)) with agenda := [.hostRead 16] } : State).agenda = .hostRead 16 :: [] := by decide

theorem witness_SetUpRefusals :
    State.reset.seq = .idle ∧ State.reset.phyValid = false ∧ State.reset.txValid = false ∧
    State.reset.rxValid = false ∧ ((ring 0#32 0#32).setReg .arg1 16384#32).txValid = true ∧
    16383 < (((ring 0#32 0#32).setReg .arg1 16384#32).reg .arg1).toNat ∧ (slot 0#32 0#32).rxValid = true := by decide

theorem witness_ResetAllows :
    (62#32).toNat ≤ 62 ∧ (31#32).toNat ≤ 31 ∧ (0xFFFF#32).toNat ≤ 0xFFFF ∧ 1#32 ≠ 0#32 ∧
    (0xFFFFFFEC#32).toNat % 4 = 0 ∧ (0xFFFFFFEC#32).toNat + 16 * (pow2Floor 1#32).toNat < 2 ^ 32 ∧
    (0xFFFFFFEC#32).toNat + 16 < 2 ^ 32 := by decide

theorem witness_MdioReadReturnsTheAnswer :
    let s : State := { (args 62#32 31#32 0#32).setReg .cfg 1#32 with hookAnswers := [.ok, .ok, .fail 9#32] }
    s.params.wellFormed = true ∧ s.seq = .idle ∧ s.busy = false ∧ s.reg .arg0 = (62#6 : PhyAddr).setWidth 32 ∧
    s.reg .arg1 = (31#5 : RegAddr).setWidth 32 ∧ AddressOk 62#6 ∧ HookAllows s 2 [.fail 9#32] := by
  unfold AddressOk HookAllows
  decide

theorem witness_MdioWriteReachesThePhy :
    let s : State := { args 62#32 31#32 0xFFFF#32 with hookAnswers := [] }
    s.params.wellFormed = true ∧ s.seq = .idle ∧ s.busy = false ∧ s.reg .arg0 = (62#6 : PhyAddr).setWidth 32 ∧
    s.reg .arg1 = (31#5 : RegAddr).setWidth 32 ∧ s.reg .arg2 = (0xFFFF#16 : Data16).setWidth 32 ∧ AddressOk 62#6 ∧
    HookAllows s 3 [] := by
  unfold AddressOk HookAllows
  decide

theorem witness_WriteThenReadRoundTrip :
    let s : State := { args 62#32 31#32 0x01E1#32 with present := [62] }
    s.params.wellFormed = true ∧ s.seq = .idle ∧ s.busy = false ∧ s.reg .arg0 = (62#6 : PhyAddr).setWidth 32 ∧
    s.reg .arg1 = (31#5 : RegAddr).setWidth 32 ∧ s.reg .arg2 = (0x01E1#16 : Data16).setWidth 32 ∧ AddressOk 62#6 ∧
    s.isPresent 62#6 = true := by
  unfold AddressOk
  decide

/-- The boundary on either side of each range of R144. -/
theorem witness_MdioOperandRanges :
    (args 63#32 31#32 0#32).seq = .idle ∧ (args 62#32 31#32 0xFFFF#32).busy = false ∧
    62 < ((args 63#32 31#32 0#32).reg .arg0).toNat ∧
    31 < ((args 62#32 32#32 0#32).reg .arg1).toNat ∧ 0xFFFF < ((args 62#32 31#32 0x10000#32).reg .arg2).toNat ∧
    ¬ (62 < ((args 62#32 31#32 0xFFFF#32).reg .arg0).toNat ∨ 31 < ((args 62#32 31#32 0xFFFF#32).reg .arg1).toNat) ∧
    ¬ 0xFFFF < ((args 62#32 31#32 0xFFFF#32).reg .arg2).toNat := by decide

/-- At a nested write, and at the start of the operations that use MDIO. -/
theorem witness_CommandWhileBusyIsRefused :
    let s := (cmd 0x00A2000D#32).goto (.phyDetect 62#6 (.writeCmd 62#6 2#5 0b11#2))
    let u := (((args 62#32 31#32 0xFFFF#32).setReg .mdioCmd 0x00A2000D#32).setReg .phyaddr 0x80000005#32)
    (s.busy = true ∧ transactionOf s.seq = some (.writeCmd 62#6 2#5 0b11#2) ∧
      mdioTarget (.writeCmd 62#6 2#5 0b11#2) = some 62#6 ∧ AddressOk 62#6) ∧
    (u.busy = true ∧ u.seq = .idle ∧ (u.reg .arg0).toNat ≤ 62 ∧ (u.reg .arg1).toNat ≤ 31 ∧
      (u.reg .arg2).toNat ≤ 0xFFFF ∧ u.phyValid = true) := by
  unfold AddressOk
  decide

theorem witness_PollLoopSpinsUnbounded :
    let s := (cmd 0x00A2000D#32).goto (.phyLinkFirst 5#6 (.poll 0b11#2))
    transactionOf s.seq = some (.poll 0b11#2) ∧ s.busy = true ∧ s.hookEn = false := by decide

theorem witness_OneHookCallPerBusyPoll :
    let s : State := { ((cmd 0x00A2000D#32).setReg .cfg 1#32).goto (.mdioRead (.poll 0b11#2)) with
      hookAnswers := [.ok, .ok, .ok, .fail 1#32] }
    transactionOf s.seq = some (.poll 0b11#2) ∧ s.busy = true ∧ s.hookEn = true ∧
    s.hookAnswers = List.replicate 3 .ok ++ [.fail 1#32] := by decide

theorem witness_HookFailureEndsTheOperation :
    let s : State := { (cmd 0x00A2000D#32).goto (.mdioRead (.hook 0b11#2)) with hookAnswers := [.fail 0x2A#32] }
    let u : State := { at_ (.phyResetHook 5#6) with hookAnswers := [.fail 7#32, .ok] }
    (s.seq ∈ ([.mdioRead (.hook 0b11#2), .mdioWrite (.hook 0b11#2), .phyLinkFirst 5#6 (.hook 0b11#2),
      .phyLinkSecond 5#6 (.hook 0b11#2), .phyResetWrite 5#6 (.hook 0b11#2), .phyResetHook 5#6] : List Seq) ∧
      s.hookAnswers = .fail 0x2A#32 :: []) ∧
    (u.seq ∈ ([.mdioRead (.hook 0b01#2), .mdioWrite (.hook 0b01#2), .phyLinkFirst 5#6 (.hook 0b01#2),
      .phyLinkSecond 5#6 (.hook 0b01#2), .phyResetWrite 5#6 (.hook 0b01#2), .phyResetHook 5#6] : List Seq) ∧
      u.hookAnswers = .fail 7#32 :: [.ok]) := by decide

theorem witness_BusCompletesRead : (cmd 0x07DF000D#32).inFlight 62#6 31#5 0b11#2 = true ∧ AddressOk 62#6 := by
  unfold AddressOk
  decide

theorem witness_BusCompletesWrite : (cmd 0x07DF0005#32).inFlight 62#6 31#5 0b01#2 = true ∧ AddressOk 62#6 := by
  unfold AddressOk
  decide

theorem witness_AbsentDeviceAnswersAllOnes :
    (cmd 0x0121000D#32).isPresent 9#6 = false ∧ AddressOk 9#6 ∧
    (cmd 0x0121000D#32).inFlight 9#6 1#5 0b11#2 = true ∧ (cmd 0x01210005#32).inFlight 9#6 1#5 0b01#2 = true := by
  unfold AddressOk
  decide

/-- One step that sets BUSY and one that clears it, from states that meet the invariant. -/
theorem witness_BusyFlagLife :
    let s := at_ (.mdioRead (.writeCmd 5#6 2#5 0b11#2))
    let u : State := { cmd 0x00A2000D#32 with agenda := [.bus] }
    (TransactionInv s ∧ (step s matches .next _) = true ∧ s.busy = false ∧
      after (step s) State.busy = some true) ∧
    (TransactionInv u ∧ u.busy = true ∧ after (step u) State.busy = some false) :=
  ⟨⟨⟨fun h => absurd h (by decide), rfl⟩, by decide, by decide, by decide⟩,
    ⟨fun h => absurd h (by decide), trivial⟩, by decide, by decide⟩

theorem witness_SetaddrStoresTheAddress :
    (args 62#32 0#32 0#32).seq = .idle ∧ ((args 62#32 0#32 0#32).reg .arg0).toNat ≤ 62 ∧
    62 < ((args 63#32 0#32 0#32).reg .arg0).toNat := by decide

/-- Addresses 0 to 4 answer 0xFFFF, address 5 something else (the example of R176). -/
theorem witness_DetectFindsTheLowestAnswering :
    withPhy.params.wellFormed = true ∧ withPhy.seq = .idle ∧ withPhy.busy = false ∧ AddressOk 5#6 ∧
    (∀ b : PhyAddr, b.toNat < (5#6 : PhyAddr).toNat → AnswersAllOnes withPhy b withPhy.params.idIdx) ∧
    withPhy.isPresent 5#6 = true ∧
    Assoc.lookup (phyKey 5#6 withPhy.params.idIdx) withPhy.phyRegs = some 0x0007#16 ∧ 0x0007#16 ≠ 0xFFFF#16 := by
  unfold AddressOk AnswersAllOnes
  decide

theorem witness_DetectNotFound :
    let s : State := { State.reset with present := [7], phyRegs := [(32 * 7 + 2, 0xFFFF#16)] }
    s.params.wellFormed = true ∧ s.seq = .idle ∧ s.busy = false ∧
    (∀ b : PhyAddr, AddressOk b → AnswersAllOnes s b s.params.idIdx) := by
  unfold AddressOk AnswersAllOnes
  decide

theorem witness_SwallowedReadFailures :
    let s : State := { at_ (.phyDetect 62#6 (.hook 0b11#2)) with hookAnswers := [.fail 9#32] }
    let u : State := { at_ (.phyResetRead 62#6 (.hook 0b11#2)) with hookAnswers := [.fail 9#32] }
    (s.hookAnswers = .fail 9#32 :: [] ∧ s.seq = .phyDetect 62#6 (.hook 0b11#2)) ∧
    (u.hookAnswers = .fail 9#32 :: [] ∧ u.seq = .phyResetRead 62#6 (.hook 0b11#2)) := by decide

theorem witness_ResetPollsUntilCleared :
    let s : State := { withPhy.setReg .cfg 1#32 with hookAnswers := [.ok, .ok] }
    s.params.wellFormed = true ∧ s.seq = .idle ∧ s.busy = false ∧ s.phyValid = true ∧ AddressOk s.phyAddr ∧
    s.isPresent s.phyAddr = true ∧ HookAllows s 2 [] ∧ (0x3100#16).getLsbD s.params.bcrResetBit = false := by
  unfold AddressOk HookAllows
  decide

theorem witness_LinkDownMakesOneRead :
    let s : State := { withPhy with phyRegs := [(32 * 5 + 1, 0xFFFB#16)] }
    s.params.wellFormed = true ∧ s.seq = .idle ∧ s.busy = false ∧ s.phyValid = true ∧ AddressOk s.phyAddr ∧
    ((s.phyRead s.phyAddr s.params.bsrIdx).1).getLsbD s.params.bsrLinkBit = false := by
  unfold AddressOk
  decide

theorem witness_LinkUpDecodesTheCode :
    let s : State := { withPhy with phyRegs := [(32 * 5 + 1, 0x0004#16), (32 * 5 + 31, 0x1018#16)] }
    s.params.wellFormed = true ∧ s.seq = .idle ∧ s.busy = false ∧ s.phyValid = true ∧ AddressOk s.phyAddr ∧
    (s.phyRead s.phyAddr s.params.bsrIdx).1 = 0x0004#16 ∧
    (((s.phyRead s.phyAddr s.params.bsrIdx).2).phyRead s.phyAddr s.params.lsSecondReg).1 = 0x1018#16 ∧
    (0x0004#16).getLsbD s.params.bsrLinkBit = true := by
  unfold AddressOk
  decide

theorem witness_PowerOfTwoFloor :
    1#32 ≠ 0#32 ∧ (args 0#32 0#32 0#32).seq = .idle ∧ (args 0#32 0#32 0#32).reg .arg1 = 0#32 := by decide

/-- One state for each of the four outcomes, at the boundary of the address space. -/
theorem witness_SetdescProgramsTheRing :
    let s := args 0#32 0#32 0#32
    s.seq = .idle ∧ s.reg .arg1 = 0#32 ∧ (2#32).toNat % s.params.descAlign ≠ 0 ∧
    2 ^ s.params.addrW ≤ (0xFFFFFFF0#32).toNat + s.params.descSpan * (pow2Floor 1#32).toNat ∧
    ¬ 2 ^ s.params.addrW ≤ (0xFFFFFFEC#32).toNat + s.params.descSpan * (pow2Floor 1#32).toNat ∧
    (0xFFFFFFEC#32).toNat % s.params.descAlign = 0 := by decide

/-- The four-slot ring, with `tail - cur` from 0 to 4 slots outstanding, is set as R50 says. -/
theorem ring_set (tail cur : Word) (h : (tail - cur).toNat ≤ 4) : RingSet (ring tail cur) :=
  ⟨⟨show descAligned .default 0x20000000#32 = true by decide,
      show fitsBelow .default 0x20000000#32 4#32 = true by decide, 2, by decide, rfl⟩,
    show (3#32 : Word) = 4#32 - 1#32 by decide, rfl, rfl, tail.isLt, cur.isLt,
    fun _ => show (truncTo 32 (tail - cur)).toNat ≤ 4 by simpa [truncTo] using h⟩

/-- The same ring on a part with 16-bit indices, 20-bit addresses and 64-byte descriptors, whose tail pointer wraps. -/
def narrowRing : State :=
  { (((((ring 0xFFFF#32 0xFFFE#32).setReg .txBase 0x20000#32).setReg .txRingBase 0x20000#32).setReg .arg1
      16383#32) : State) with
    params := { idxW := 16, addrW := 20, descSpan := 64, descAlign := 64, txTailWrap := true } }

theorem narrowRing_set : RingSet narrowRing :=
  ⟨⟨by decide, by decide, 2, by decide, by decide⟩, by decide, by decide, by decide, by decide, by decide, by decide⟩

theorem witness_PutHandsTheSlotOver :
    let s := (ring 4#32 3#32).setReg .arg1 16383#32
    let u := narrowRing
    (s.params.wellFormed = true ∧ s.seq = .idle ∧ s.txValid = true ∧ RingSet s ∧ (s.reg .arg1).toNat ≤ 16383 ∧
      own (s.word (ctlAddress s (s.reg .txTail))) = false ∧ s.ringFull = false) ∧
    (u.params.wellFormed = true ∧ u.seq = .idle ∧ u.txValid = true ∧ RingSet u ∧ (u.reg .arg1).toNat ≤ 16383 ∧
      own (u.word (ctlAddress u (u.reg .txTail))) = false ∧ u.ringFull = false) :=
  ⟨⟨by decide, by decide, by decide, ring_set 4#32 3#32 (by decide), by decide, by decide, by decide⟩,
    by decide, by decide, by decide, narrowRing_set, by decide, by decide, by decide⟩

/-- A full ring whose next slot is free, and one whose next slot is still owned. -/
theorem witness_PutSignals :
    let s := ring 4#32 0#32
    let u := (ring 4#32 0#32).setWord 0x2000000C#32 0xB0000000#32
    (s.params.wellFormed = true ∧ s.seq = .idle ∧ s.txValid = true ∧ RingSet s ∧ (s.reg .arg1).toNat ≤ 16383 ∧
      own (s.word (ctlAddress s (s.reg .txTail))) = false ∧ 1 < (s.reg .txN).toNat ∧ s.txPending = s.reg .txN) ∧
    (u.params.wellFormed = true ∧ u.seq = .idle ∧ u.txValid = true ∧ RingSet u ∧ (u.reg .arg1).toNat ≤ 16383 ∧
      own (u.word (ctlAddress u (u.reg .txTail))) = true) :=
  ⟨⟨by decide, by decide, by decide, ring_set 4#32 0#32 (by decide), by decide, by decide, by decide, by decide⟩,
    by decide, by decide, by decide, ring_set 4#32 0#32 (by decide), by decide, by decide⟩

/-- The last slot, with and without the wrap of the tail pointer. -/
theorem witness_PutTailPointer :
    let s := (ring 3#32 3#32).goto (.txPut (.ptrBase 3#32 0x20000030#32 false) 0#32 64#32)
    let u := narrowRing.goto (.txPut (.ptrN 3#32 0x200C0#32) 0#32 64#32)
    (s.params.wellFormed = true ∧ s.params.txTailWrap = false ∧
      s.seq = .txPut (if s.params.txTailWrap then .ptrN 3#32 0x20000030#32 else .ptrBase 3#32 0x20000030#32 false)
        0#32 64#32) ∧
    (u.params.wellFormed = true ∧ u.params.txTailWrap = true ∧ 3#32 + 1#32 = u.reg .txN ∧
      u.seq = .txPut (if u.params.txTailWrap then .ptrN 3#32 0x200C0#32 else .ptrBase 3#32 0x200C0#32 false)
        0#32 64#32) := by decide

/-- Two slots submitted, the first done and the second still owned; and the empty ring. -/
theorem witness_UpdateReclaimsInOrder :
    let s := (ring 1#32 0xFFFFFFFF#32).setWord 0x2000000C#32 0xB0000000#32
    let u := ring 7#32 7#32
    (s.params.wellFormed = true ∧ s.seq = .idle ∧ s.txValid = true ∧ RingSet s ∧ 1 ≤ s.txPending.toNat ∧
      (∀ j < 1, own (s.word (ctlAddress s (s.reg .txCur + BitVec.ofNat 32 j))) = false) ∧
      (1 < s.txPending.toNat → own (s.word (ctlAddress s (s.reg .txCur + BitVec.ofNat 32 1))) = true)) ∧
    (u.params.wellFormed = true ∧ u.seq = .idle ∧ u.txValid = true ∧ RingSet u ∧ u.txPending.toNat = 0) :=
  ⟨⟨by decide, by decide, by decide, ring_set 1#32 0xFFFFFFFF#32 (by decide), by decide, by decide, by decide⟩,
    by decide, by decide, by decide, ring_set 7#32 7#32 (by decide), by decide⟩

theorem witness_PutDoneUpdateEmptiesTheRing :
    let s := (ring 3#32 3#32).setReg .arg1 16383#32
    s.params.wellFormed = true ∧ s.seq = .idle ∧ s.txValid = true ∧ RingSet s ∧ (s.reg .arg1).toNat ≤ 16383 ∧
    s.reg .txCur = s.reg .txTail ∧ own (s.word (ctlAddress s (s.reg .txTail))) = false :=
  ⟨by decide, by decide, by decide, ring_set 3#32 3#32 (by decide), by decide, by decide, by decide⟩

/-- One state for each of the four outcomes, at the boundary of the address space. -/
theorem witness_ArmSetsUpTheSlot :
    let s := args 0xFFFFFFEC#32 0#32 0#32
    s.params.wellFormed = true ∧ s.seq = .idle ∧ (slot 0#32 0#32).rxValid = true ∧ s.rxValid = false ∧
    (0xFFFFFFEF#32).toNat % s.params.descAlign ≠ 0 ∧
    2 ^ s.params.addrW ≤ (0xFFFFFFF0#32).toNat + s.params.descSpan ∧
    ¬ 2 ^ s.params.addrW ≤ (s.reg .arg0).toNat + s.params.descSpan ∧
    (s.reg .arg0).toNat % s.params.descAlign = 0 := by decide

theorem slot_set (w2 w3 : Word) : SlotSet (slot w2 w3) := 
  ⟨⟨show descAligned .default 0x20000100#32 = true by decide,
      show fitsBelow .default 0x20000100#32 1#32 = true by decide⟩,
    rfl⟩

theorem witness_PollReportsTheFrame :
    let s := slot 0x3FFF0000#32 0x01000000#32
    let u := slot 0#32 0x81000000#32
    (s.params.wellFormed = true ∧ s.seq = .idle ∧ s.rxValid = true ∧ SlotSet s ∧
      own (s.word (s.reg .rxDesc + 12#32)) = false) ∧
    (u.params.wellFormed = true ∧ u.seq = .idle ∧ u.rxValid = true ∧ SlotSet u ∧
      own (u.word (u.reg .rxDesc + 12#32)) = true) :=
  ⟨⟨by decide, by decide, by decide, slot_set _ _, by decide⟩,
    by decide, by decide, by decide, slot_set _ _, by decide⟩

theorem witness_RearmGivesTheSlotBack :
    let s := slot 0x3FFF0000#32 0x7FFFFFFF#32
    let u := slot 0#32 0x80000000#32
    (s.params.wellFormed = true ∧ s.seq = .idle ∧ s.rxValid = true ∧ SlotSet s ∧
      own (s.word (s.reg .rxDesc + 12#32)) = false) ∧
    (u.params.wellFormed = true ∧ u.seq = .idle ∧ u.rxValid = true ∧ SlotSet u ∧
      own (u.word (u.reg .rxDesc + 12#32)) = true) :=
  ⟨⟨by decide, by decide, by decide, slot_set _ _, by decide⟩,
    by decide, by decide, by decide, slot_set _ _, by decide⟩

theorem witness_ReceiveEndToEnd :
    let s := args 0x20000100#32 0x20002000#32 0#32
    s.params.wellFormed = true ∧ s.seq = .idle ∧ s.rxValid = false ∧ SlotGeometry s.params (s.reg .arg0) ∧
    16383 ≤ 16383 := by
  unfold SlotGeometry
  decide

theorem witness_SwresetWaitsForDma : (ring 2#32 1#32).seq = .idle := by decide

/-- Slot 3, the last of the ring, granted and owned; the same slot not granted; and slot 4, outside it. -/
theorem witness_TxDoneClearsOwnOnly :
    let s := ((ring 4#32 3#32).setWord 0x2000003C#32 0xB0000000#32).grantTx 0x2000003C#32
    let d := s.reg .txRingBase + BitVec.ofNat 32 s.params.descSpan * 3#32
    s.params.wellFormed = true ∧ descAligned s.params (s.reg .txRingBase) = true ∧
    (s.reg .txRingBase).toNat + s.params.descSpan * ((s.reg .txRingLen).toNat + 1) < 2 ^ s.params.addrW ∧
    (3#32).toNat < (s.reg .txRingLen).toNat + 1 ∧ s.isGrantedTx (d + 12#32) = true ∧
    own (s.word (d + 12#32)) = true ∧ (ring 4#32 3#32).isGrantedTx 0x2000003C#32 = false ∧
    ¬ (4#32).toNat < (s.reg .txRingLen).toNat + 1 := by decide

/-- The longest frame and one byte more, and a slot that is not granted. -/
theorem witness_RxFrameWritesLengthAndOwn :
    let s := (slot 0xFFFFFFFF#32 0x81000000#32).grantRx 0x2000010C#32
    let u := slot 0#32 0x81000000#32
    (s.params.wellFormed = true ∧ SlotGeometry s.params (s.reg .rxRingBase) ∧ 16383 ≤ 16383 ∧
      s.isGrantedRx (s.reg .rxRingBase + 12#32) = true ∧ own (s.word (s.reg .rxRingBase + 12#32)) = true) ∧
    ¬ 16384 ≤ 16383 ∧ u.isGrantedRx (u.reg .rxRingBase + 12#32) = false := by
  unfold SlotGeometry
  decide

theorem witness_SwrDoneForgetsTailPointers :
    (State.reset.setReg .dmaCtrl 1#32).swr = true ∧ State.reset.swr = false := by decide

theorem witness_RaiseEndsTheOperation :
    let s := at_ (.ending .mdioRead (.raise (.hookFail 0x2A#32)))
    s.seq = .ending .mdioRead (.raise (.hookFail 0x2A#32)) ∧ Instr.mdioRead.format = .opw := by decide

theorem witness_ReturnWritesResults :
    let s := at_ (.ending .txUpdate (.ret (some 1#32) (some 0#32)))
    s.seq = .ending .txUpdate (.ret (some 1#32) (some 0#32)) ∧ Instr.txUpdate.format = .opw := by decide

/-- A step inside an operation and the step that ends one, from states that meet the invariant. -/
theorem witness_RegisterFrame :
    let s := at_ (.mdioWrite (.writeData 5#6 0#5 0x8000#16))
    let u := at_ (.ending .mdioWrite (.ret none none))
    (TransactionInv s ∧ (exec .mdioWrite s matches .next _) = true) ∧
    (TransactionInv u ∧ (exec .mdioWrite u matches .next _) = true) :=
  ⟨⟨⟨fun h => absurd h (by decide), rfl⟩, by decide⟩, ⟨fun h => absurd h (by decide), rfl⟩, by decide⟩

/-- A step that stores a word and one that stores none. -/
theorem witness_MemoryFrame :
    let s := at_ (.rxArm .memCtl 0x20000100#32 0x20002000#32)
    let u := (slot 0#32 0#32).goto (.rxPoll (.readLen 0x20000100#32))
    ((exec .rxArm s matches .next _) = true ∧ storeAddress s = some 0x2000010C#32) ∧
    ((exec .rxPoll u matches .next _) = true ∧ storeAddress u = none) := by decide

theorem witness_OutsideFrame :
    (exec .txPut ((ring 3#32 0#32).goto (.txPut (.writeTailPtr 3#32 0x20000030#32 0x20000040#32) 0#32 0#32))
      matches .next _) = true ∧
    (exec (.cmdwRead 62#6 31#5) (cmd 0x07DF000D#32) matches .next _) = true := by decide

/-- A store into memory from a canonical state. -/
theorem witness_CanonicalFormsAreKept :
    let s := at_ (.rxArm .memCtl 0x20000100#32 0x20002000#32)
    CanonicalInv s ∧ (step s matches .next _) = true := by
  unfold CanonicalInv
  decide

/-- The step that ends an operation, and a command write over a word that BUS has completed. -/
theorem witness_RegisterFormatsAreKept :
    let s := at_ (.ending .rxPoll (.raise .notReady))
    let u := (cmd 0x07DF000C#32).goto (.mdioRead (.writeCmd 62#6 31#5 0b11#2))
    (RegisterFormatInv s ∧ (step s matches .next _) = true) ∧
    (RegisterFormatInv u ∧ (step u matches .next _) = true) := by
  unfold RegisterFormatInv
  decide

/-- The tail pointer write and the last access of a TX.PUT on a ring with one slot outstanding. -/
theorem witness_TxRingInvariantIsKept :
    let s := (ring 4#32 3#32).goto (.txPut (.writeTailPtr 0#32 0x20000000#32 0x20000010#32) 0x20001000#32 64#32)
    let u := (ring 4#32 3#32).goto (.txPut (.writeTail 0#32 0x20000000#32 5#32) 0x20001000#32 64#32)
    (TxRingInv s ∧ (step s matches .next _) = true) ∧ (TxRingInv u ∧ (step u matches .next _) = true) :=
  ⟨⟨⟨by decide, by decide, ring_set 4#32 3#32 (by decide), by decide,
      ⟨⟨by decide, by decide⟩, by decide, by decide⟩, by decide⟩, by decide⟩,
    ⟨by decide, by decide, ring_set 4#32 3#32 (by decide), by decide, ⟨by decide, by decide⟩, by decide, by decide⟩,
    by decide⟩

/-- A re-arm before its tail pointer write, an RX.ARM at its own, and one past it. -/
theorem witness_RxSlotInvariantIsKept :
    let s := (slot 0x003C0000#32 0x81000000#32).goto (.rxRearm (.writeTailPtr 0x20000100#32 0x20000110#32))
    let u := ((slot 0#32 0x81000000#32).setReg .init 0#32).goto (.rxArm .tailPtr 0x20000100#32 0x20002000#32)
    let v := ((slot 0#32 0x81000000#32).setReg .init 0#32).goto (.rxArm .valid 0x20000100#32 0x20002000#32)
    (RxSlotInv s ∧ (step s matches .next _) = true) ∧ (RxSlotInv u ∧ (step u matches .next _) = true) ∧
    (RxSlotInv v ∧ (step v matches .next _) = true) :=
  ⟨⟨⟨by decide, by decide, slot_set 0x003C0000#32 0x81000000#32, by decide, by decide⟩, by decide⟩,
    ⟨⟨by decide, by decide, ⟨by decide, by decide⟩, by decide, by decide, by decide, by decide, by decide⟩, by decide⟩,
    ⟨by decide, by decide, ⟨by decide, by decide⟩, by decide, by decide, by decide, by decide, by decide⟩, by decide⟩

theorem witness_SwrInvariantIsKept :
    let s : State := { (at_ (.dmaSwreset .poll)).setReg .dmaCtrl 1#32 with agenda := [.dmaSwrDone] }
    SwrInv s ∧ s.swr = true ∧ (step s matches .next _) = true := by
  unfold SwrInv
  decide

theorem witness_TransactionInvariantIsKept :
    let s := withPhy.goto (.phyDetect 61#6 (.hook 0b11#2))
    TransactionInv { s with hookAnswers := [.fail 1#32] } ∧
    (step { s with hookAnswers := [.fail 1#32] } matches .next _) = true :=
  ⟨⟨fun _ => show _ ≤ _ by decide, show _ ≤ _ by decide, rfl⟩, by decide⟩

/-- A state in which SEQ goes on, one in which the command write falls on a busy engine, and one in which a re-arm
finds the descriptor owned. -/
theorem witness_SequencerStepsOrIsRefused :
    let s := (cmd 0x00A2000D#32).goto (.mdioRead (.writeCmd 5#6 2#5 0b11#2))
    let u := (slot 0#32 0x81000000#32).goto (.rxRearm (.readOwn 0x20000100#32))
    (TxRingInv s ∧ RxSlotInv s ∧ TransactionInv s ∧ why (seqTurn s) = some .commandWhileBusy) ∧
    (TxRingInv u ∧ RxSlotInv u ∧ TransactionInv u ∧ why (seqTurn u) = some .descriptorDmaOwned) :=
  ⟨⟨⟨by decide, fun h => absurd h (by decide)⟩, ⟨by decide, fun h => absurd h (by decide)⟩,
      ⟨fun h => absurd h (by decide), rfl⟩, by decide⟩,
    ⟨by decide, fun h => absurd h (by decide)⟩, ⟨by decide, by decide, slot_set 0#32 0x81000000#32, by rfl⟩,
    ⟨fun h => absurd h (by decide), trivial⟩, by decide⟩

end Sys2Proof.Tests
end

section
/-! What an instruction leaves unchanged outside the block's registers and memory (R3, R170): the PHYs, the parameters,
the agenda and DMA's position. -/

namespace Sys2Proof.Machine

/-! ### Steps that touch nothing around the block -/

/-- The PHYs, the parameters, the agenda and DMA's position are as before. -/
def KeepsAround (s t : State) : Prop := KeepsOutside s t ∧ KeepsGrants s t

@[simp] theorem keepsAround_refl (s : State) : KeepsAround s s := ⟨⟨rfl, rfl, rfl, rfl⟩, rfl, rfl⟩
@[simp] theorem keepsAround_goto {s t : State} {q : Seq} : KeepsAround s (t.goto q) ↔ KeepsAround s t := Iff.rfl
@[simp] theorem keepsAround_setReg {s t : State} {r : Reg} {v : Word} :
    KeepsAround s (t.setReg r v) ↔ KeepsAround s t := Iff.rfl
@[simp] theorem keepsAround_endOperation {s t : State} {c : Word} {x y z : Option Word} :
    KeepsAround s (t.endOperation c x y z) ↔ KeepsAround s t := Iff.rfl
@[simp] theorem keepsAround_hooked {s t : State} {l : List Config.HookAnswer} {d : Nat} :
    KeepsAround s (t.hooked l d) ↔ KeepsAround s t := Iff.rfl
@[simp] theorem hooked_keepsAround {s t : State} {l : List Config.HookAnswer} {d : Nat} :
    KeepsAround (s.hooked l d) t ↔ KeepsAround s t := Iff.rfl

theorem finish_keepsAround {e : Ending} {s t : State} (h : finish e s = .next t) : KeepsAround s t := by
  rcases finish_cases h with ⟨x, y, -, rfl⟩ | ⟨k, -, rfl⟩ <;> simp

theorem toReturn_keepsAround {i : Instr} {x y : Option Word} {s t : State} (h : toReturn i x y s = .next t) :
    KeepsAround s t := by
  obtain rfl := next_eq_next.1 h
  simp

theorem toRaise_keepsAround {i : Instr} {k : Raise} {s t : State} (h : toRaise i k s = .next t) :
    KeepsAround s t := by
  obtain rfl := next_eq_next.1 h
  simp

/-- A transaction's step touches nothing around the block where what the operation does with the value and with the
failure does not: the PHY register view changes by BUS's completion alone (R155). -/
theorem inTransaction_keepsAround {m : MdioPos} {s t : State} {at_ : MdioPos → Seq} {done : Data16 → State → Result}
    {failed : Word → State → Result} (h : inTransaction m s at_ done failed = .next t)
    (hdone : ∀ v s' t', done v s' = .next t' → KeepsAround s' t')
    (hfailed : ∀ e s' t', failed e s' = .next t' → KeepsAround s' t') : KeepsAround s t := by
  rcases inTransaction_cases h with ⟨p, r, v, -, -, -, rfl⟩ | ⟨p, r, o, -, -, -, rfl⟩ | ⟨o, -, -, rfl⟩ |
    ⟨o, -, rfl⟩ | ⟨-, -, rfl⟩ | ⟨o, l, d, -, rfl⟩ | ⟨v, -, h⟩ | ⟨o, e, l, d, -, h⟩
  · simp
  · simp
  · simp
  · simp
  · simp
  · simp
  · exact hdone v s t h
  · exact hooked_keepsAround.1 (hfailed e _ t h)

/-! ### The operations that touch nothing around the block -/

theorem execMdioRead_keepsAround {s t : State} (h : execMdioRead s = .next t) : KeepsAround s t := by
  rcases execMdioRead_next h with ⟨-, -, -, rfl⟩ | ⟨m, -, h⟩ | ⟨e, -, h⟩
  · simp
  · exact inTransaction_keepsAround h (fun _ _ _ => toReturn_keepsAround) fun _ _ _ => toRaise_keepsAround
  · exact finish_keepsAround h

theorem execMdioWrite_keepsAround {s t : State} (h : execMdioWrite s = .next t) : KeepsAround s t := by
  rcases execMdioWrite_next h with ⟨-, -, -, rfl⟩ | ⟨m, -, h⟩ | ⟨e, -, h⟩
  · simp
  · exact inTransaction_keepsAround h (fun _ _ _ => toReturn_keepsAround) fun _ _ _ => toRaise_keepsAround
  · exact finish_keepsAround h

theorem execPhySetaddr_keepsAround {s t : State} (h : execPhySetaddr s = .next t) : KeepsAround s t := by
  rcases execPhySetaddr_next h with ⟨-, -, rfl⟩ | ⟨a, -, rfl⟩ | ⟨e, -, h⟩
  · simp
  · simp
  · exact finish_keepsAround h

theorem detectSkip_keepsAround {a : PhyAddr} {s t : State} (h : detectSkip a s = .next t) : KeepsAround s t := by
  rcases detectSkip_next h with ⟨-, rfl⟩ | ⟨-, rfl⟩ <;> simp

theorem execPhyDetect_keepsAround {s t : State} (h : execPhyDetect s = .next t) : KeepsAround s t := by
  rcases execPhyDetect_next h with ⟨-, -, rfl⟩ | ⟨a, m, -, h⟩ | ⟨a, -, rfl⟩ | ⟨e, -, h⟩
  · simp
  · refine inTransaction_keepsAround h (fun v s' t' h => ?_) fun _ _ _ => detectSkip_keepsAround
    split at h
    · obtain rfl := next_eq_next.1 h
      simp
    · exact detectSkip_keepsAround h
  · simp
  · exact finish_keepsAround h

theorem resetPoll_keepsAround {p : PhyAddr} {s t : State} (h : resetPoll p s = .next t) : KeepsAround s t := by
  obtain rfl := next_eq_next.1 h
  simp

theorem resetNotDone_keepsAround {p : PhyAddr} {s t : State} (h : resetNotDone p s = .next t) :
    KeepsAround s t := by
  obtain rfl := next_eq_next.1 h
  simp

theorem execPhyReset_keepsAround {s t : State} (h : execPhyReset s = .next t) : KeepsAround s t := by
  rcases execPhyReset_next h with ⟨-, -, -, rfl⟩ | ⟨-, rfl⟩ | ⟨p, m, -, h⟩ | ⟨p, m, -, h⟩ | ⟨p, -, rfl⟩ |
    ⟨p, l, d, -, rfl⟩ | ⟨p, e, l, d, -, rfl⟩ | ⟨e, -, h⟩
  · simp
  · simp
  · exact inTransaction_keepsAround h (fun _ _ _ => resetPoll_keepsAround) fun _ _ _ => toRaise_keepsAround
  · refine inTransaction_keepsAround h (fun v s' t' h => ?_) fun _ _ _ => resetNotDone_keepsAround
    split at h
    · exact resetNotDone_keepsAround h
    · exact toReturn_keepsAround h
  · simp
  · simp
  · simp
  · exact finish_keepsAround h

theorem execPhyLinkstatus_keepsAround {s t : State} (h : execPhyLinkstatus s = .next t) : KeepsAround s t := by
  rcases execPhyLinkstatus_next h with ⟨-, -, -, rfl⟩ | ⟨-, rfl⟩ | ⟨p, m, -, h⟩ | ⟨p, m, -, h⟩ | ⟨e, -, h⟩
  · simp
  · simp
  · refine inTransaction_keepsAround h (fun v s' t' h => ?_) fun _ _ _ => toRaise_keepsAround
    split at h
    · obtain rfl := next_eq_next.1 h
      simp
    · exact toReturn_keepsAround h
  · exact inTransaction_keepsAround h (fun _ _ _ => toReturn_keepsAround) fun _ _ _ => toRaise_keepsAround
  · exact finish_keepsAround h

theorem setdescStep_keepsAround {k : SetdescPos} {base n : Word} {s t : State}
    (h : setdescStep k base n s = .next t) : KeepsAround s t := by
  cases k <;> obtain rfl := next_eq_next.1 h <;> simp [State.setTxValid]

theorem execTxSetdesc_keepsAround {s t : State} (h : execTxSetdesc s = .next t) : KeepsAround s t := by
  rcases execTxSetdesc_next h with ⟨-, -, -, -, rfl⟩ | ⟨k, base, n, -, h⟩ | ⟨e, -, h⟩
  · simp
  · exact setdescStep_keepsAround h
  · exact finish_keepsAround h

theorem updateStep_keepsAround {k : UpdatePos} {s t : State} (h : updateStep k s = .next t) : KeepsAround s t := by
  rcases updateStep_next h with ⟨-, rfl⟩ | ⟨_, -, -, rfl⟩ | ⟨_, -, -, rfl⟩ | ⟨-, rfl⟩ | ⟨_, -, rfl⟩ | ⟨_, -, rfl⟩ |
    ⟨_, -, -, rfl⟩ | ⟨_, -, -, rfl⟩ | ⟨-, rfl⟩ | ⟨_, -, rfl⟩ | ⟨-, rfl⟩ | ⟨_, -, rfl⟩ | ⟨_, -, rfl⟩ |
    ⟨_, _, -, rfl⟩ <;> simp

theorem execTxUpdate_keepsAround {s t : State} (h : execTxUpdate s = .next t) : KeepsAround s t := by
  rcases execTxUpdate_next h with ⟨-, -, rfl⟩ | ⟨k, -, h⟩ | ⟨e, -, h⟩
  · simp
  · exact updateStep_keepsAround h
  · exact finish_keepsAround h

theorem pollStep_keepsAround {k : PollPos} {s t : State} (h : pollStep k s = .next t) : KeepsAround s t := by
  rcases pollStep_next h with ⟨-, rfl⟩ | ⟨d, -, -, rfl⟩ | ⟨d, -, -, rfl⟩ | ⟨d, -, rfl⟩ | ⟨len, -, rfl⟩ <;> simp

theorem execRxPoll_keepsAround {s t : State} (h : execRxPoll s = .next t) : KeepsAround s t := by
  rcases execRxPoll_next h with ⟨-, -, rfl⟩ | ⟨k, -, h⟩ | ⟨e, -, h⟩
  · simp
  · exact pollStep_keepsAround h
  · exact finish_keepsAround h

theorem execDmaSwreset_keepsAround {s t : State} (h : execDmaSwreset s = .next t) : KeepsAround s t := by
  rcases execDmaSwreset_next h with ⟨-, rfl⟩ | ⟨-, rfl⟩ | ⟨-, rfl⟩ | ⟨-, -, rfl⟩ | ⟨-, -, rfl⟩ | ⟨e, -, h⟩
  · simp
  · simp
  · simp
  · simp
  · simp
  · exact finish_keepsAround h

/-! ### The operations that move DMA's position (R222, R241) -/

/-- The PHYs, the parameters and the agenda are as before, and DMA may consume no further TX descriptor but the one
whose word 3 is `tx`, and fill no further RX descriptor but the one whose word 3 is `rx`. -/
def HandsOverAtMost (tx rx : Option Word) (s t : State) : Prop :=
  KeepsOutside s t ∧ (∀ a, t.isGrantedTx a = true → s.isGrantedTx a = true ∨ tx = some a) ∧
  (∀ a, t.isGrantedRx a = true → s.isGrantedRx a = true ∨ rx = some a)

theorem KeepsAround.handsOverAtMost {s t : State} (h : KeepsAround s t) (tx rx : Option Word) :
    HandsOverAtMost tx rx s t := by
  obtain ⟨hout, htx, hrx⟩ := h
  exact ⟨hout, fun a ha => .inl (State.isGrantedTx_congr htx a ▸ ha),
    fun a ha => .inl (State.isGrantedRx_congr hrx a ▸ ha)⟩

@[simp] theorem handsOverAtMost_refl (tx rx : Option Word) (s : State) : HandsOverAtMost tx rx s s :=
  (keepsAround_refl s).handsOverAtMost tx rx
@[simp] theorem handsOverAtMost_goto {tx rx : Option Word} {s t : State} {q : Seq} :
    HandsOverAtMost tx rx s (t.goto q) ↔ HandsOverAtMost tx rx s t := Iff.rfl
@[simp] theorem handsOverAtMost_setReg {tx rx : Option Word} {s t : State} {r : Reg} {v : Word} :
    HandsOverAtMost tx rx s (t.setReg r v) ↔ HandsOverAtMost tx rx s t := Iff.rfl

/-- A word write only ends grants. -/
@[simp] theorem handsOverAtMost_setWord (tx rx : Option Word) (s : State) (a v : Word) :
    HandsOverAtMost tx rx s (s.setWord a v) :=
  ⟨⟨rfl, rfl, rfl, rfl⟩, by simp +contextual, by simp +contextual⟩

/-- A TX tail pointer write hands over the one descriptor it names. -/
theorem handsOverAtMost_grantTx (rx : Option Word) (s : State) (r : Reg) (v a : Word) :
    HandsOverAtMost (some a) rx s ((s.setReg r v).grantTx a) := by
  refine ⟨⟨rfl, rfl, rfl, rfl⟩, fun b hb => ?_, by simp +contextual⟩
  rw [State.isGrantedTx_grantTx, Bool.or_eq_true, decide_eq_true_eq] at hb
  exact hb.symm.imp id fun h => congrArg some h.symm

/-- An RX tail pointer write hands over the one descriptor it names. -/
theorem handsOverAtMost_grantRx (tx : Option Word) (s : State) (r : Reg) (v a : Word) :
    HandsOverAtMost tx (some a) s ((s.setReg r v).grantRx a) := by
  refine ⟨⟨rfl, rfl, rfl, rfl⟩, by simp +contextual, fun b hb => ?_⟩
  rw [State.isGrantedRx_grantRx, Bool.or_eq_true, decide_eq_true_eq] at hb
  exact hb.symm.imp id fun h => congrArg some h.symm

theorem txHandOver_writeTailPtr {s : State} {slot d ptr buf len : Word}
    (hq : s.seq = .txPut (.writeTailPtr slot d ptr) buf len) : txHandOver s = some (descWord s.params d 3) := by
  simp [txHandOver, hq]

theorem rxHandOver_armTailPtr {s : State} {desc buf : Word} (hq : s.seq = .rxArm .tailPtr desc buf) :
    rxHandOver s = some (descWord s.params desc 3) := by
  simp [rxHandOver, hq]

theorem rxHandOver_rearmTailPtr {s : State} {d ptr : Word} (hq : s.seq = .rxRearm (.writeTailPtr d ptr)) :
    rxHandOver s = some (descWord s.params d 3) := by
  simp [rxHandOver, hq]

/-- Of the accesses of TX.PUT only the tail pointer write hands a descriptor over (R222). -/
theorem putStep_handsOver {k : PutPos} {buf len : Word} {s t : State} (hq : s.seq = .txPut k buf len)
    (h : putStep k buf len s = .next t) : HandsOverAtMost (txHandOver s) none s t := by
  rcases putStep_next h with ⟨-, rfl⟩ | ⟨_, -, rfl⟩ | ⟨_, -, rfl⟩ | ⟨_, _, -, -, rfl⟩ | ⟨_, _, -, -, rfl⟩ |
    ⟨_, _, -, -, rfl⟩ | ⟨_, _, -, -, rfl⟩ | ⟨_, _, -, rfl⟩ | ⟨_, _, _, -, rfl⟩ | ⟨_, _, _, -, -, rfl⟩ |
    ⟨_, _, _, -, -, rfl⟩ | ⟨_, _, -, -, rfl⟩ | ⟨_, _, -, -, rfl⟩ | ⟨_, _, -, -, rfl⟩ | ⟨_, _, -, rfl⟩ |
    ⟨_, _, _, -, rfl⟩ | ⟨slot, d, ptr, rfl, rfl⟩ | ⟨_, _, -, rfl⟩ | ⟨_, _, _, -, rfl⟩
  on_goal 17 =>
    rw [txHandOver_writeTailPtr hq, handsOverAtMost_goto]
    exact handsOverAtMost_grantTx ..
  all_goals simp

theorem execTxPut_handsOver {s t : State} (h : execTxPut s = .next t) :
    HandsOverAtMost (txHandOver s) none s t := by
  rcases execTxPut_next h with ⟨-, -, -, rfl⟩ | ⟨k, buf, len, hq, h⟩ | ⟨e, -, h⟩
  · simp
  · exact putStep_handsOver hq h
  · exact (finish_keepsAround h).handsOverAtMost ..

/-- Of the accesses of RX.ARM only the tail pointer write hands the slot over (R241). -/
theorem armStep_handsOver {k : ArmPos} {desc buf : Word} {s t : State} (hq : s.seq = .rxArm k desc buf)
    (h : armStep k desc buf s = .next t) : HandsOverAtMost none (rxHandOver s) s t := by
  rcases armStep_next h with ⟨-, rfl⟩ | ⟨-, rfl⟩ | ⟨-, -, rfl⟩ | ⟨-, -, rfl⟩ | ⟨-, rfl⟩ | ⟨rfl, rfl⟩ | ⟨-, rfl⟩
  on_goal 6 =>
    rw [rxHandOver_armTailPtr hq, handsOverAtMost_goto]
    exact handsOverAtMost_grantRx ..
  all_goals simp [State.setRxValid]

theorem execRxArm_handsOver {s t : State} (h : execRxArm s = .next t) :
    HandsOverAtMost none (rxHandOver s) s t := by
  rcases execRxArm_next h with ⟨-, -, -, -, rfl⟩ | ⟨k, desc, buf, hq, h⟩ | ⟨e, -, h⟩
  · simp
  · exact armStep_handsOver hq h
  · exact (finish_keepsAround h).handsOverAtMost ..

/-- Of the accesses of RX.REARM only the tail pointer write hands the slot over (R241). -/
theorem rearmStep_handsOver {k : RearmPos} {s t : State} (hq : s.seq = .rxRearm k)
    (h : rearmStep k s = .next t) : HandsOverAtMost none (rxHandOver s) s t := by
  rcases rearmStep_next h with ⟨-, rfl⟩ | ⟨d, -, -, rfl⟩ | ⟨d, -, -, rfl⟩ | ⟨d, -, rfl⟩ | ⟨d, ptr, rfl, rfl⟩
  on_goal 5 =>
    rw [rxHandOver_rearmTailPtr hq, handsOverAtMost_goto]
    exact handsOverAtMost_grantRx ..
  all_goals simp

theorem execRxRearm_handsOver {s t : State} (h : execRxRearm s = .next t) :
    HandsOverAtMost none (rxHandOver s) s t := by
  rcases execRxRearm_next h with ⟨-, -, rfl⟩ | ⟨k, hq, h⟩ | ⟨e, -, h⟩
  · simp
  · exact rearmStep_handsOver hq h
  · exact (finish_keepsAround h).handsOverAtMost ..

/-! ### The command words -/

/-- BUS's completion of a read touches neither the surroundings nor SEQ (R154). -/
theorem execCmdwRead_keepsAround {p : PhyAddr} {r : RegAddr} {s t : State} (h : execCmdwRead p r s = .next t) :
    KeepsAround s t ∧ t.seq = s.seq := by
  obtain ⟨-, -, rfl⟩ := execCmdwRead_next h
  rcases State.phyRead_state s p r with hs | hs <;> rw [hs] <;> exact ⟨keepsAround_refl s, rfl⟩

/-- BUS's completion of a write changes the PHY register view, and nothing else around the block's registers
(R155). -/
theorem execCmdwWrite_phyRegs {p : PhyAddr} {r : RegAddr} {s t : State} (h : execCmdwWrite p r s = .next t) :
    KeepsAround { s with phyRegs := t.phyRegs } t ∧ t.seq = s.seq := by
  obtain ⟨-, -, rfl⟩ := execCmdwWrite_next h
  rcases State.phyWrite_state s p r s.data with hs | ⟨-, hs⟩ <;> rw [hs] <;>
    exact ⟨⟨⟨rfl, rfl, rfl, rfl⟩, rfl, rfl⟩, rfl⟩

/-! ### Every instruction -/

/-- What the instruction `i` may change around the block's registers and memory in going from `s` to `t`. -/
structure AroundFrame (i : Instr) (s t : State) : Prop where
  params : t.params = s.params
  present : t.present = s.present
  agenda : t.agenda = s.agenda
  phyRegs : (∀ p r, i ≠ .cmdwWrite p r) → t.phyRegs = s.phyRegs
  grants : i ≠ .txPut → i ≠ .rxArm → i ≠ .rxRearm → KeepsGrants s t
  gainTx : ∀ a, t.isGrantedTx a = true → s.isGrantedTx a = true ∨ (i = .txPut ∧ txHandOver s = some a)
  gainRx : ∀ a, t.isGrantedRx a = true →
    s.isGrantedRx a = true ∨ ((i = .rxArm ∨ i = .rxRearm) ∧ rxHandOver s = some a)
  seq : i.format = .cmdw → t.seq = s.seq

theorem KeepsAround.aroundFrame {i : Instr} {s t : State} (h : KeepsAround s t)
    (hseq : i.format = .cmdw → t.seq = s.seq) : AroundFrame i s t := by
  obtain ⟨⟨hpresent, hphy, hparams, hagenda⟩, htx, hrx⟩ := h
  exact
    { params := hparams, present := hpresent, agenda := hagenda, phyRegs := fun _ => hphy
      grants := fun _ _ _ => ⟨htx, hrx⟩
      gainTx := fun a ha => .inl (State.isGrantedTx_congr htx a ▸ ha)
      gainRx := fun a ha => .inl (State.isGrantedRx_congr hrx a ▸ ha)
      seq := hseq }

theorem txPut_aroundFrame {s t : State} (h : HandsOverAtMost (txHandOver s) none s t) :
    AroundFrame .txPut s t := by
  obtain ⟨⟨hpresent, hphy, hparams, hagenda⟩, htx, hrx⟩ := h
  exact
    { params := hparams, present := hpresent, agenda := hagenda, phyRegs := fun _ => hphy
      grants := fun hne => absurd rfl hne
      gainTx := fun a ha => (htx a ha).imp_right fun ho => ⟨rfl, ho⟩
      gainRx := fun a ha => (hrx a ha).imp_right nofun
      seq := nofun }

theorem rxHandOver_aroundFrame {i : Instr} (hi : i = .rxArm ∨ i = .rxRearm) {s t : State}
    (h : HandsOverAtMost none (rxHandOver s) s t) : AroundFrame i s t := by
  obtain ⟨⟨hpresent, hphy, hparams, hagenda⟩, htx, hrx⟩ := h
  exact
    { params := hparams, present := hpresent, agenda := hagenda, phyRegs := fun _ => hphy
      grants := fun _ harm hrearm => (hi.elim harm hrearm).elim
      gainTx := fun a ha => (htx a ha).imp_right nofun
      gainRx := fun a ha => (hrx a ha).imp_right fun ho => ⟨hi, ho⟩
      seq := by rcases hi with rfl | rfl <;> nofun }

theorem cmdwWrite_aroundFrame {p : PhyAddr} {r : RegAddr} {s t : State} (h : execCmdwWrite p r s = .next t) :
    AroundFrame (.cmdwWrite p r) s t := by
  obtain ⟨⟨⟨hpresent, -, hparams, hagenda⟩, htx, hrx⟩, hseq⟩ := execCmdwWrite_phyRegs h
  exact
    { params := hparams, present := hpresent, agenda := hagenda
      phyRegs := fun hne => absurd rfl (hne p r)
      grants := fun _ _ _ => ⟨htx, hrx⟩
      gainTx := fun a ha => .inl (State.isGrantedTx_congr htx a ▸ ha)
      gainRx := fun a ha => .inl (State.isGrantedRx_congr hrx a ▸ ha)
      seq := fun _ => hseq }

theorem exec_aroundFrame {i : Instr} {s t : State} (h : exec i s = .next t) : AroundFrame i s t := by
  cases i with
  | mdioRead => exact (execMdioRead_keepsAround h).aroundFrame nofun
  | mdioWrite => exact (execMdioWrite_keepsAround h).aroundFrame nofun
  | phySetaddr => exact (execPhySetaddr_keepsAround h).aroundFrame nofun
  | phyDetect => exact (execPhyDetect_keepsAround h).aroundFrame nofun
  | phyReset => exact (execPhyReset_keepsAround h).aroundFrame nofun
  | phyLinkstatus => exact (execPhyLinkstatus_keepsAround h).aroundFrame nofun
  | txSetdesc => exact (execTxSetdesc_keepsAround h).aroundFrame nofun
  | txPut => exact txPut_aroundFrame (execTxPut_handsOver h)
  | txUpdate => exact (execTxUpdate_keepsAround h).aroundFrame nofun
  | rxArm => exact rxHandOver_aroundFrame (.inl rfl) (execRxArm_handsOver h)
  | rxPoll => exact (execRxPoll_keepsAround h).aroundFrame nofun
  | rxRearm => exact rxHandOver_aroundFrame (.inr rfl) (execRxRearm_handsOver h)
  | dmaSwreset => exact (execDmaSwreset_keepsAround h).aroundFrame nofun
  | cmdwRead p r =>
    obtain ⟨hkeeps, hseq⟩ := execCmdwRead_keepsAround h
    exact hkeeps.aroundFrame fun _ => hseq
  | cmdwWrite p r => exact cmdwWrite_aroundFrame h

/-- Settles O53: what each instruction's inversion lemma says it can do, read off for everything around the block; the
tail pointer writes of TX.PUT, RX.ARM and RX.REARM are the only steps that hand DMA a descriptor. -/
theorem outsideFrame : Obligations.OutsideFrame := by
  unfold Obligations.OutsideFrame
  intro i s t h
  obtain ⟨hparams, hpresent, hagenda, hphy, hgrants, htx, hrx, hseq⟩ := exec_aroundFrame h
  exact ⟨hparams, hpresent, hagenda, hphy, hgrants, htx, hrx, hseq⟩

end Sys2Proof.Machine
end

section
/-! The registers a step of an instruction may write (R21, R41, R170), and where it leaves SEQ (R34). -/

namespace Sys2Proof.Machine

/-- SEQ is IDLE or inside the operation `i`. -/
def Seq.IdleOrIn (i : Instr) (q : Seq) : Prop := q = .idle ∨ q.operation = some i

/-- From `s` to `t` every register but those listed keeps its value, and SEQ is then IDLE or inside `i`. -/
def StepsWithin (i : Instr) (rs : List Reg) (s t : State) : Prop := KeepsRegsBut rs s t ∧ t.seq.IdleOrIn i

/-! ### Updates that write no other register -/

@[simp] theorem keepsRegsBut_refl (rs : List Reg) (s : State) : KeepsRegsBut rs s s := fun _ _ => rfl

theorem keepsRegsBut_mono {rs rs' : List Reg} {s t : State} (h : KeepsRegsBut rs s t) (hrs : ∀ r ∈ rs, r ∈ rs') :
    KeepsRegsBut rs' s t := fun r hr => h r fun hr' => hr (hrs r hr')

theorem keepsRegsBut_setReg {rs : List Reg} {s t : State} {r : Reg} {v : Word} (hr : r ∈ rs)
    (h : KeepsRegsBut rs s t) : KeepsRegsBut rs s (t.setReg r v) := by
  intro r' hr'
  rw [State.reg_setReg, if_neg (ne_of_mem_of_not_mem hr hr').symm]
  exact h r' hr'

theorem keepsRegsBut_endOperation {rs : List Reg} (hrs : ∀ r ∈ endRegs, r ∈ rs) (s : State) (c : Word)
    (x y z : Option Word) : KeepsRegsBut rs s (s.endOperation c x y z) := by
  intro r hr
  have hne : r ∉ endRegs := fun hr' => hr (hrs r hr')
  simp only [endRegs, List.mem_cons, List.not_mem_nil, or_false, not_or] at hne
  simp [hne]

theorem StepsWithin.mono {i : Instr} {rs rs' : List Reg} {s t : State} (h : StepsWithin i rs s t)
    (hrs : ∀ r ∈ rs, r ∈ rs') : StepsWithin i rs' s t := ⟨keepsRegsBut_mono h.1 hrs, h.2⟩

/-- A step inside `i` that writes none of the registers beyond what `t` already wrote. -/
theorem stepsWithin_goto {i : Instr} {rs : List Reg} {s t : State} {q : Seq} (hq : q.operation = some i)
    (h : KeepsRegsBut rs s t) : StepsWithin i rs s (t.goto q) := ⟨h, .inr hq⟩

theorem finish_stepsWithin {i : Instr} {rs : List Reg} {e : Ending} {s t : State} (hrs : ∀ r ∈ endRegs, r ∈ rs)
    (h : finish e s = .next t) : StepsWithin i rs s t := by
  rcases finish_cases h with ⟨x, y, -, rfl⟩ | ⟨k, -, rfl⟩ <;> exact ⟨keepsRegsBut_endOperation hrs _ _ _ _ _, .inl rfl⟩

theorem toReturn_stepsWithin {i : Instr} {x y : Option Word} {s t : State} (h : toReturn i x y s = .next t) :
    StepsWithin i [] s t := by
  obtain rfl := next_eq_next.1 h
  exact stepsWithin_goto rfl (keepsRegsBut_refl [] s)

theorem toRaise_stepsWithin {i : Instr} {k : Raise} {s t : State} (h : toRaise i k s = .next t) :
    StepsWithin i [] s t := by
  obtain rfl := next_eq_next.1 h
  exact stepsWithin_goto rfl (keepsRegsBut_refl [] s)

/-- A transaction's step writes MDIO_CMD, and MDIO_DATA only where it is a write (R142, R143). -/
theorem inTransaction_stepsWithin {i : Instr} {rs : List Reg} {m : MdioPos} {s t : State} {at_ : MdioPos → Seq}
    {done : Data16 → State → Result} {failed : Word → State → Result}
    (h : inTransaction m s at_ done failed = .next t) (hcmd : .mdioCmd ∈ rs)
    (hdata : mdioIsRead m = true ∨ .mdioData ∈ rs) (hat : ∀ m', (at_ m').operation = some i)
    (hdone : ∀ v s' t', done v s' = .next t' → StepsWithin i [] s' t')
    (hfailed : ∀ e s' t', failed e s' = .next t' → StepsWithin i [] s' t') : StepsWithin i rs s t := by
  rcases inTransaction_cases h with ⟨p, r, v, rfl, -, -, rfl⟩ | ⟨p, r, o, -, -, -, rfl⟩ | ⟨o, -, -, rfl⟩ |
    ⟨o, -, rfl⟩ | ⟨-, -, rfl⟩ | ⟨o, l, d, -, rfl⟩ | ⟨v, -, h⟩ | ⟨o, e, l, d, -, h⟩
  · exact stepsWithin_goto (hat _) (keepsRegsBut_setReg (hdata.resolve_left nofun) (keepsRegsBut_refl rs s))
  · exact stepsWithin_goto (hat _) (keepsRegsBut_setReg hcmd (keepsRegsBut_refl rs s))
  · exact stepsWithin_goto (hat _) (keepsRegsBut_refl rs s)
  · exact stepsWithin_goto (hat _) (keepsRegsBut_refl rs s)
  · exact stepsWithin_goto (hat _) (keepsRegsBut_refl rs s)
  · exact stepsWithin_goto (hat _) (keepsRegsBut_refl rs s)
  · exact (hdone v s t h).mono nofun
  · exact (hfailed e (s.hooked l d) t h).mono nofun

/-! ### What a list of registers must hold for the steps of an instruction -/

/-- The list holds every register a step of `i` may write in `s`, and MDIO_DATA too unless the transactions SEQ is
inside have their own operation code. -/
structure Covers (i : Instr) (s : State) (rs : List Reg) : Prop where
  written : ∀ r ∈ writtenBy i s, r ∈ rs
  data : TransactionInv s ∨ .mdioData ∈ rs

theorem writtenBy_ending {i j : Instr} {s : State} {e : Ending} (hq : s.seq = .ending j e) (hi : i.format = .opw) :
    writtenBy i s = endRegs := by
  simp [writtenBy, hq, hi]

theorem writtenBy_of_not_ending {i : Instr} {s : State} (hq : ∀ j e, s.seq ≠ .ending j e) :
    writtenBy i s = i.accesses := by
  unfold writtenBy
  split
  · exact absurd ‹_› (hq _ _)
  · rfl

theorem Covers.access {i : Instr} {s : State} {rs : List Reg} (hrs : Covers i s rs) {q : Seq} (hq : s.seq = q)
    (hne : ∀ j e, q ≠ .ending j e) {r : Reg} (hr : r ∈ i.accesses) : r ∈ rs :=
  hrs.written r (by rwa [writtenBy_of_not_ending (hq ▸ hne)])

theorem Covers.setReg {i : Instr} {s : State} {rs : List Reg} (hrs : Covers i s rs) {q : Seq} (hq : s.seq = q)
    (hne : ∀ j e, q ≠ .ending j e) {r : Reg} {v : Word} (hr : r ∈ i.accesses) : KeepsRegsBut rs s (s.setReg r v) :=
  keepsRegsBut_setReg (hrs.access hq hne hr) (keepsRegsBut_refl rs s)

theorem Covers.finish {i j : Instr} {s t : State} {rs : List Reg} (hrs : Covers i s rs) {e : Ending}
    (hq : s.seq = .ending j e) (hi : i.format = .opw) (h : finish e s = .next t) : StepsWithin i rs s t :=
  finish_stepsWithin (fun r hr => hrs.written r (by rwa [writtenBy_ending hq hi])) h

/-! ### The operations -/

section
variable {s t : State} {rs : List Reg}

theorem execMdioRead_stepsWithin (hrs : Covers .mdioRead s rs) (h : execMdioRead s = .next t) :
    StepsWithin .mdioRead rs s t := by
  rcases execMdioRead_next h with ⟨-, -, -, rfl⟩ | ⟨m, hq, h⟩ | ⟨e, hq, h⟩
  · exact stepsWithin_goto rfl (keepsRegsBut_refl rs s)
  · exact inTransaction_stepsWithin h (hrs.access hq nofun (by decide))
      (hrs.data.imp_left fun hinv => by simpa [hq] using hinv.2) (fun _ => rfl) (fun _ _ _ => toReturn_stepsWithin)
      fun _ _ _ => toRaise_stepsWithin
  · exact hrs.finish hq rfl h

theorem execMdioWrite_stepsWithin (hrs : Covers .mdioWrite s rs) (h : execMdioWrite s = .next t) :
    StepsWithin .mdioWrite rs s t := by
  rcases execMdioWrite_next h with ⟨-, -, -, rfl⟩ | ⟨m, hq, h⟩ | ⟨e, hq, h⟩
  · exact stepsWithin_goto rfl (keepsRegsBut_refl rs s)
  · exact inTransaction_stepsWithin h (hrs.access hq nofun (by decide)) (.inr (hrs.access hq nofun (by decide)))
      (fun _ => rfl) (fun _ _ _ => toReturn_stepsWithin) fun _ _ _ => toRaise_stepsWithin
  · exact hrs.finish hq rfl h

theorem execPhySetaddr_stepsWithin (hrs : Covers .phySetaddr s rs) (h : execPhySetaddr s = .next t) :
    StepsWithin .phySetaddr rs s t := by
  rcases execPhySetaddr_next h with ⟨-, -, rfl⟩ | ⟨a, hq, rfl⟩ | ⟨e, hq, h⟩
  · exact stepsWithin_goto rfl (keepsRegsBut_refl rs s)
  · exact stepsWithin_goto rfl (hrs.setReg hq nofun (by decide))
  · exact hrs.finish hq rfl h

theorem detectSkip_stepsWithin {a : PhyAddr} (h : detectSkip a s = .next t) : StepsWithin .phyDetect [] s t := by
  rcases detectSkip_next h with ⟨-, rfl⟩ | ⟨-, rfl⟩ <;> exact stepsWithin_goto rfl (keepsRegsBut_refl [] s)

theorem execPhyDetect_stepsWithin (hrs : Covers .phyDetect s rs) (h : execPhyDetect s = .next t) :
    StepsWithin .phyDetect rs s t := by
  rcases execPhyDetect_next h with ⟨-, -, rfl⟩ | ⟨a, m, hq, h⟩ | ⟨a, hq, rfl⟩ | ⟨e, hq, h⟩
  · exact stepsWithin_goto rfl (keepsRegsBut_refl rs s)
  · refine inTransaction_stepsWithin h (hrs.access hq nofun (by decide))
      (hrs.data.imp_left fun hinv => ?_) (fun _ => rfl) (fun v s' t' h => ?_) fun _ _ _ => detectSkip_stepsWithin
    · obtain ⟨-, hinv⟩ := hinv
      simp_all
    · split at h
      · obtain rfl := next_eq_next.1 h
        exact stepsWithin_goto rfl (keepsRegsBut_refl [] s')
      · exact detectSkip_stepsWithin h
  · exact stepsWithin_goto rfl (hrs.setReg hq nofun (by decide))
  · exact hrs.finish hq rfl h

theorem resetPoll_stepsWithin {p : PhyAddr} (h : resetPoll p s = .next t) : StepsWithin .phyReset [] s t := by
  obtain rfl := next_eq_next.1 h
  exact stepsWithin_goto rfl (keepsRegsBut_refl [] s)

theorem resetNotDone_stepsWithin {p : PhyAddr} (h : resetNotDone p s = .next t) : StepsWithin .phyReset [] s t := by
  obtain rfl := next_eq_next.1 h
  exact stepsWithin_goto rfl (keepsRegsBut_refl [] s)

theorem execPhyReset_stepsWithin (hrs : Covers .phyReset s rs) (h : execPhyReset s = .next t) :
    StepsWithin .phyReset rs s t := by
  rcases execPhyReset_next h with ⟨-, -, -, rfl⟩ | ⟨-, rfl⟩ | ⟨p, m, hq, h⟩ | ⟨p, m, hq, h⟩ | ⟨p, -, rfl⟩ |
    ⟨p, l, d, -, rfl⟩ | ⟨p, e, l, d, -, rfl⟩ | ⟨e, hq, h⟩
  · exact stepsWithin_goto rfl (keepsRegsBut_refl rs s)
  · exact stepsWithin_goto rfl (keepsRegsBut_refl rs s)
  · exact inTransaction_stepsWithin h (hrs.access hq nofun (by decide)) (.inr (hrs.access hq nofun (by decide)))
      (fun _ => rfl) (fun _ _ _ => resetPoll_stepsWithin) fun _ _ _ => toRaise_stepsWithin
  · refine inTransaction_stepsWithin h (hrs.access hq nofun (by decide)) (.inr (hrs.access hq nofun (by decide)))
      (fun _ => rfl) (fun v s' t' h => ?_) fun _ _ _ => resetNotDone_stepsWithin
    split at h
    · exact resetNotDone_stepsWithin h
    · exact toReturn_stepsWithin h
  · split <;> exact stepsWithin_goto rfl (keepsRegsBut_refl rs s)
  · exact stepsWithin_goto rfl (keepsRegsBut_refl rs s)
  · exact stepsWithin_goto rfl (keepsRegsBut_refl rs s)
  · exact hrs.finish hq rfl h

theorem execPhyLinkstatus_stepsWithin (hrs : Covers .phyLinkstatus s rs) (h : execPhyLinkstatus s = .next t) :
    StepsWithin .phyLinkstatus rs s t := by
  rcases execPhyLinkstatus_next h with ⟨-, -, -, rfl⟩ | ⟨-, rfl⟩ | ⟨p, m, hq, h⟩ | ⟨p, m, hq, h⟩ | ⟨e, hq, h⟩
  · exact stepsWithin_goto rfl (keepsRegsBut_refl rs s)
  · exact stepsWithin_goto rfl (keepsRegsBut_refl rs s)
  · refine inTransaction_stepsWithin h (hrs.access hq nofun (by decide))
      (hrs.data.imp_left fun hinv => ?_) (fun _ => rfl) (fun v s' t' h => ?_) fun _ _ _ => toRaise_stepsWithin
    · obtain ⟨-, hinv⟩ := hinv
      simp_all
    · split at h
      · obtain rfl := next_eq_next.1 h
        exact stepsWithin_goto rfl (keepsRegsBut_refl [] s')
      · exact toReturn_stepsWithin h
  · refine inTransaction_stepsWithin h (hrs.access hq nofun (by decide))
      (hrs.data.imp_left fun hinv => ?_) (fun _ => rfl) (fun _ _ _ => toReturn_stepsWithin)
      fun _ _ _ => toRaise_stepsWithin
    obtain ⟨-, hinv⟩ := hinv
    simp_all
  · exact hrs.finish hq rfl h

theorem execTxSetdesc_stepsWithin (hrs : Covers .txSetdesc s rs) (h : execTxSetdesc s = .next t) :
    StepsWithin .txSetdesc rs s t := by
  rcases execTxSetdesc_next h with ⟨-, -, -, -, rfl⟩ | ⟨k, base, n, hq, h⟩ | ⟨e, hq, h⟩
  · exact stepsWithin_goto rfl (keepsRegsBut_refl rs s)
  · cases k <;> obtain rfl := next_eq_next.1 h <;>
      exact stepsWithin_goto rfl (hrs.setReg hq nofun (by decide))
  · exact hrs.finish hq rfl h

theorem execTxPut_stepsWithin (hrs : Covers .txPut s rs) (h : execTxPut s = .next t) :
    StepsWithin .txPut rs s t := by
  rcases execTxPut_next h with ⟨-, -, -, rfl⟩ | ⟨k, buf, len, hq, h⟩ | ⟨e, hq, h⟩
  · exact stepsWithin_goto rfl (keepsRegsBut_refl rs s)
  · rcases putStep_next h with ⟨-, rfl⟩ | ⟨_, -, rfl⟩ | ⟨_, -, rfl⟩ | ⟨_, _, -, -, rfl⟩ | ⟨_, _, -, -, rfl⟩ |
      ⟨_, _, -, -, rfl⟩ | ⟨_, _, -, -, rfl⟩ | ⟨_, _, -, rfl⟩ | ⟨_, _, _, -, rfl⟩ | ⟨_, _, _, -, -, rfl⟩ |
      ⟨_, _, _, -, -, rfl⟩ | ⟨_, _, -, -, rfl⟩ | ⟨_, _, -, -, rfl⟩ | ⟨_, _, -, -, rfl⟩ | ⟨_, _, -, rfl⟩ |
      ⟨_, _, _, -, rfl⟩ | ⟨_, _, _, -, rfl⟩ | ⟨_, _, -, rfl⟩ | ⟨_, _, _, -, rfl⟩
    on_goal 14 => unfold tailPtrStart; split
    on_goal 18 => exact stepsWithin_goto rfl (hrs.setReg hq nofun (by decide))
    on_goal 19 => exact stepsWithin_goto rfl (hrs.setReg hq nofun (by decide))
    all_goals exact stepsWithin_goto rfl (keepsRegsBut_refl rs s)
  · exact hrs.finish hq rfl h

theorem execTxUpdate_stepsWithin (hrs : Covers .txUpdate s rs) (h : execTxUpdate s = .next t) :
    StepsWithin .txUpdate rs s t := by
  rcases execTxUpdate_next h with ⟨-, -, rfl⟩ | ⟨k, hq, h⟩ | ⟨e, hq, h⟩
  · exact stepsWithin_goto rfl (keepsRegsBut_refl rs s)
  · rcases updateStep_next h with ⟨-, rfl⟩ | ⟨_, -, -, rfl⟩ | ⟨_, -, -, rfl⟩ | ⟨-, rfl⟩ | ⟨_, -, rfl⟩ |
      ⟨_, -, rfl⟩ | ⟨_, -, -, rfl⟩ | ⟨_, -, -, rfl⟩ | ⟨-, rfl⟩ | ⟨_, -, rfl⟩ | ⟨-, rfl⟩ | ⟨_, -, rfl⟩ |
      ⟨_, -, rfl⟩ | ⟨_, _, -, rfl⟩
    on_goal 10 => exact stepsWithin_goto rfl (hrs.setReg hq nofun (by decide))
    all_goals exact stepsWithin_goto rfl (keepsRegsBut_refl rs s)
  · exact hrs.finish hq rfl h

theorem execRxArm_stepsWithin (hrs : Covers .rxArm s rs) (h : execRxArm s = .next t) :
    StepsWithin .rxArm rs s t := by
  rcases execRxArm_next h with ⟨-, -, -, -, rfl⟩ | ⟨k, desc, buf, hq, h⟩ | ⟨e, hq, h⟩
  · exact stepsWithin_goto rfl (keepsRegsBut_refl rs s)
  · rcases armStep_next h with ⟨-, rfl⟩ | ⟨-, rfl⟩ | ⟨-, -, rfl⟩ | ⟨-, -, rfl⟩ | ⟨-, rfl⟩ | ⟨-, rfl⟩ | ⟨-, rfl⟩
    on_goal 3 => exact stepsWithin_goto rfl (keepsRegsBut_refl rs s)
    on_goal 3 => exact stepsWithin_goto rfl (keepsRegsBut_refl rs s)
    all_goals
      exact stepsWithin_goto rfl (hrs.setReg hq nofun (by decide))
  · exact hrs.finish hq rfl h

theorem execRxPoll_stepsWithin (hrs : Covers .rxPoll s rs) (h : execRxPoll s = .next t) :
    StepsWithin .rxPoll rs s t := by
  rcases execRxPoll_next h with ⟨-, -, rfl⟩ | ⟨k, -, h⟩ | ⟨e, hq, h⟩
  · exact stepsWithin_goto rfl (keepsRegsBut_refl rs s)
  · rcases pollStep_next h with ⟨-, rfl⟩ | ⟨d, -, -, rfl⟩ | ⟨d, -, -, rfl⟩ | ⟨d, -, rfl⟩ | ⟨len, -, rfl⟩ <;>
      exact stepsWithin_goto rfl (keepsRegsBut_refl rs s)
  · exact hrs.finish hq rfl h

theorem execRxRearm_stepsWithin (hrs : Covers .rxRearm s rs) (h : execRxRearm s = .next t) :
    StepsWithin .rxRearm rs s t := by
  rcases execRxRearm_next h with ⟨-, -, rfl⟩ | ⟨k, hq, h⟩ | ⟨e, hq, h⟩
  · exact stepsWithin_goto rfl (keepsRegsBut_refl rs s)
  · rcases rearmStep_next h with ⟨-, rfl⟩ | ⟨d, -, -, rfl⟩ | ⟨d, -, -, rfl⟩ | ⟨d, -, rfl⟩ | ⟨d, ptr, -, rfl⟩
    on_goal 5 => exact stepsWithin_goto rfl (hrs.setReg hq nofun (by decide))
    all_goals exact stepsWithin_goto rfl (keepsRegsBut_refl rs s)
  · exact hrs.finish hq rfl h

theorem execDmaSwreset_stepsWithin (hrs : Covers .dmaSwreset s rs) (h : execDmaSwreset s = .next t) :
    StepsWithin .dmaSwreset rs s t := by
  rcases execDmaSwreset_next h with ⟨-, rfl⟩ | ⟨hq, rfl⟩ | ⟨hq, rfl⟩ | ⟨-, -, rfl⟩ | ⟨-, -, rfl⟩ | ⟨e, hq, h⟩
  · exact stepsWithin_goto rfl (keepsRegsBut_refl rs s)
  · exact stepsWithin_goto rfl (hrs.setReg hq nofun (by decide))
  · exact stepsWithin_goto rfl (hrs.setReg hq nofun (by decide))
  · exact stepsWithin_goto rfl (keepsRegsBut_refl rs s)
  · exact stepsWithin_goto rfl (keepsRegsBut_refl rs s)
  · exact hrs.finish hq rfl h

end

/-! ### The command words -/

theorem State.keepsRegsBut_clearBusy {rs : List Reg} {s t : State} (hcmd : .mdioCmd ∈ rs)
    (h : KeepsRegsBut rs s t) : KeepsRegsBut rs s t.clearBusy := keepsRegsBut_setReg hcmd h

theorem execCmdwRead_keepsRegs {p : PhyAddr} {r : RegAddr} {s t : State} (h : execCmdwRead p r s = .next t) :
    KeepsRegsBut [.mdioData, .mdioCmd] s t := by
  obtain ⟨-, -, rfl⟩ := execCmdwRead_next h
  exact State.keepsRegsBut_clearBusy (by decide) (keepsRegsBut_setReg (by decide) fun r' _ => State.reg_phyRead ..)

theorem execCmdwWrite_keepsRegs {p : PhyAddr} {r : RegAddr} {s t : State} (h : execCmdwWrite p r s = .next t) :
    KeepsRegsBut [.mdioCmd] s t := by
  obtain ⟨-, -, rfl⟩ := execCmdwWrite_next h
  exact State.keepsRegsBut_clearBusy (by decide) fun r' _ => State.reg_phyWrite ..

/-! ### Every instruction -/

theorem exec_stepsWithin {i : Instr} {s t : State} {rs : List Reg} (hrs : Covers i s rs) (hi : i.format = .opw)
    (h : exec i s = .next t) : StepsWithin i rs s t := by
  cases i with
  | mdioRead => exact execMdioRead_stepsWithin hrs h
  | mdioWrite => exact execMdioWrite_stepsWithin hrs h
  | phySetaddr => exact execPhySetaddr_stepsWithin hrs h
  | phyDetect => exact execPhyDetect_stepsWithin hrs h
  | phyReset => exact execPhyReset_stepsWithin hrs h
  | phyLinkstatus => exact execPhyLinkstatus_stepsWithin hrs h
  | txSetdesc => exact execTxSetdesc_stepsWithin hrs h
  | txPut => exact execTxPut_stepsWithin hrs h
  | txUpdate => exact execTxUpdate_stepsWithin hrs h
  | rxArm => exact execRxArm_stepsWithin hrs h
  | rxPoll => exact execRxPoll_stepsWithin hrs h
  | rxRearm => exact execRxRearm_stepsWithin hrs h
  | dmaSwreset => exact execDmaSwreset_stepsWithin hrs h
  | cmdwRead p r => cases hi
  | cmdwWrite p r => cases hi

theorem writtenBy_cmdw {i : Instr} (hi : i.format = .cmdw) (s : State) : writtenBy i s = i.accesses := by
  unfold writtenBy
  split <;> simp_all

theorem exec_keepsRegs {i : Instr} {s t : State} {rs : List Reg} (hrs : Covers i s rs) (h : exec i s = .next t) :
    KeepsRegsBut rs s t := by
  cases i with
  | cmdwRead p r =>
    have hw := hrs.written
    rw [writtenBy_cmdw rfl] at hw
    exact keepsRegsBut_mono (execCmdwRead_keepsRegs h) hw
  | cmdwWrite p r =>
    have hw := hrs.written
    rw [writtenBy_cmdw rfl] at hw
    exact keepsRegsBut_mono (execCmdwWrite_keepsRegs h) hw
  | _ =>
    obtain ⟨hkeeps, -⟩ := exec_stepsWithin hrs rfl h
    exact hkeeps

/-- Whatever SEQ holds, an operation writes only the registers of its accesses, MDIO_DATA and the end's registers, and
leaves SEQ inside itself or IDLE. -/
theorem exec_stepsWithin_accesses {i : Instr} {s t : State} (hi : i.format = .opw) (h : exec i s = .next t) :
    StepsWithin i (.mdioData :: i.accesses ++ endRegs) s t := by
  refine exec_stepsWithin ⟨fun r hr => ?_, .inr (by simp)⟩ hi h
  unfold writtenBy at hr
  split at hr <;> simp [hr]

/-- Settles O51: each operation's accesses, read off from its inversion lemma; a transaction writes MDIO_DATA only
where it is a write, and the invariant says which it is. -/
theorem registerFrame : Obligations.RegisterFrame := by
  unfold Obligations.RegisterFrame
  intro i s t hinv h
  exact exec_keepsRegs ⟨fun _ => id, .inl hinv⟩ h

end Sys2Proof.Machine
end

section
/-! Everything one step of the machine can be (R8, R14): a step of another agent, which leaves SEQ where it is, a step
of the operation SEQ is inside or HOST starts, or a reset of the block. -/

namespace Sys2Proof.Machine

/-! ### Steps that leave SEQ where it is -/

/-- The registers that HOST, BUS and DMA write (the "written by" column of R21). -/
def othersRegs : List Reg := [.opw, .arg0, .arg1, .arg2, .cfg, .mdioData, .mdioCmd, .dmaCtrl]

/-- The parameters and SEQ are as before, no register changes but those HOST, BUS and DMA write, and no further
descriptor is DMA's to consume or to fill. -/
structure OthersStep (s t : State) : Prop where
  params : t.params = s.params
  seq : t.seq = s.seq
  regs : KeepsRegsBut othersRegs s t
  tx : ∀ a, s.isGrantedTx a = false → t.isGrantedTx a = false
  rx : ∀ a, s.isGrantedRx a = false → t.isGrantedRx a = false

theorem othersStep_refl (s : State) : OthersStep s s := ⟨rfl, rfl, keepsRegsBut_refl _ s, fun _ => id, fun _ => id⟩

theorem OthersStep.trans {s t u : State} (h : OthersStep s t) (h' : OthersStep t u) : OthersStep s u where
  params := h'.params.trans h.params
  seq := h'.seq.trans h.seq
  regs := fun r hr => (h'.regs r hr).trans (h.regs r hr)
  tx := fun a ha => h'.tx a (h.tx a ha)
  rx := fun a ha => h'.rx a (h.rx a ha)

theorem othersStep_agenda (s : State) (rest : List Event) : OthersStep s { s with agenda := rest } :=
  ⟨rfl, rfl, fun _ _ => rfl, fun _ => id, fun _ => id⟩

theorem othersStep_setReg (s : State) {r : Reg} (v : Word) (hr : r ∈ othersRegs) : OthersStep s (s.setReg r v) :=
  ⟨rfl, rfl, keepsRegsBut_setReg hr (keepsRegsBut_refl _ s), fun _ => id, fun _ => id⟩

theorem othersStep_setWord (s : State) (a v : Word) : OthersStep s (s.setWord a v) :=
  ⟨rfl, rfl, keepsRegsBut_refl _ s, by simp +contextual, by simp +contextual⟩

theorem othersStep_forgetGrants (s : State) : OthersStep s s.forgetGrants :=
  ⟨rfl, rfl, keepsRegsBut_refl _ s, by simp, by simp⟩

theorem othersStep_phyWrite (s : State) (p : PhyAddr) (r : RegAddr) (v : Data16) : OthersStep s (s.phyWrite p r v) := by
  rcases State.phyWrite_state s p r v with hs | ⟨-, hs⟩ <;> rw [hs]
  · exact othersStep_refl s
  · exact ⟨rfl, rfl, fun _ _ => rfl, fun _ => id, fun _ => id⟩

/-- BUS's completion of a command word is such a step (R154, R155). -/
theorem othersStep_of_cmdw {i : Instr} {s t : State} (hi : i.format = .cmdw) (h : exec i s = .next t) :
    OthersStep s t := by
  have haround := exec_aroundFrame h
  obtain ⟨htx, hrx⟩ := haround.grants (by rintro rfl; cases hi) (by rintro rfl; cases hi) (by rintro rfl; cases hi)
  have hcovers : Covers i s othersRegs := by
    refine ⟨?_, .inr (by decide)⟩
    rw [writtenBy_cmdw hi]
    cases i with
    | cmdwRead p r => simp [Instr.accesses, othersRegs]
    | cmdwWrite p r => simp [Instr.accesses, othersRegs]
    | _ => cases hi
  exact
    { params := haround.params, seq := haround.seq hi, regs := exec_keepsRegs hcovers h
      tx := fun a => by rw [State.isGrantedTx_congr htx]; exact id
      rx := fun a => by rw [State.isGrantedRx_congr hrx]; exact id }

/-! ### Each agent's step -/

section
variable {s t : State}

theorem seqTurn_next (h : seqTurn s = .next t) :
    (s.seq.operation = none ∧ t = s) ∨ ∃ i, s.seq.operation = some i ∧ exec i s = .next t := by
  unfold seqTurn at h
  split at h
  · exact .inl ⟨‹_›, (next_eq_next.1 h).symm⟩
  · exact .inr ⟨_, ‹_›, h⟩

theorem hostSet_next {r : Reg} {v : Word} (h : hostSet r v s = .next t) : s.seq = .idle ∧ t = s.setReg r v := by
  unfold hostSet at h
  split at h <;> simp_all

theorem hostStart_next {v : Word} (h : hostStart v s = .next t) :
    s.seq = .idle ∧ ∃ i, decode s.params .opw (wordBytes v) = .ok i ∧ exec i (s.setReg .opw v) = .next t := by
  unfold hostStart at h
  repeat' split at h
  all_goals simp_all

/-- HOST's writes (R21, R30, R31, R40): an operand, CFG, or the start of the operation OPW selects. -/
theorem hostWrite_next {n : Fin 27} {v : Word} (h : hostWrite n v s = .next t) :
    s.seq = .idle ∧ ((∃ r ∈ ([.arg0, .arg1, .arg2] : List Reg), t = s.setReg r v) ∨
      t = s.setReg .cfg (v &&& 1#32) ∨
      ∃ i, decode s.params .opw (wordBytes v) = .ok i ∧ exec i (s.setReg .opw v) = .next t) := by
  unfold hostWrite at h
  split at h
  · obtain ⟨hq, hstart⟩ := hostStart_next h
    exact ⟨hq, .inr (.inr hstart)⟩
  · obtain ⟨hq, rfl⟩ := hostSet_next h
    exact ⟨hq, .inl ⟨.arg0, by decide, rfl⟩⟩
  · obtain ⟨hq, rfl⟩ := hostSet_next h
    exact ⟨hq, .inl ⟨.arg1, by decide, rfl⟩⟩
  · obtain ⟨hq, rfl⟩ := hostSet_next h
    exact ⟨hq, .inl ⟨.arg2, by decide, rfl⟩⟩
  · obtain ⟨hq, rfl⟩ := hostSet_next h
    exact ⟨hq, .inr (.inl rfl)⟩
  · simp at h

theorem cmdTransaction_format {P : Config.Params} {c : Word} {i : Instr} (h : cmdTransaction P c = .ok i) :
    i.format = .cmdw := by
  unfold cmdTransaction at h
  repeat' split at h
  all_goals cases h
  all_goals rfl

theorem busTurn_next (h : busTurn s = .next t) : ∃ i, i.format = .cmdw ∧ exec i s = .next t := by
  unfold busTurn at h
  split at h
  · exact ⟨_, cmdTransaction_format ‹_›, h⟩
  · simp at h
  · simp at h

theorem phyTurn_next {p : PhyAddr} {r : RegAddr} {v : Data16} (h : phyTurn p r v s = .next t) :
    s.isPresent p = true ∧ t = s.phyWrite p r v := by
  unfold phyTurn at h
  split at h <;> simp_all

theorem hostMem_next {a v : Word} (h : hostMem a v s = .next t) :
    accessible s.params a = true ∧ t = s.setWord a v := by
  obtain ⟨ha, h⟩ := State.memWrite_next h
  exact ⟨ha, (next_eq_next.1 h).symm⟩

/-- DMA's completion of a TX descriptor stores one word (R222). -/
theorem dmaTxDone_next {slot : Word} (h : dmaTxDone slot s = .next t) :
    ∃ a, a = descWord s.params (descAddr s.params (s.reg .txRingBase) slot) 3 ∧
      slot.toNat < (s.reg .txRingLen).toNat + 1 ∧ s.isGrantedTx a = true ∧ accessible s.params a = true ∧
      own (s.word a) = true ∧ t = s.setWord a (clearOwn (s.word a)) := by
  unfold dmaTxDone at h
  dsimp only at h
  split at h
  · rename_i hslot
    obtain ⟨-, h⟩ := State.memRead_next h
    split at h
    · obtain ⟨ha, h⟩ := State.memWrite_next h
      exact ⟨_, rfl, hslot.1, hslot.2, ha, ‹_›, (next_eq_next.1 h).symm⟩
    · simp at h
  · simp at h

/-- DMA's deposit of a frame stores two words (R241). -/
theorem dmaRxFrame_next {n : Nat} {bufv : Bool} (h : dmaRxFrame n bufv s = .next t) :
    ∃ a₂ a₃, a₂ = descWord s.params (s.reg .rxRingBase) 2 ∧ a₃ = descWord s.params (s.reg .rxRingBase) 3 ∧
      n ≤ Config.txLenMax ∧ s.isGrantedRx a₃ = true ∧ accessible s.params a₂ = true ∧
      accessible s.params a₃ = true ∧ own (s.word a₃) = true ∧
      t = (s.setWord a₂ (withRxLen (s.word a₂) n)).setWord a₃
        (clearOwn (s.word a₃) ||| (if bufv then buf1v else 0#32)) := by
  unfold dmaRxFrame at h
  dsimp only at h
  split at h
  · rename_i hn
    obtain ⟨ha₃, h⟩ := State.memRead_next h
    split at h
    · obtain ⟨ha₂, h⟩ := State.memWrite_next h
      obtain ⟨-, h⟩ := State.memWrite_next h
      exact ⟨_, _, rfl, rfl, hn.1, hn.2, ha₂, ha₃, ‹_›, (next_eq_next.1 h).symm⟩
    · simp at h
  · simp at h

theorem dmaSwrDone_next (h : dmaSwrDone s = .next t) :
    s.swr = true ∧ t = (s.setReg .dmaCtrl (s.reg .dmaCtrl &&& ~~~ 1#32)).forgetGrants := by
  unfold dmaSwrDone at h
  split at h
  · exact ⟨‹_›, (next_eq_next.1 h).symm⟩
  · simp at h

end

/-! ### Every step -/

/-- The state after a reset of the block (R300). -/
def State.afterReset (s : State) : State := { s with regs := .reset, seq := .idle }

@[simp] theorem State.reg_afterReset (s : State) (r : Reg) : s.afterReset.reg r = 0#32 := by cases r <;> rfl
@[simp] theorem State.txValid_afterReset (s : State) : s.afterReset.txValid = false := by simp [State.txValid]
@[simp] theorem State.rxValid_afterReset (s : State) : s.afterReset.rxValid = false := by simp [State.rxValid]

/-- One step of an agent: one that leaves SEQ where it is, after such a step (HOST's store of OPW, or nothing) a step
of an operation SEQ is inside or starts, or a reset of the block. -/
theorem eventTurn_cases {e : Event} {s t : State} (h : eventTurn e s = .next t) :
    OthersStep s t ∨ (∃ u i, OthersStep s u ∧ u.seq.IdleOrIn i ∧ exec i u = .next t) ∨ t = s.afterReset := by
  cases e with
  | seq =>
    rcases seqTurn_next h with ⟨-, rfl⟩ | ⟨i, hi, h⟩
    · exact .inl (othersStep_refl _)
    · exact .inr (.inl ⟨s, i, othersStep_refl s, .inr hi, h⟩)
  | hostWrite n v =>
    obtain ⟨hq, ⟨r, hr, rfl⟩ | rfl | ⟨i, -, h⟩⟩ := hostWrite_next h
    · have hr' : ∀ r ∈ ([.arg0, .arg1, .arg2] : List Reg), r ∈ othersRegs := by decide
      exact .inl (othersStep_setReg s v (hr' r hr))
    · exact .inl (othersStep_setReg s _ (by decide))
    · exact .inr (.inl ⟨_, i, othersStep_setReg s v (by decide), .inl hq, h⟩)
  | hostRead n =>
    obtain rfl := next_eq_next.1 h
    exact .inl (othersStep_refl s)
  | hostMem a v =>
    obtain ⟨-, rfl⟩ := hostMem_next h
    exact .inl (othersStep_setWord s a v)
  | bus =>
    obtain ⟨i, hi, h⟩ := busTurn_next h
    exact .inl (othersStep_of_cmdw hi h)
  | phy p r v =>
    obtain ⟨-, rfl⟩ := phyTurn_next h
    exact .inl (othersStep_phyWrite s p r v)
  | dmaTxDone slot =>
    obtain ⟨a, -, -, -, -, -, rfl⟩ := dmaTxDone_next h
    exact .inl (othersStep_setWord s a _)
  | dmaRxFrame n bufv =>
    obtain ⟨a₂, a₃, -, -, -, -, -, -, -, rfl⟩ := dmaRxFrame_next h
    exact .inl ((othersStep_setWord s a₂ _).trans (othersStep_setWord _ a₃ _))
  | dmaSwrDone =>
    obtain ⟨-, rfl⟩ := dmaSwrDone_next h
    exact .inl ((othersStep_setReg s _ (by decide)).trans (othersStep_forgetGrants _))
  | blockReset => exact .inr (.inr (next_eq_next.1 h).symm)

theorem step_cons {s : State} {e : Event} {rest : List Event} (h : s.agenda = e :: rest) :
    step s = eventTurn e { s with agenda := rest } := by
  simp only [step, h]

/-- With nothing announced it is SEQ's turn (R320). -/
theorem step_nil {s : State} (h : s.agenda = []) : step s = eventTurn .seq { s with agenda := [] } := by
  have hs : { s with agenda := [] } = s := by rw [← h]
  rw [hs]
  simp only [step, h]
  rfl

theorem step_next {s t : State} (h : step s = .next t) : ∃ e rest, eventTurn e { s with agenda := rest } = .next t := by
  cases hagenda : s.agenda with
  | nil => exact ⟨_, _, step_nil hagenda ▸ h⟩
  | cons e rest => exact ⟨_, _, step_cons hagenda ▸ h⟩

/-- What the steps that leave SEQ where it is, the operations' steps and a reset of the block keep, every step
keeps. -/
theorem kept_by_step {I : State → Prop} (hothers : ∀ s t, OthersStep s t → I s → I t)
    (hexec : ∀ i s t, i.format = .opw → s.seq.IdleOrIn i → I s → exec i s = .next t → I t)
    (hreset : ∀ s, I s → I s.afterReset) {s t : State} (hs : I s) (h : step s = .next t) : I t := by
  obtain ⟨e, rest, h⟩ := step_next h
  have hs' := hothers _ _ (othersStep_agenda s rest) hs
  rcases eventTurn_cases h with h | ⟨u, i, hu, hq, h⟩ | rfl
  · exact hothers _ _ h hs'
  · have hIu := hothers _ _ hu hs'
    cases hi : i.format with
    | opw => exact hexec i u t hi hq hIu h
    | cmdw => exact hothers _ _ (othersStep_of_cmdw hi h) hIu
  · exact hreset _ hs'

end Sys2Proof.Machine
end

section
/-! The TX ring's invariant (R50, R211, R213, R222): the arithmetic of its indices, the steps that touch none of its
registers, and the steps of TX.SETDESC, TX.PUT and TX.UPDATE. -/

namespace Sys2Proof.Machine

/-! ### Indices modulo 2^IDX_W (R205) -/

theorem nextIndex_lt {P : Config.Params} (h : P.ringsOk = true) (i : Word) :
    (nextIndex P i).toNat < 2 ^ P.idxW := by
  rw [toNat_nextIndex h]
  exact Nat.mod_lt _ (Nat.two_pow_pos _)

theorem toNat_nextIndex_of_lt {P : Config.Params} (h : P.ringsOk = true) {i : Word} (hi : i.toNat < 2 ^ P.idxW) :
    (nextIndex P i).toNat = if i.toNat + 1 = 2 ^ P.idxW then 0 else i.toNat + 1 := by
  rw [toNat_nextIndex h]
  split
  · rw [‹i.toNat + 1 = _›, Nat.mod_self]
  · exact Nat.mod_eq_of_lt (by omega)

theorem toNat_indexDiff {P : Config.Params} (h : P.ringsOk = true) {a b : Word} (ha : a.toNat < 2 ^ P.idxW)
    (hb : b.toNat < 2 ^ P.idxW) :
    (indexDiff P a b).toNat = if b.toNat ≤ a.toNat then a.toNat - b.toNat else a.toNat + 2 ^ P.idxW - b.toNat := by
  obtain ⟨hw, -⟩ := (ringsOk_iff P).1 h
  rw [indexDiff, toNat_truncTo hw]
  split
  · rw [BitVec.toNat_sub_of_le (by rwa [BitVec.le_def])]
    exact Nat.mod_eq_of_lt (by omega)
  · obtain ⟨c, hc⟩ : 2 ^ P.idxW ∣ 2 ^ 32 := Nat.pow_dvd_pow 2 hw
    cases c with
    | zero => simp at hc
    | succ c =>
      rw [Nat.mul_succ] at hc
      rw [BitVec.toNat_sub, mod_word_mod hw, show 2 ^ 32 - b.toNat + a.toNat =
        a.toNat + 2 ^ P.idxW - b.toNat + 2 ^ P.idxW * c by omega, Nat.add_mul_mod_self_left]
      exact Nat.mod_eq_of_lt (by omega)

/-- A submitted slot raises the pending count by one (R37). -/
theorem indexDiff_nextIndex_left {P : Config.Params} (h : P.ringsOk = true) {a b : Word}
    (ha : a.toNat < 2 ^ P.idxW) (hb : b.toNat < 2 ^ P.idxW) :
    (indexDiff P (nextIndex P a) b).toNat ≤ (indexDiff P a b).toNat + 1 := by
  have hn := toNat_nextIndex_of_lt h ha
  rw [toNat_indexDiff h (nextIndex_lt h a) hb, toNat_indexDiff h ha hb]
  split at hn <;> split <;> split <;> omega

/-- A reclaimed slot lowers the pending count (R37, R216). -/
theorem indexDiff_nextIndex_right {P : Config.Params} (h : P.ringsOk = true) {a b : Word}
    (ha : a.toNat < 2 ^ P.idxW) (hb : b.toNat < 2 ^ P.idxW) (hne : b ≠ a) :
    (indexDiff P a (nextIndex P b)).toNat ≤ (indexDiff P a b).toNat := by
  have hn := toNat_nextIndex_of_lt h hb
  have hne : b.toNat ≠ a.toNat := fun he => hne (BitVec.eq_of_toNat_eq he)
  rw [toNat_indexDiff h ha (nextIndex_lt h b), toNat_indexDiff h ha hb]
  split at hn <;> split <;> split <;> omega

/-- Pow2Floor of a count other than 0 is a power of two (R207). -/
theorem powerOfTwo_pow2Floor {l : Word} (h : l ≠ 0#32) : PowerOfTwo (pow2Floor l) :=
  ⟨Nat.log2 l.toNat, (Nat.log2_lt fun h0 => h (BitVec.eq_of_toNat_eq h0)).2 l.isLt, rfl⟩

/-! ### Steps that keep the ring's registers -/

/-- The registers RingSet and the TX operations' progress speak of. -/
def ringRegs : List Reg := [.txBase, .txN, .txMask, .txTail, .txCur, .txRingBase, .txRingLen, .txTailPtr]

/-- The parameters and the ring's registers are as before. -/
structure SameRing (s t : State) : Prop where
  params : t.params = s.params
  regs : ∀ r ∈ ringRegs, t.reg r = s.reg r

namespace SameRing
variable {s t : State} (h : SameRing s t)
include h

theorem base : t.reg .txBase = s.reg .txBase := h.regs _ (by decide)
theorem n : t.reg .txN = s.reg .txN := h.regs _ (by decide)
theorem mask : t.reg .txMask = s.reg .txMask := h.regs _ (by decide)
theorem tail : t.reg .txTail = s.reg .txTail := h.regs _ (by decide)
theorem cur : t.reg .txCur = s.reg .txCur := h.regs _ (by decide)
theorem ringBase : t.reg .txRingBase = s.reg .txRingBase := h.regs _ (by decide)
theorem ringLen : t.reg .txRingLen = s.reg .txRingLen := h.regs _ (by decide)
theorem tailPtr : t.reg .txTailPtr = s.reg .txTailPtr := h.regs _ (by decide)

theorem txPending : t.txPending = s.txPending := by
  simp only [State.txPending, h.params, h.tail, h.cur]

theorem ringFull : t.ringFull = s.ringFull := by
  simp only [State.ringFull, h.txPending, h.n]

theorem ringSet : RingSet t ↔ RingSet s := by
  simp only [RingSet, h.params, h.base, h.n, h.mask, h.tail, h.cur, h.ringBase, h.ringLen, h.txPending]

theorem setdescProgress (k : SetdescPos) (base n : Word) :
    SetdescProgress k base n t ↔ SetdescProgress k base n s := by
  simp only [SetdescProgress, h.base, h.n, h.mask, h.tail, h.cur, h.ringBase, h.ringLen, h.tailPtr]

theorem atPutSlot (slot d : Word) : AtPutSlot t slot d ↔ AtPutSlot s slot d := by
  simp only [AtPutSlot, h.params, h.base, h.mask, h.tail]

theorem beforeTailPtr (htx : ∀ a, s.isGrantedTx a = false → t.isGrantedTx a = false) {slot d : Word} :
    BeforeTailPtr s slot d → BeforeTailPtr t slot d := by
  simp only [BeforeTailPtr, h.atPutSlot, h.ringFull, h.params]
  exact fun ⟨hat, hfull, hg⟩ => ⟨hat, hfull, htx _ hg⟩

/-- TX.PUT's progress rests on the ring's registers and, between the writes of OWN and of the tail pointer, on DMA's
not gaining the descriptor. -/
theorem putProgress (htx : ∀ a, s.isGrantedTx a = false → t.isGrantedTx a = false) {k : PutPos}
    (hp : PutProgress s k) : PutProgress t k := by
  cases k with
  | ptrN slot d => exact ⟨h.beforeTailPtr htx hp.1, by rw [h.params]; exact hp.2⟩
  | ptrBase slot d wraps => exact ⟨h.beforeTailPtr htx hp.1, by rw [h.params, h.n]; exact hp.2⟩
  | writeTailPtr slot d ptr => exact ⟨h.beforeTailPtr htx hp.1, by rw [h.params, h.n, h.base]; exact hp.2⟩
  | tail => trivial
  | _ => simpa only [PutProgress, h.params, h.tail, h.mask, h.atPutSlot, h.ringFull, h.txPending] using hp

theorem updateProgress (k : UpdatePos) : UpdateProgress t k ↔ UpdateProgress s k := by
  cases k <;> simp only [UpdateProgress, h.params, h.base, h.mask, h.tail, h.cur, h.txPending]

end SameRing

theorem sameRing_of_keepsRegs {rs : List Reg} {s t : State} (hp : t.params = s.params) (hk : KeepsRegsBut rs s t)
    (hrs : ∀ r ∈ ringRegs, r ∉ rs) : SameRing s t := ⟨hp, fun r hr => hk r (hrs r hr)⟩

/-! ### The invariant by where SEQ stands -/

/-- SEQ is inside one of the operations of which TxRingInv says more. -/
def Seq.inTxRing : Seq → Bool
  | .txSetdesc _ _ _ => true
  | .txPut _ _ _ => true
  | .txUpdate _ => true
  | _ => false

theorem Seq.inTxRing_of_idleOrIn {q : Seq} {i : Instr} (h : q.IdleOrIn i)
    (hi : i ∉ ([.txSetdesc, .txPut, .txUpdate] : List Instr)) : q.inTxRing = false := by
  unfold Seq.inTxRing
  split
  all_goals rcases h with h | h <;> simp_all [Seq.operation]

theorem txRingInv_iff {s : State} (h : s.seq.inTxRing = false) :
    TxRingInv s ↔ s.params.wellFormed = true ∧ (s.txValid = true → RingSet s) := by
  unfold TxRingInv
  split <;> simp_all [Seq.inTxRing]

theorem txRingInv_txSetdesc {s : State} {k : SetdescPos} {base n : Word} (h : s.seq = .txSetdesc k base n) :
    TxRingInv s ↔
      s.params.wellFormed = true ∧ RingGeometry s.params base n ∧ SetdescProgress k base n s := by
  simp only [TxRingInv, h]

theorem txRingInv_txPut {s : State} {k : PutPos} {buf len : Word} (h : s.seq = .txPut k buf len) :
    TxRingInv s ↔ s.params.wellFormed = true ∧
      s.txValid = true ∧ RingSet s ∧ lenOk len = true ∧ PutProgress s k := by
  simp only [TxRingInv, h]

theorem txRingInv_txUpdate {s : State} {k : UpdatePos} (h : s.seq = .txUpdate k) :
    TxRingInv s ↔ s.params.wellFormed = true ∧ s.txValid = true ∧ RingSet s ∧ UpdateProgress s k := by
  simp only [TxRingInv, h]

theorem txRingInv_goto_txPut {s : State} {k : PutPos} {buf len : Word} :
    TxRingInv (s.goto (.txPut k buf len)) ↔ s.params.wellFormed = true ∧
      s.txValid = true ∧ RingSet s ∧ lenOk len = true ∧ PutProgress s k := Iff.rfl

theorem txRingInv_goto_txUpdate {s : State} {k : UpdatePos} :
    TxRingInv (s.goto (.txUpdate k)) ↔
      s.params.wellFormed = true ∧ s.txValid = true ∧ RingSet s ∧ UpdateProgress s k := Iff.rfl

/-- Outside the TX operations a step keeps the invariant where it keeps the ring's registers and does not make the
ring valid. -/
theorem txRingInv_outside {s t : State} (hinv : TxRingInv s) (hs : s.seq.inTxRing = false)
    (ht : t.seq.inTxRing = false) (hring : SameRing s t) (hvalid : t.txValid = true → s.txValid = true) :
    TxRingInv t := by
  rw [txRingInv_iff hs] at hinv
  rw [txRingInv_iff ht, hring.params, hring.ringSet]
  exact ⟨hinv.1, fun hv => hinv.2 (hvalid hv)⟩

/-- A step of an agent other than SEQ keeps the ring's invariant wherever SEQ stands. -/
theorem OthersStep.txRingInv {s t : State} (h : OthersStep s t) (hinv : TxRingInv s) : TxRingInv t := by
  have hring : SameRing s t := sameRing_of_keepsRegs h.params h.regs (by decide)
  have hvalid : t.txValid = s.txValid := by
    simp only [State.txValid, h.regs .init (by decide)]
  cases hq : s.seq with
  | txSetdesc k base n =>
    rw [txRingInv_txSetdesc hq] at hinv
    rwa [txRingInv_txSetdesc (h.seq.trans hq), h.params, hring.setdescProgress]
  | txPut k buf len =>
    obtain ⟨hwf, hv, hset, hlen, hp⟩ := (txRingInv_txPut hq).1 hinv
    rw [txRingInv_txPut (h.seq.trans hq), h.params, hvalid, hring.ringSet]
    exact ⟨hwf, hv, hset, hlen, hring.putProgress h.tx hp⟩
  | txUpdate k =>
    rw [txRingInv_txUpdate hq] at hinv
    rwa [txRingInv_txUpdate (h.seq.trans hq), h.params, hvalid, hring.ringSet, hring.updateProgress]
  | _ => exact txRingInv_outside hinv (by rw [hq]; rfl) (by rw [h.seq, hq]; rfl) hring (hvalid ▸ id)

/-! ### The operations of other families -/

/-- RX.ARM's write of INIT sets RX_VALID alone (R232). -/
theorem execRxArm_txValid {s t : State} (h : execRxArm s = .next t) : t.txValid = s.txValid := by
  rcases execRxArm_next h with ⟨-, -, -, -, rfl⟩ | ⟨k, desc, buf, -, h⟩ | ⟨e, -, h⟩
  · simp [State.txValid]
  · rcases armStep_next h with ⟨-, rfl⟩ | ⟨-, rfl⟩ | ⟨-, -, rfl⟩ | ⟨-, -, rfl⟩ | ⟨-, rfl⟩ | ⟨-, rfl⟩ | ⟨-, rfl⟩ <;>
      simp [State.txValid, State.setRxValid]
  · rcases finish_cases h with ⟨x, y, -, rfl⟩ | ⟨k, -, rfl⟩ <;> simp [State.txValid]

/-- TX.SETDESC's write of INIT sets TX_VALID alone (R206). -/
theorem execTxSetdesc_rxValid {s t : State} (h : execTxSetdesc s = .next t) : t.rxValid = s.rxValid := by
  rcases execTxSetdesc_next h with ⟨-, -, -, -, rfl⟩ | ⟨k, base, n, -, h⟩ | ⟨e, -, h⟩
  · simp [State.rxValid]
  · cases k <;> obtain rfl := next_eq_next.1 h <;> simp [State.rxValid, State.setTxValid]
  · rcases finish_cases h with ⟨x, y, -, rfl⟩ | ⟨k, -, rfl⟩ <;> simp [State.rxValid]

/-- DMA.SWRESET's write of INIT clears both bits (R251). -/
theorem execDmaSwreset_init {s t : State} (h : execDmaSwreset s = .next t) :
    t.reg .init = s.reg .init ∨ t.reg .init = 0#32 := by
  rcases execDmaSwreset_next h with ⟨-, rfl⟩ | ⟨-, rfl⟩ | ⟨-, rfl⟩ | ⟨-, -, rfl⟩ | ⟨-, -, rfl⟩ | ⟨e, -, h⟩
  · simp
  · simp
  · simp
  · simp
  · simp
  · rcases finish_cases h with ⟨x, y, -, rfl⟩ | ⟨k, -, rfl⟩ <;> simp

/-- Every other operation leaves INIT as it is (R38). -/
theorem exec_init {i : Instr} {s t : State} (hi : i.format = .opw)
    (hne : i ∉ ([.txSetdesc, .rxArm, .dmaSwreset] : List Instr)) (h : exec i s = .next t) :
    t.reg .init = s.reg .init := by
  obtain ⟨hkeeps, -⟩ := exec_stepsWithin_accesses hi h
  refine hkeeps .init ?_
  cases i <;> simp_all [Instr.accesses, endRegs]

/-- Of the operations only TX.SETDESC can make the ring valid (R206). -/
theorem exec_txValid {i : Instr} {s t : State} (hi : i.format = .opw) (hne : i ≠ .txSetdesc)
    (h : exec i s = .next t) (hv : t.txValid = true) : s.txValid = true := by
  by_cases harm : i = .rxArm
  · subst harm
    rwa [← execRxArm_txValid h]
  by_cases hswr : i = .dmaSwreset
  · subst hswr
    rcases execDmaSwreset_init h with h0 | h0 <;> simp_all [State.txValid]
  · have h0 := exec_init hi (by simp [hne, harm, hswr]) h
    rwa [State.txValid, ← h0]

/-- An operation that is not of the ring keeps its invariant: it writes none of the ring's registers. -/
theorem exec_txRingInv_of_other {i : Instr} {s t : State} (hi : i.format = .opw)
    (hne : i ∉ ([.txSetdesc, .txPut, .txUpdate] : List Instr)) (hq : s.seq.IdleOrIn i) (hinv : TxRingInv s)
    (h : exec i s = .next t) : TxRingInv t := by
  obtain ⟨hkeeps, hq'⟩ := exec_stepsWithin_accesses hi h
  refine txRingInv_outside hinv (Seq.inTxRing_of_idleOrIn hq hne) (Seq.inTxRing_of_idleOrIn hq' hne)
    (sameRing_of_keepsRegs (exec_aroundFrame h).params hkeeps ?_) (exec_txValid hi (by simp_all) h)
  cases i <;> simp_all [Instr.accesses, endRegs, ringRegs]

/-- The end of an operation of the ring keeps the invariant (R267, R269). -/
theorem finish_txRingInv {i : Instr} {e : Ending} {s t : State} (hq : s.seq = .ending i e) (hinv : TxRingInv s)
    (h : finish e s = .next t) : TxRingInv t := by
  have hs : s.seq.inTxRing = false := by rw [hq]; rfl
  have hkeeps := keepsRegsBut_endOperation (fun _ => id) s
  rcases finish_cases h with ⟨x, y, -, rfl⟩ | ⟨k, -, rfl⟩ <;>
    exact txRingInv_outside hinv hs rfl (sameRing_of_keepsRegs rfl (hkeeps _ _ _ _) (by decide))
      (by simp [State.txValid])

/-! ### TX.SETDESC (R206) -/

/-- A ring TX.SETDESC has just written is set, and empty. -/
theorem ringSet_of_setdescProgress {s : State} {base n : Word} (hgeo : RingGeometry s.params base n)
    (hp : SetdescProgress .valid base n s) : RingSet s := by
  obtain ⟨hbase, hn, hmask, htail, hcur, hringBase, hringLen, -⟩ := hp
  simp only [setdescIndex, Nat.reduceLT, forall_const] at hbase hn hmask htail hcur hringBase hringLen
  simp [RingSet, State.txPending, indexDiff, truncTo, hbase, hn, hmask, htail, hcur, hringBase, hringLen, hgeo]

theorem setdescStep_txRingInv {k : SetdescPos} {base n : Word} {s t : State} (hq : s.seq = .txSetdesc k base n)
    (hinv : TxRingInv s) (h : setdescStep k base n s = .next t) : TxRingInv t := by
  obtain ⟨hwf, hgeo, hp⟩ := (txRingInv_txSetdesc hq).1 hinv
  cases k with
  | valid =>
    obtain rfl := next_eq_next.1 h
    have hring : SameRing s s.setTxValid := sameRing_of_keepsRegs (rs := [.init]) rfl
      (keepsRegsBut_setReg (by decide) (keepsRegsBut_refl _ s)) (by decide)
    exact (txRingInv_iff rfl).2 ⟨hwf, fun _ => hring.ringSet.2 (ringSet_of_setdescProgress hgeo hp)⟩
  | _ =>
    obtain rfl := next_eq_next.1 h
    refine (txRingInv_txSetdesc rfl).2 ⟨hwf, hgeo, ?_⟩
    simp_all [SetdescProgress, setdescIndex]

theorem execTxSetdesc_txRingInv {s t : State} (hinv : TxRingInv s) (h : execTxSetdesc s = .next t) :
    TxRingInv t := by
  rcases execTxSetdesc_next h with ⟨-, hl, halign, hfits, rfl⟩ | ⟨k, base, n, hq, h⟩ | ⟨e, hq, h⟩
  · refine (txRingInv_txSetdesc rfl).2 ⟨hinv.1, ⟨halign, hfits, powerOfTwo_pow2Floor hl⟩, ?_⟩
    simp [SetdescProgress, setdescIndex]
  · exact setdescStep_txRingInv hq hinv h
  · exact finish_txRingInv hq hinv h

/-! ### TX.PUT (R208, R211, R213, R222) -/

/-- Where a ring of more than one slot is not at capacity, one more slot may be pending (R211, R213). -/
theorem ringSet_setReg_txTail {s : State} (hok : s.params.ringsOk = true) (hset : RingSet s)
    (hfull : s.ringFull = false) : RingSet (s.setReg .txTail (nextIndex s.params (s.reg .txTail))) := by
  obtain ⟨hgeo, hmask, hringBase, hringLen, htail, hcur, hpending⟩ := hset
  refine ⟨hgeo, hmask, hringBase, hringLen, nextIndex_lt hok _, hcur, fun hn => ?_⟩
  change 1 < (s.reg .txN).toNat at hn
  change (indexDiff s.params (nextIndex s.params (s.reg .txTail)) (s.reg .txCur)).toNat ≤ (s.reg .txN).toNat
  have hne : s.txPending.toNat ≠ (s.reg .txN).toNat := fun he => by
    simp [State.ringFull, hn, BitVec.eq_of_toNat_eq he] at hfull
  calc _ ≤ s.txPending.toNat + 1 := indexDiff_nextIndex_left hok htail hcur
    _ ≤ (s.reg .txN).toNat := by have := hpending hn; omega

theorem ringFull_eq_false_of_single {s : State} (h : ¬ 1 < (s.reg .txN).toNat) : s.ringFull = false := by
  simp [State.ringFull, h]

theorem ringFull_eq_false_of_ne {s : State} (h : s.txPending ≠ s.reg .txN) : s.ringFull = false := by
  simp [State.ringFull, h]

/-- Once OWN is written, the descriptor is not DMA's to consume until the tail pointer is (R222, R223). -/
theorem putProgress_tailPtrStart {s : State} {slot d v : Word} (hp : PutProgress s (.writeCtl slot d)) :
    PutProgress (s.setWord (descWord s.params d 3) v) (tailPtrStart s.params slot d) := by
  obtain ⟨hat, hfull⟩ := hp
  have hbefore : BeforeTailPtr (s.setWord (descWord s.params d 3) v) slot d := ⟨hat, hfull, by simp⟩
  unfold tailPtrStart
  split
  · exact ⟨hbefore, ‹_›⟩
  · exact ⟨hbefore, by simp_all [tailWraps]⟩

theorem putStep_txRingInv {k : PutPos} {buf len : Word} {s t : State} (hq : s.seq = .txPut k buf len)
    (hinv : TxRingInv s) (h : putStep k buf len s = .next t) : TxRingInv t := by
  obtain ⟨hwf, hv, hset, hlen, hp⟩ := (txRingInv_txPut hq).1 hinv
  rcases putStep_next h with ⟨-, rfl⟩ | ⟨tail, rfl, rfl⟩ | ⟨slot, rfl, rfl⟩ | ⟨slot, d, -, -, rfl⟩ |
    ⟨slot, d, rfl, -, rfl⟩ | ⟨slot, d, rfl, -, rfl⟩ | ⟨slot, d, rfl, hn, rfl⟩ | ⟨slot, d, rfl, rfl⟩ |
    ⟨slot, d, tail, rfl, rfl⟩ | ⟨slot, d, used, -, -, rfl⟩ | ⟨slot, d, used, rfl, hne, rfl⟩ |
    ⟨slot, d, rfl, -, rfl⟩ | ⟨slot, d, rfl, -, rfl⟩ | ⟨slot, d, rfl, -, rfl⟩ | ⟨slot, d, rfl, rfl⟩ |
    ⟨slot, d, wraps, rfl, rfl⟩ | ⟨slot, d, ptr, rfl, rfl⟩ | ⟨slot, d, rfl, rfl⟩ | ⟨slot, d, tail, rfl, rfl⟩
  · exact txRingInv_goto_txPut.2 ⟨hwf, hv, hset, hlen, rfl⟩
  · obtain rfl := hp
    exact txRingInv_goto_txPut.2 ⟨hwf, hv, hset, hlen, rfl⟩
  · obtain rfl := hp
    exact txRingInv_goto_txPut.2 ⟨hwf, hv, hset, hlen, rfl, rfl⟩
  · exact (txRingInv_iff rfl).2 ⟨hwf, fun _ => hset⟩
  · exact txRingInv_goto_txPut.2 ⟨hwf, hv, hset, hlen, hp⟩
  · exact txRingInv_goto_txPut.2 ⟨hwf, hv, hset, hlen, hp⟩
  · exact txRingInv_goto_txPut.2 ⟨hwf, hv, hset, hlen, hp, ringFull_eq_false_of_single hn⟩
  · exact txRingInv_goto_txPut.2 ⟨hwf, hv, hset, hlen, hp, rfl⟩
  · obtain ⟨hat, rfl⟩ := hp
    exact txRingInv_goto_txPut.2 ⟨hwf, hv, hset, hlen, hat, rfl⟩
  · exact (txRingInv_iff rfl).2 ⟨hwf, fun _ => hset⟩
  · obtain ⟨hat, rfl⟩ := hp
    exact txRingInv_goto_txPut.2 ⟨hwf, hv, hset, hlen, hat, ringFull_eq_false_of_ne hne⟩
  · exact txRingInv_goto_txPut.2 ⟨hwf, hv, hset, hlen, hp⟩
  · exact txRingInv_goto_txPut.2 ⟨hwf, hv, hset, hlen, hp⟩
  · exact txRingInv_goto_txPut.2 ⟨hwf, hv, hset, hlen, putProgress_tailPtrStart hp⟩
  · exact txRingInv_goto_txPut.2 ⟨hwf, hv, hset, hlen, hp.1, rfl⟩
  · obtain ⟨hbefore, rfl⟩ := hp
    exact txRingInv_goto_txPut.2 ⟨hwf, hv, hset, hlen, hbefore, rfl⟩
  · obtain ⟨⟨hat, hfull, -⟩, -⟩ := hp
    exact txRingInv_goto_txPut.2 ⟨hwf, hv, hset, hlen, hat, hfull⟩
  · exact txRingInv_goto_txPut.2 ⟨hwf, hv, hset, hlen, hp.1, hp.2, rfl⟩
  · obtain ⟨-, hfull, rfl⟩ := hp
    exact (txRingInv_iff rfl).2 ⟨hwf, fun _ => ringSet_setReg_txTail (ringsOk_of_wellFormed hwf) hset hfull⟩

theorem execTxPut_txRingInv {s t : State} (hinv : TxRingInv s) (h : execTxPut s = .next t) : TxRingInv t := by
  rcases execTxPut_next h with ⟨hq, hv, hlen, rfl⟩ | ⟨k, buf, len, hq, h⟩ | ⟨e, hq, h⟩
  · obtain ⟨hwf, hset⟩ := (txRingInv_iff (by rw [hq]; rfl)).1 hinv
    exact txRingInv_goto_txPut.2 ⟨hwf, hv, hset hv, hlen, trivial⟩
  · exact putStep_txRingInv hq hinv h
  · exact finish_txRingInv hq hinv h

/-! ### TX.UPDATE (R215, R216) -/

/-- A pending slot may be reclaimed (R216). -/
theorem ringSet_setReg_txCur {s : State} (hok : s.params.ringsOk = true) (hset : RingSet s)
    (hne : s.reg .txCur ≠ s.reg .txTail) : RingSet (s.setReg .txCur (nextIndex s.params (s.reg .txCur))) := by
  obtain ⟨hgeo, hmask, hringBase, hringLen, htail, hcur, hpending⟩ := hset
  exact ⟨hgeo, hmask, hringBase, hringLen, htail, nextIndex_lt hok _, fun hn =>
    (indexDiff_nextIndex_right hok htail hcur hne).trans (hpending hn)⟩

theorem updateStep_txRingInv {k : UpdatePos} {s t : State} (hq : s.seq = .txUpdate k) (hinv : TxRingInv s)
    (h : updateStep k s = .next t) : TxRingInv t := by
  obtain ⟨hwf, hv, hset, hp⟩ := (txRingInv_txUpdate hq).1 hinv
  rcases updateStep_next h with ⟨-, rfl⟩ | ⟨cur, -, -, rfl⟩ | ⟨cur, rfl, hne, rfl⟩ | ⟨rfl, rfl⟩ |
    ⟨cur, rfl, rfl⟩ | ⟨slot, rfl, rfl⟩ | ⟨d, -, -, rfl⟩ | ⟨d, rfl, -, rfl⟩ | ⟨rfl, rfl⟩ | ⟨cur, rfl, rfl⟩ |
    ⟨-, rfl⟩ | ⟨tail, rfl, rfl⟩ | ⟨pending, rfl, rfl⟩ | ⟨pending, cur, -, rfl⟩
  · exact txRingInv_goto_txUpdate.2 ⟨hwf, hv, hset, rfl⟩
  · exact txRingInv_goto_txUpdate.2 ⟨hwf, hv, hset, trivial⟩
  · obtain rfl := hp
    exact txRingInv_goto_txUpdate.2 ⟨hwf, hv, hset, hne⟩
  · exact txRingInv_goto_txUpdate.2 ⟨hwf, hv, hset, rfl, hp⟩
  · obtain ⟨rfl, hne⟩ := hp
    exact txRingInv_goto_txUpdate.2 ⟨hwf, hv, hset, rfl, hne⟩
  · obtain ⟨rfl, hne⟩ := hp
    exact txRingInv_goto_txUpdate.2 ⟨hwf, hv, hset, rfl, hne⟩
  · exact txRingInv_goto_txUpdate.2 ⟨hwf, hv, hset, trivial⟩
  · exact txRingInv_goto_txUpdate.2 ⟨hwf, hv, hset, hp.2⟩
  · exact txRingInv_goto_txUpdate.2 ⟨hwf, hv, hset, rfl, hp⟩
  · obtain ⟨rfl, hne⟩ := hp
    exact txRingInv_goto_txUpdate.2
      ⟨hwf, hv, ringSet_setReg_txCur (ringsOk_of_wellFormed hwf) hset hne, trivial⟩
  · exact txRingInv_goto_txUpdate.2 ⟨hwf, hv, hset, rfl⟩
  · obtain rfl := hp
    exact txRingInv_goto_txUpdate.2 ⟨hwf, hv, hset, rfl⟩
  · exact txRingInv_goto_txUpdate.2 ⟨hwf, hv, hset, hp, rfl⟩
  · exact (txRingInv_iff rfl).2 ⟨hwf, fun _ => hset⟩

theorem execTxUpdate_txRingInv {s t : State} (hinv : TxRingInv s) (h : execTxUpdate s = .next t) :
    TxRingInv t := by
  rcases execTxUpdate_next h with ⟨hq, hv, rfl⟩ | ⟨k, hq, h⟩ | ⟨e, hq, h⟩
  · obtain ⟨hwf, hset⟩ := (txRingInv_iff (by rw [hq]; rfl)).1 hinv
    exact txRingInv_goto_txUpdate.2 ⟨hwf, hv, hset hv, trivial⟩
  · exact updateStep_txRingInv hq hinv h
  · exact finish_txRingInv hq hinv h

/-! ### Every step -/

theorem exec_txRingInv {i : Instr} {s t : State} (hi : i.format = .opw) (hq : s.seq.IdleOrIn i)
    (hinv : TxRingInv s) (h : exec i s = .next t) : TxRingInv t := by
  cases i with
  | txSetdesc => exact execTxSetdesc_txRingInv hinv h
  | txPut => exact execTxPut_txRingInv hinv h
  | txUpdate => exact execTxUpdate_txRingInv hinv h
  | _ => exact exec_txRingInv_of_other hi (by simp) hq hinv h

/-- Settles O56: the invariant is inductive. Other agents and other operations write none of the ring's registers; a
put comes only where fewer than N slots are pending, and an update passes only a pending slot. -/
theorem txRingInvariantIsKept : Obligations.TxRingInvariantIsKept := by
  unfold Obligations.TxRingInvariantIsKept
  intro s t
  exact kept_by_step (fun _ _ => OthersStep.txRingInv) (fun _ _ _ => exec_txRingInv)
    fun s hinv => (txRingInv_iff rfl).2 ⟨hinv.1, by simp⟩

end Sys2Proof.Machine
end

section
/-! The RX slot's invariant (R50, R231, R232, R241): the steps that touch none of its registers, and the steps of
RX.ARM, RX.POLL and RX.REARM. -/

namespace Sys2Proof.Machine

/-! ### Steps that keep the slot's registers -/

/-- The registers SlotSet and the RX operations' progress speak of. -/
def slotRegs : List Reg := [.rxDesc, .rxBuf, .rxRingBase, .rxTailPtr]

/-- The parameters and the slot's registers are as before. -/
structure SameSlot (s t : State) : Prop where
  params : t.params = s.params
  regs : ∀ r ∈ slotRegs, t.reg r = s.reg r

/-- What RxSlotInv says inside RX.ARM. -/
def ArmProgress (s : State) (k : ArmPos) (d buf : Word) : Prop :=
  s.rxValid = false ∧ SlotGeometry s.params d ∧ (0 < armIndex k → s.reg .rxDesc = d) ∧
  (1 < armIndex k → s.reg .rxBuf = buf) ∧ (4 < armIndex k → s.reg .rxRingBase = d) ∧
  (5 < armIndex k → s.reg .rxTailPtr = d) ∧
  (k = .ringBase ∨ k = .tailPtr → s.isGrantedRx (descWord s.params d 3) = false)

namespace SameSlot
variable {s t : State} (h : SameSlot s t)
include h

theorem desc : t.reg .rxDesc = s.reg .rxDesc := h.regs _ (by decide)
theorem buf : t.reg .rxBuf = s.reg .rxBuf := h.regs _ (by decide)
theorem ringBase : t.reg .rxRingBase = s.reg .rxRingBase := h.regs _ (by decide)
theorem tailPtr : t.reg .rxTailPtr = s.reg .rxTailPtr := h.regs _ (by decide)

theorem slotSet : SlotSet t ↔ SlotSet s := by
  simp only [SlotSet, h.params, h.desc, h.ringBase]

theorem armProgress (hvalid : t.rxValid = s.rxValid)
    (hrx : ∀ a, s.isGrantedRx a = false → t.isGrantedRx a = false) {k : ArmPos} {d buf : Word}
    (hp : ArmProgress s k d buf) : ArmProgress t k d buf := by
  obtain ⟨hv, hgeo, hdesc, hbuf, hringBase, htailPtr, hg⟩ := hp
  simp only [ArmProgress, hvalid, h.params, h.desc, h.buf, h.ringBase, h.tailPtr]
  exact ⟨hv, hgeo, hdesc, hbuf, hringBase, htailPtr, fun hk => hrx _ (hg hk)⟩

theorem pollProgress (k : PollPos) : PollProgress t k ↔ PollProgress s k := by
  cases k <;> simp only [PollProgress, h.desc]

theorem rearmProgress (hrx : ∀ a, s.isGrantedRx a = false → t.isGrantedRx a = false) {k : RearmPos}
    (hp : RearmProgress s k) : RearmProgress t k := by
  cases k with
  | desc => trivial
  | readOwn d => exact Eq.trans hp h.desc.symm
  | writeCtl d => exact Eq.trans hp h.desc.symm
  | readTailPtr d => exact ⟨hp.1.trans h.desc.symm, by rw [h.params]; exact hrx _ hp.2⟩
  | writeTailPtr d ptr => exact ⟨hp.1.trans h.desc.symm, by rw [h.params]; exact hrx _ hp.2⟩

end SameSlot

theorem sameSlot_of_keepsRegs {rs : List Reg} {s t : State} (hp : t.params = s.params) (hk : KeepsRegsBut rs s t)
    (hrs : ∀ r ∈ slotRegs, r ∉ rs) : SameSlot s t := ⟨hp, fun r hr => hk r (hrs r hr)⟩

/-! ### The invariant by where SEQ stands -/

/-- SEQ is inside one of the operations of which RxSlotInv says more. -/
def Seq.inRxSlot : Seq → Bool
  | .rxArm _ _ _ => true
  | .rxPoll _ => true
  | .rxRearm _ => true
  | _ => false

theorem Seq.inRxSlot_of_idleOrIn {q : Seq} {i : Instr} (h : q.IdleOrIn i)
    (hi : i ∉ ([.rxArm, .rxPoll, .rxRearm] : List Instr)) : q.inRxSlot = false := by
  unfold Seq.inRxSlot
  split
  all_goals rcases h with h | h <;> simp_all [Seq.operation]

theorem rxSlotInv_iff {s : State} (h : s.seq.inRxSlot = false) :
    RxSlotInv s ↔ s.params.wellFormed = true ∧ (s.rxValid = true → SlotSet s) := by
  unfold RxSlotInv
  split <;> simp_all [Seq.inRxSlot]

theorem rxSlotInv_rxArm {s : State} {k : ArmPos} {d buf : Word} (h : s.seq = .rxArm k d buf) :
    RxSlotInv s ↔ s.params.wellFormed = true ∧ ArmProgress s k d buf := by
  simp only [RxSlotInv, h, ArmProgress]

theorem rxSlotInv_rxPoll {s : State} {k : PollPos} (h : s.seq = .rxPoll k) :
    RxSlotInv s ↔ s.params.wellFormed = true ∧ s.rxValid = true ∧ SlotSet s ∧ PollProgress s k := by
  simp only [RxSlotInv, h]

theorem rxSlotInv_rxRearm {s : State} {k : RearmPos} (h : s.seq = .rxRearm k) :
    RxSlotInv s ↔ s.params.wellFormed = true ∧ s.rxValid = true ∧ SlotSet s ∧ RearmProgress s k := by
  simp only [RxSlotInv, h]

theorem rxSlotInv_goto_rxArm {s : State} {k : ArmPos} {d buf : Word} :
    RxSlotInv (s.goto (.rxArm k d buf)) ↔ s.params.wellFormed = true ∧ ArmProgress s k d buf := Iff.rfl

theorem rxSlotInv_goto_rxPoll {s : State} {k : PollPos} :
    RxSlotInv (s.goto (.rxPoll k)) ↔
      s.params.wellFormed = true ∧ s.rxValid = true ∧ SlotSet s ∧ PollProgress s k := Iff.rfl

theorem rxSlotInv_goto_rxRearm {s : State} {k : RearmPos} :
    RxSlotInv (s.goto (.rxRearm k)) ↔
      s.params.wellFormed = true ∧ s.rxValid = true ∧ SlotSet s ∧ RearmProgress s k := Iff.rfl

/-- Outside the RX operations a step keeps the invariant where it keeps the slot's registers and does not make the
slot valid. -/
theorem rxSlotInv_outside {s t : State} (hinv : RxSlotInv s) (hs : s.seq.inRxSlot = false)
    (ht : t.seq.inRxSlot = false) (hslot : SameSlot s t) (hvalid : t.rxValid = true → s.rxValid = true) :
    RxSlotInv t := by
  rw [rxSlotInv_iff hs] at hinv
  rw [rxSlotInv_iff ht, hslot.params, hslot.slotSet]
  exact ⟨hinv.1, fun hv => hinv.2 (hvalid hv)⟩

/-- A step of an agent other than SEQ keeps the slot's invariant wherever SEQ stands. -/
theorem OthersStep.rxSlotInv {s t : State} (h : OthersStep s t) (hinv : RxSlotInv s) : RxSlotInv t := by
  have hslot : SameSlot s t := sameSlot_of_keepsRegs h.params h.regs (by decide)
  have hvalid : t.rxValid = s.rxValid := by
    simp only [State.rxValid, h.regs .init (by decide)]
  cases hq : s.seq with
  | rxArm k d buf =>
    obtain ⟨hwf, hp⟩ := (rxSlotInv_rxArm hq).1 hinv
    rw [rxSlotInv_rxArm (h.seq.trans hq), h.params]
    exact ⟨hwf, hslot.armProgress hvalid h.rx hp⟩
  | rxPoll k =>
    rw [rxSlotInv_rxPoll hq] at hinv
    rwa [rxSlotInv_rxPoll (h.seq.trans hq), h.params, hvalid, hslot.slotSet, hslot.pollProgress]
  | rxRearm k =>
    obtain ⟨hwf, hv, hset, hp⟩ := (rxSlotInv_rxRearm hq).1 hinv
    rw [rxSlotInv_rxRearm (h.seq.trans hq), h.params, hvalid, hslot.slotSet]
    exact ⟨hwf, hv, hset, hslot.rearmProgress h.rx hp⟩
  | _ => exact rxSlotInv_outside hinv (by rw [hq]; rfl) (by rw [h.seq, hq]; rfl) hslot (hvalid ▸ id)

/-! ### The operations of other families -/

/-- Of the operations only RX.ARM can make the slot valid (R232). -/
theorem exec_rxValid {i : Instr} {s t : State} (hi : i.format = .opw) (hne : i ≠ .rxArm)
    (h : exec i s = .next t) (hv : t.rxValid = true) : s.rxValid = true := by
  by_cases hsetdesc : i = .txSetdesc
  · subst hsetdesc
    rwa [← execTxSetdesc_rxValid h]
  by_cases hswr : i = .dmaSwreset
  · subst hswr
    rcases execDmaSwreset_init h with h0 | h0 <;> simp_all [State.rxValid]
  · have h0 := exec_init hi (by simp [hne, hsetdesc, hswr]) h
    rwa [State.rxValid, ← h0]

/-- An operation that is not of the slot keeps its invariant: it writes none of the slot's registers. -/
theorem exec_rxSlotInv_of_other {i : Instr} {s t : State} (hi : i.format = .opw)
    (hne : i ∉ ([.rxArm, .rxPoll, .rxRearm] : List Instr)) (hq : s.seq.IdleOrIn i) (hinv : RxSlotInv s)
    (h : exec i s = .next t) : RxSlotInv t := by
  obtain ⟨hkeeps, hq'⟩ := exec_stepsWithin_accesses hi h
  refine rxSlotInv_outside hinv (Seq.inRxSlot_of_idleOrIn hq hne) (Seq.inRxSlot_of_idleOrIn hq' hne)
    (sameSlot_of_keepsRegs (exec_aroundFrame h).params hkeeps ?_) (exec_rxValid hi (by simp_all) h)
  cases i <;> simp_all [Instr.accesses, endRegs, slotRegs]

/-- The end of an operation of the slot keeps the invariant (R267, R269). -/
theorem finish_rxSlotInv {i : Instr} {e : Ending} {s t : State} (hq : s.seq = .ending i e) (hinv : RxSlotInv s)
    (h : finish e s = .next t) : RxSlotInv t := by
  have hs : s.seq.inRxSlot = false := by rw [hq]; rfl
  have hkeeps := keepsRegsBut_endOperation (fun _ => id) s
  rcases finish_cases h with ⟨x, y, -, rfl⟩ | ⟨k, -, rfl⟩ <;>
    exact rxSlotInv_outside hinv hs rfl (sameSlot_of_keepsRegs rfl (hkeeps _ _ _ _) (by decide))
      (by simp [State.rxValid])

/-! ### RX.ARM (R231, R232, R241) -/

/-- A slot RX.ARM has just written is set. -/
theorem slotSet_of_armProgress {s : State} {d buf : Word} (hp : ArmProgress s .valid d buf) : SlotSet s := by
  obtain ⟨-, hgeo, hdesc, -, hringBase, -, -⟩ := hp
  have hdesc := hdesc (by decide)
  exact ⟨hdesc ▸ hgeo, (hringBase (by decide)).trans hdesc.symm⟩

/-- Each access of RX.ARM adds its register to those written, the write of OWN ends the grant of word 3, and only the
tail pointer write gives it back. -/
theorem armStep_rxSlotInv {k : ArmPos} {d buf : Word} {s t : State} (hq : s.seq = .rxArm k d buf)
    (hinv : RxSlotInv s) (h : armStep k d buf s = .next t) : RxSlotInv t := by
  obtain ⟨hwf, hp⟩ := (rxSlotInv_rxArm hq).1 hinv
  rcases armStep_next h with ⟨rfl, rfl⟩ | ⟨rfl, rfl⟩ | ⟨rfl, -, rfl⟩ | ⟨rfl, -, rfl⟩ | ⟨rfl, rfl⟩ | ⟨rfl, rfl⟩ |
    ⟨rfl, rfl⟩
  on_goal 7 =>
    have hslot : SameSlot s s.setRxValid := sameSlot_of_keepsRegs (rs := [.init]) rfl
      (keepsRegsBut_setReg (by decide) (keepsRegsBut_refl _ s)) (by decide)
    exact (rxSlotInv_iff rfl).2 ⟨hwf, fun _ => hslot.slotSet.2 (slotSet_of_armProgress hp)⟩
  all_goals
    refine rxSlotInv_goto_rxArm.2 ⟨hwf, ?_⟩
    simp_all [ArmProgress, armIndex, State.rxValid]

theorem execRxArm_rxSlotInv {s t : State} (hinv : RxSlotInv s) (h : execRxArm s = .next t) : RxSlotInv t := by
  rcases execRxArm_next h with ⟨-, hv, halign, hfits, rfl⟩ | ⟨k, d, buf, hq, h⟩ | ⟨e, hq, h⟩
  · refine rxSlotInv_goto_rxArm.2 ⟨hinv.1, hv, ⟨halign, hfits⟩, ?_⟩
    simp [armIndex]
  · exact armStep_rxSlotInv hq hinv h
  · exact finish_rxSlotInv hq hinv h

/-! ### RX.POLL (R235) -/

theorem execRxPoll_rxSlotInv {s t : State} (hinv : RxSlotInv s) (h : execRxPoll s = .next t) : RxSlotInv t := by
  rcases execRxPoll_next h with ⟨hq, hv, rfl⟩ | ⟨k, hq, h⟩ | ⟨e, hq, h⟩
  · obtain ⟨hwf, hset⟩ := (rxSlotInv_iff (by rw [hq]; rfl)).1 hinv
    exact rxSlotInv_goto_rxPoll.2 ⟨hwf, hv, hset hv, trivial⟩
  · obtain ⟨hwf, hv, hset, hp⟩ := (rxSlotInv_rxPoll hq).1 hinv
    rcases pollStep_next h with ⟨-, rfl⟩ | ⟨d, -, -, rfl⟩ | ⟨d, rfl, -, rfl⟩ | ⟨d, -, rfl⟩ | ⟨len, -, rfl⟩
    · exact rxSlotInv_goto_rxPoll.2 ⟨hwf, hv, hset, rfl⟩
    · exact (rxSlotInv_iff rfl).2 ⟨hwf, fun _ => hset⟩
    · exact rxSlotInv_goto_rxPoll.2 ⟨hwf, hv, hset, hp⟩
    · exact rxSlotInv_goto_rxPoll.2 ⟨hwf, hv, hset, trivial⟩
    · exact (rxSlotInv_iff rfl).2 ⟨hwf, fun _ => hset⟩
  · exact finish_rxSlotInv hq hinv h

/-! ### RX.REARM (R238, R240, R241) -/

/-- Once OWN is written, the slot is not DMA's to fill until the tail pointer is (R241). -/
theorem rearmProgress_rearmPtrStart {s : State} {d v : Word} (hp : RearmProgress s (.writeCtl d)) :
    RearmProgress (s.setWord (descWord s.params d 3) v) (rearmPtrStart s.params d) := by
  unfold rearmPtrStart
  split <;> exact ⟨hp, by simp⟩

theorem execRxRearm_rxSlotInv {s t : State} (hinv : RxSlotInv s) (h : execRxRearm s = .next t) :
    RxSlotInv t := by
  rcases execRxRearm_next h with ⟨hq, hv, rfl⟩ | ⟨k, hq, h⟩ | ⟨e, hq, h⟩
  · obtain ⟨hwf, hset⟩ := (rxSlotInv_iff (by rw [hq]; rfl)).1 hinv
    exact rxSlotInv_goto_rxRearm.2 ⟨hwf, hv, hset hv, trivial⟩
  · obtain ⟨hwf, hv, hset, hp⟩ := (rxSlotInv_rxRearm hq).1 hinv
    rcases rearmStep_next h with ⟨-, rfl⟩ | ⟨d, rfl, -, rfl⟩ | ⟨d, rfl, -, rfl⟩ | ⟨d, rfl, rfl⟩ | ⟨d, ptr, -, rfl⟩
    · exact rxSlotInv_goto_rxRearm.2 ⟨hwf, hv, hset, rfl⟩
    · exact rxSlotInv_goto_rxRearm.2 ⟨hwf, hv, hset, hp⟩
    · exact rxSlotInv_goto_rxRearm.2 ⟨hwf, hv, hset, rearmProgress_rearmPtrStart hp⟩
    · exact rxSlotInv_goto_rxRearm.2 ⟨hwf, hv, hset, hp⟩
    · exact (rxSlotInv_iff rfl).2 ⟨hwf, fun _ => hset⟩
  · exact finish_rxSlotInv hq hinv h

/-! ### Every step -/

theorem exec_rxSlotInv {i : Instr} {s t : State} (hi : i.format = .opw) (hq : s.seq.IdleOrIn i)
    (hinv : RxSlotInv s) (h : exec i s = .next t) : RxSlotInv t := by
  cases i with
  | rxArm => exact execRxArm_rxSlotInv hinv h
  | rxPoll => exact execRxPoll_rxSlotInv hinv h
  | rxRearm => exact execRxRearm_rxSlotInv hinv h
  | _ => exact exec_rxSlotInv_of_other hi (by simp) hq hinv h

/-- Settles O57: the invariant is inductive. Other agents and other operations write none of the slot's registers, and
between the write of OWN and the tail pointer write nothing gives DMA the slot. -/
theorem rxSlotInvariantIsKept : Obligations.RxSlotInvariantIsKept := by
  unfold Obligations.RxSlotInvariantIsKept
  intro s t
  exact kept_by_step (fun _ _ => OthersStep.rxSlotInv) (fun _ _ _ => exec_rxSlotInv)
    fun s hinv => (rxSlotInv_iff rfl).2 ⟨hinv.1, by simp⟩

end Sys2Proof.Machine
end

section
/-! The fields of a command word (R22, R102, R110): what a field reads of a placed value, and of a word with BUSY
cleared. -/

namespace Sys2Proof

/-! ### Fields and placed values, bit by bit -/

theorem getLsbD_field {n : Nat} (v : BitVec n) (lo w i : Nat) :
    (field v lo w).getLsbD i = (decide (i < w) && v.getLsbD (lo + i)) := by
  simp [field]

theorem getLsbD_place {w : Nat} (f : BitVec w) (lo i : Nat) :
    (place f lo).getLsbD i = (decide (i < 32) && decide (lo ≤ i) && f.getLsbD (i - lo)) := by
  rw [place, BitVec.getLsbD_shiftLeft, BitVec.getLsbD_setWidth]
  grind

theorem disjointFields_iff {lo₁ w₁ lo₂ w₂ : Nat} :
    disjointFields lo₁ w₁ lo₂ w₂ = true ↔ lo₁ + w₁ ≤ lo₂ ∨ lo₂ + w₂ ≤ lo₁ := decide_eq_true_iff

theorem disjointFields_comm {lo₁ w₁ lo₂ w₂ : Nat} :
    disjointFields lo₁ w₁ lo₂ w₂ = disjointFields lo₂ w₂ lo₁ w₁ := by
  rw [Bool.eq_iff_iff, disjointFields_iff, disjointFields_iff, or_comm]

@[simp] theorem field_or (v v' : Word) (lo w : Nat) : field (v ||| v') lo w = field v lo w ||| field v' lo w := by
  simp [field, BitVec.ushiftRight_or_distrib]

/-- A placed value reads back from its own field. -/
theorem field_place_same {w : Nat} (f : BitVec w) {lo : Nat} (h : lo + w ≤ 32) : field (place f lo) lo w = f := by
  apply BitVec.eq_of_getLsbD_eq
  intro i hi
  rw [getLsbD_field, getLsbD_place]
  simp [hi, show lo + i < 32 by omega]

/-- A placed value reads as 0 from a field that shares no bit with it. -/
theorem field_place_disjoint {w w' : Nat} (f : BitVec w) {lo lo' : Nat} (h : disjointFields lo w lo' w' = true) :
    field (place f lo) lo' w' = 0#w' := by
  rw [disjointFields_iff] at h
  apply BitVec.eq_of_getLsbD_eq
  intro i hi
  rw [getLsbD_field, getLsbD_place, BitVec.getLsbD_zero]
  rcases h with h | h
  · simp [BitVec.getLsbD_of_ge f (lo' + i - lo) (by omega)]
  · simp [show ¬ lo ≤ lo' + i by omega]

/-- Clearing a placed value's bits leaves a field that shares none of them. -/
theorem field_and_not_place {w w' : Nat} (v : Word) (f : BitVec w) {lo lo' : Nat}
    (h : disjointFields lo w lo' w' = true) (hw : lo' + w' ≤ 32) :
    field (v &&& ~~~ (place f lo)) lo' w' = field v lo' w' := by
  apply BitVec.eq_of_getLsbD_eq
  intro i hi
  have hbit := congrArg (fun u => u.getLsbD i) (field_place_disjoint f h)
  simp only [getLsbD_field, hi, decide_true, Bool.true_and, BitVec.getLsbD_zero] at hbit
  rw [getLsbD_field, getLsbD_field, BitVec.getLsbD_and, BitVec.getLsbD_not, hbit]
  simp [show lo' + i < 32 by omega]

/-! ### The four fields of MDIO_CMD -/

/-- BUSY is a field of one bit (R22). -/
theorem cmdBusy_eq_field (P : Config.Params) (c : Word) : cmdBusy P c = (field c P.cmdBusyBit 1).getLsbD 0 := by
  rw [getLsbD_field]
  simp [cmdBusy]

/-- The fields lie in the word and share no bit (R102). -/
structure CmdLayout (P : Config.Params) : Prop where
  busy : P.cmdBusyBit + 1 ≤ 32
  op : P.cmdOpLo + 2 ≤ 32
  regad : P.cmdRegadLo + 5 ≤ 32
  phyad : P.cmdPhyadLo + 6 ≤ 32
  busy_op : disjointFields P.cmdBusyBit 1 P.cmdOpLo 2 = true
  busy_regad : disjointFields P.cmdBusyBit 1 P.cmdRegadLo 5 = true
  busy_phyad : disjointFields P.cmdBusyBit 1 P.cmdPhyadLo 6 = true
  op_regad : disjointFields P.cmdOpLo 2 P.cmdRegadLo 5 = true
  op_phyad : disjointFields P.cmdOpLo 2 P.cmdPhyadLo 6 = true
  regad_phyad : disjointFields P.cmdRegadLo 5 P.cmdPhyadLo 6 = true

theorem cmdLayout_of_wellFormed {P : Config.Params} (h : P.wellFormed = true) : CmdLayout P := by
  simp only [Config.Params.wellFormed, Bool.and_eq_true, decide_eq_true_eq] at h
  obtain ⟨⟨⟨⟨⟨⟨⟨⟨⟨⟨⟨⟨⟨⟨hbusy, hop⟩, hregad⟩, hphyad⟩, h1⟩, h2⟩, h3⟩, h4⟩, h5⟩, h6⟩, -⟩, -⟩, -⟩, -⟩, -⟩ := h
  exact ⟨hbusy, hop, hregad, hphyad, h1, h2, h3, h4, h5, h6⟩

section
variable {P : Config.Params} (h : CmdLayout P) (p : PhyAddr) (r : RegAddr) (o : BitVec 2)
include h

theorem cmdPhyad_cmdw : cmdPhyad P (cmdw P p r o) = p := by
  simp [cmdPhyad, cmdw, field_place_same p h.phyad, field_place_disjoint r h.regad_phyad,
    field_place_disjoint o h.op_phyad, field_place_disjoint 1#1 h.busy_phyad]

theorem cmdRegad_cmdw : cmdRegad P (cmdw P p r o) = r := by
  simp [cmdRegad, cmdw, field_place_same r h.regad, field_place_disjoint p (disjointFields_comm.trans h.regad_phyad),
    field_place_disjoint o h.op_regad, field_place_disjoint 1#1 h.busy_regad]

theorem cmdOp_cmdw : cmdOp P (cmdw P p r o) = o := by
  simp [cmdOp, cmdw, field_place_same o h.op, field_place_disjoint p (disjointFields_comm.trans h.op_phyad),
    field_place_disjoint r (disjointFields_comm.trans h.op_regad), field_place_disjoint 1#1 h.busy_op]

theorem cmdBusy_cmdw : cmdBusy P (cmdw P p r o) = true := by
  simp [cmdBusy_eq_field, cmdw, field_place_same 1#1 h.busy]

end

section
variable {P : Config.Params} (h : CmdLayout P) (c : Word)
include h

theorem cmdPhyad_cmdClearBusy : cmdPhyad P (cmdClearBusy P c) = cmdPhyad P c :=
  field_and_not_place c 1#1 h.busy_phyad h.phyad

theorem cmdRegad_cmdClearBusy : cmdRegad P (cmdClearBusy P c) = cmdRegad P c :=
  field_and_not_place c 1#1 h.busy_regad h.regad

theorem cmdOp_cmdClearBusy : cmdOp P (cmdClearBusy P c) = cmdOp P c := field_and_not_place c 1#1 h.busy_op h.op

theorem cmdBusy_cmdClearBusy : cmdBusy P (cmdClearBusy P c) = false := by
  simp [cmdBusy, cmdClearBusy, getLsbD_place, show P.cmdBusyBit < 32 from h.busy]

end

/-- Settles O7: each field reads its own placed value, reads 0 of the other three, which share no bit with it, and is
not touched by clearing BUSY. -/
theorem commandWordFields : Obligations.CommandWordFields := by
  unfold Obligations.CommandWordFields
  intro P p r o hwf c c'
  have h := cmdLayout_of_wellFormed hwf
  exact ⟨cmdPhyad_cmdw h p r o, cmdRegad_cmdw h p r o, cmdOp_cmdw h p r o, cmdBusy_cmdw h p r o,
    (cmdPhyad_cmdClearBusy h c).trans (cmdPhyad_cmdw h p r o), (cmdRegad_cmdClearBusy h c).trans (cmdRegad_cmdw h p r o),
    (cmdOp_cmdClearBusy h c).trans (cmdOp_cmdw h p r o), cmdBusy_cmdClearBusy h c⟩

end Sys2Proof
end

section
/-! What HOST's accesses and SEQ's turn run (R21, R30, R31, R34, R40), and the state after reset (R51). -/

namespace Sys2Proof.Machine

/-! ### SEQ's turn and HOST's accesses -/

theorem seqTurn_of_operation {s : State} {i : Instr} (h : s.seq.operation = some i) : seqTurn s = exec i s := by
  simp only [seqTurn, h]

theorem hostStart_of_idle {s : State} {v : Word} {i : Instr} (hq : s.seq = .idle)
    (hi : decode s.params .opw (wordBytes v) = .ok i) : hostStart v s = exec i (s.setReg .opw v) := by
  simp only [hostStart, hq, hi, if_true]

theorem hostSet_of_idle {s : State} (hq : s.seq = .idle) (r : Reg) (v : Word) :
    hostSet r v s = .next (s.setReg r v) := if_pos hq

theorem hostSet_of_not_idle {s : State} (hq : s.seq ≠ .idle) (r : Reg) (v : Word) :
    hostSet r v s = .refused .secondActor := if_neg hq

/-- Every register but OPW, the operands and CFG is not HOST's to write (R21). -/
theorem hostWrite_refused {n : Fin 27} (hn : n ∉ ([8, 9, 10, 11, 25] : List (Fin 27))) (v : Word) (s : State) :
    hostWrite n v s = .refused .notHostWritable := by
  revert hn
  fin_cases n <;> simp [hostWrite, Reg.ofNumber]

/-- Settles O1: HOST's write of OPW is `hostStart`, which with SEQ IDLE runs what the bytes decode to. -/
theorem stepRunsOperationWord : Obligations.StepRunsOperationWord := by
  unfold Obligations.StepRunsOperationWord
  intro s w rest i hagenda hq hi
  rw [step_cons hagenda]
  exact hostStart_of_idle hq hi

/-- Settles O3: with nothing announced it is SEQ's turn too. -/
theorem stepRunsSequencer : Obligations.StepRunsSequencer := by
  unfold Obligations.StepRunsSequencer
  rintro s rest i (hagenda | ⟨hagenda, rfl⟩) hi
  · rw [step_cons hagenda]
    exact seqTurn_of_operation hi
  · rw [step_nil hagenda]
    exact seqTurn_of_operation hi

/-- Settles O9: the register's number selects `hostSet` or the refusal. -/
theorem hostWritesOnlyThePort : Obligations.HostWritesOnlyThePort := by
  unfold Obligations.HostWritesOnlyThePort
  intro s v
  refine ⟨fun hq => ⟨hostSet_of_idle hq .arg0 v, hostSet_of_idle hq .arg1 v, hostSet_of_idle hq .arg2 v,
    s.setReg .cfg (v &&& 1#32), hostSet_of_idle hq .cfg _, ?_, ?_⟩, fun hq n hn => ?_,
    fun n hn => hostWrite_refused hn v s⟩
  · simp [State.hookEn]
  · exact keepsRegsBut_setReg (by decide) (keepsRegsBut_refl _ s)
  · simp only [List.mem_cons, List.not_mem_nil, or_false] at hn
    rcases hn with rfl | rfl | rfl | rfl <;> exact hostSet_of_not_idle hq _ _

/-- Settles O10: `hostRead` answers the state it is given. -/
theorem hostReadHasNoEffect : Obligations.HostReadHasNoEffect := by
  unfold Obligations.HostReadHasNoEffect
  intro s n rest hagenda
  exact step_cons hagenda

/-! ### The state after reset -/

@[simp] theorem State.reg_reset (r : Reg) : State.reset.reg r = 0#32 := by cases r <;> rfl

/-- Settles O14: every register reads 0, SEQ is IDLE, and the lists are empty. -/
theorem resetMeetsTheInvariants : Obligations.ResetMeetsTheInvariants := by
  unfold Obligations.ResetMeetsTheInvariants MachineInv
  have hwf : State.reset.params.wellFormed = true := by decide
  refine ⟨⟨rfl, rfl, rfl, rfl⟩, by simp [RegisterFormatInv], ?_, ?_, ?_, ?_⟩
  · exact (txRingInv_iff rfl).2 ⟨hwf, by simp [State.txValid]⟩
  · exact (rxSlotInv_iff rfl).2 ⟨hwf, by simp [State.rxValid]⟩
  · simp [SwrInv, State.swr]
  · exact ⟨by simp [State.phyValid], trivial⟩

end Sys2Proof.Machine
end

section
/-! What a step of an instruction may do to memory, the PHY register view and DMA's position (R72, R81): it is made of
a few updates, of which one stores a word, where SEQ's position says. -/

namespace Sys2Proof.Machine

/-! ### The updates a step of an instruction is made of -/

/-- `t` comes from `s` by the updates of a step of an instruction: at most one word stored, at the address SEQ's position
names (R72); and moves of SEQ, register writes, hook calls, draws, tail pointer grants, an MDIO write and an end. -/
inductive InstrStep (s : State) : State → Prop where
  | refl : InstrStep s s
  | store {a v : Word} (hat : storeAddress s = some a) (ha : accessible s.params a = true) : InstrStep s (s.setWord a v)
  | goto {t : State} {q : Seq} (h : InstrStep s t) : InstrStep s (t.goto q)
  | setReg {t : State} {r : Reg} {v : Word} (h : InstrStep s t) : InstrStep s (t.setReg r v)
  | hooked {t : State} {l : List Config.HookAnswer} {d : Nat} (h : InstrStep s t) : InstrStep s (t.hooked l d)
  | grantTx {t : State} {a : Word} (h : InstrStep s t) : InstrStep s (t.grantTx a)
  | grantRx {t : State} {a : Word} (h : InstrStep s t) : InstrStep s (t.grantRx a)
  | phyWrite {t : State} {p : PhyAddr} {r : RegAddr} {v : Data16} (h : InstrStep s t) : InstrStep s (t.phyWrite p r v)
  | endOperation {t : State} {c : Word} {x y z : Option Word} (h : InstrStep s t) :
    InstrStep s (t.endOperation c x y z)

section
variable {s u t : State}

theorem finish_instrStep {e : Ending} (h : finish e s = .next t) : InstrStep s t := by
  rcases finish_cases h with ⟨x, y, -, rfl⟩ | ⟨k, -, rfl⟩ <;> exact .endOperation .refl

theorem toReturn_instrStep {i : Instr} {x y : Option Word} (hs : InstrStep s u) (h : toReturn i x y u = .next t) :
    InstrStep s t := by
  obtain rfl := next_eq_next.1 h
  exact .goto hs

theorem toRaise_instrStep {i : Instr} {k : Raise} (hs : InstrStep s u) (h : toRaise i k u = .next t) :
    InstrStep s t := by
  obtain rfl := next_eq_next.1 h
  exact .goto hs

/-- A transaction's step is such a step where what the operation does with the value and with the failure is. -/
theorem inTransaction_instrStep {m : MdioPos} {at_ : MdioPos → Seq} {done : Data16 → State → Result}
    {failed : Word → State → Result} (h : inTransaction m s at_ done failed = .next t)
    (hdone : ∀ v, done v s = .next t → InstrStep s t)
    (hfailed : ∀ e u, InstrStep s u → failed e u = .next t → InstrStep s t) : InstrStep s t := by
  rcases inTransaction_cases h with ⟨p, r, v, -, -, -, rfl⟩ | ⟨p, r, o, -, -, -, rfl⟩ | ⟨o, -, -, rfl⟩ |
    ⟨o, -, rfl⟩ | ⟨-, -, rfl⟩ | ⟨o, l, d, -, rfl⟩ | ⟨v, -, h⟩ | ⟨o, e, l, d, -, h⟩
  · exact .goto (.setReg .refl)
  · exact .goto (.setReg .refl)
  · exact .goto .refl
  · exact .goto .refl
  · exact .goto .refl
  · exact .goto (.hooked .refl)
  · exact hdone v h
  · exact hfailed e _ (.hooked .refl) h

/-! ### MTC and PLC -/

theorem execMdioRead_instrStep (h : execMdioRead s = .next t) : InstrStep s t := by
  rcases execMdioRead_next h with ⟨-, -, -, rfl⟩ | ⟨m, -, h⟩ | ⟨e, -, h⟩
  · exact .goto .refl
  · exact inTransaction_instrStep h (fun _ => toReturn_instrStep .refl) fun _ _ => toRaise_instrStep
  · exact finish_instrStep h

theorem execMdioWrite_instrStep (h : execMdioWrite s = .next t) : InstrStep s t := by
  rcases execMdioWrite_next h with ⟨-, -, -, rfl⟩ | ⟨m, -, h⟩ | ⟨e, -, h⟩
  · exact .goto .refl
  · exact inTransaction_instrStep h (fun _ => toReturn_instrStep .refl) fun _ _ => toRaise_instrStep
  · exact finish_instrStep h

theorem execPhySetaddr_instrStep (h : execPhySetaddr s = .next t) : InstrStep s t := by
  rcases execPhySetaddr_next h with ⟨-, -, rfl⟩ | ⟨a, -, rfl⟩ | ⟨e, -, h⟩
  · exact .goto .refl
  · exact .goto (.setReg .refl)
  · exact finish_instrStep h

theorem detectSkip_instrStep {a : PhyAddr} (hs : InstrStep s u) (h : detectSkip a u = .next t) : InstrStep s t := by
  rcases detectSkip_next h with ⟨-, rfl⟩ | ⟨-, rfl⟩ <;> exact .goto hs

theorem execPhyDetect_instrStep (h : execPhyDetect s = .next t) : InstrStep s t := by
  rcases execPhyDetect_next h with ⟨-, -, rfl⟩ | ⟨a, m, -, h⟩ | ⟨a, -, rfl⟩ | ⟨e, -, h⟩
  · exact .goto .refl
  · refine inTransaction_instrStep h (fun v h => ?_) fun _ _ => detectSkip_instrStep
    split at h
    · obtain rfl := next_eq_next.1 h
      exact .goto .refl
    · exact detectSkip_instrStep .refl h
  · exact .goto (.setReg .refl)
  · exact finish_instrStep h

theorem resetPoll_instrStep {p : PhyAddr} (hs : InstrStep s u) (h : resetPoll p u = .next t) : InstrStep s t := by
  obtain rfl := next_eq_next.1 h
  exact .goto hs

theorem resetNotDone_instrStep {p : PhyAddr} (hs : InstrStep s u) (h : resetNotDone p u = .next t) :
    InstrStep s t := by
  obtain rfl := next_eq_next.1 h
  exact .goto hs

theorem execPhyReset_instrStep (h : execPhyReset s = .next t) : InstrStep s t := by
  rcases execPhyReset_next h with ⟨-, -, -, rfl⟩ | ⟨-, rfl⟩ | ⟨p, m, -, h⟩ | ⟨p, m, -, h⟩ | ⟨p, -, rfl⟩ |
    ⟨p, l, d, -, rfl⟩ | ⟨p, e, l, d, -, rfl⟩ | ⟨e, -, h⟩
  · exact .goto .refl
  · exact .goto .refl
  · exact inTransaction_instrStep h (fun _ => resetPoll_instrStep .refl) fun _ _ => toRaise_instrStep
  · refine inTransaction_instrStep h (fun v h => ?_) fun _ _ => resetNotDone_instrStep
    split at h
    · exact resetNotDone_instrStep .refl h
    · exact toReturn_instrStep .refl h
  · exact .goto .refl
  · exact .goto (.hooked .refl)
  · exact .goto (.hooked .refl)
  · exact finish_instrStep h

theorem execPhyLinkstatus_instrStep (h : execPhyLinkstatus s = .next t) : InstrStep s t := by
  rcases execPhyLinkstatus_next h with ⟨-, -, -, rfl⟩ | ⟨-, rfl⟩ | ⟨p, m, -, h⟩ | ⟨p, m, -, h⟩ | ⟨e, -, h⟩
  · exact .goto .refl
  · exact .goto .refl
  · refine inTransaction_instrStep h (fun v h => ?_) fun _ _ => toRaise_instrStep
    split at h
    · obtain rfl := next_eq_next.1 h
      exact .goto .refl
    · exact toReturn_instrStep .refl h
  · exact inTransaction_instrStep h (fun _ => toReturn_instrStep .refl) fun _ _ => toRaise_instrStep
  · exact finish_instrStep h

/-! ### DRM: TX.PUT, RX.ARM and RX.REARM alone store words (R72) -/

theorem execTxSetdesc_instrStep (h : execTxSetdesc s = .next t) : InstrStep s t := by
  rcases execTxSetdesc_next h with ⟨-, -, -, -, rfl⟩ | ⟨k, base, n, -, h⟩ | ⟨e, -, h⟩
  · exact .goto .refl
  · cases k <;> obtain rfl := next_eq_next.1 h <;> exact .goto (.setReg .refl)
  · exact finish_instrStep h

/-- TX.PUT stores words 0, 2 and 3 of its descriptor, one at each of three positions (R208). -/
theorem putStep_instrStep {k : PutPos} {buf len : Word} (hq : s.seq = .txPut k buf len)
    (h : putStep k buf len s = .next t) : InstrStep s t := by
  rcases putStep_next h with ⟨-, rfl⟩ | ⟨_, -, rfl⟩ | ⟨_, -, rfl⟩ | ⟨_, _, -, -, rfl⟩ | ⟨_, _, -, -, rfl⟩ |
    ⟨_, _, -, -, rfl⟩ | ⟨_, _, -, -, rfl⟩ | ⟨_, _, -, rfl⟩ | ⟨_, _, _, -, rfl⟩ | ⟨_, _, _, -, -, rfl⟩ |
    ⟨_, _, _, -, -, rfl⟩ | ⟨slot, d, rfl, ha, rfl⟩ | ⟨slot, d, rfl, ha, rfl⟩ | ⟨slot, d, rfl, ha, rfl⟩ |
    ⟨_, _, -, rfl⟩ | ⟨_, _, _, -, rfl⟩ | ⟨_, _, _, -, rfl⟩ | ⟨_, _, -, rfl⟩ | ⟨_, _, _, -, rfl⟩
  on_goal 12 => exact .goto (.store (by rw [storeAddress, hq]) ha)
  on_goal 12 => exact .goto (.store (by rw [storeAddress, hq]) ha)
  on_goal 12 => exact .goto (.store (by rw [storeAddress, hq]) ha)
  on_goal 14 => exact .goto (.grantTx (.setReg .refl))
  on_goal 15 => exact .goto (.setReg .refl)
  all_goals exact .goto .refl

theorem execTxPut_instrStep (h : execTxPut s = .next t) : InstrStep s t := by
  rcases execTxPut_next h with ⟨-, -, -, rfl⟩ | ⟨k, buf, len, hq, h⟩ | ⟨e, -, h⟩
  · exact .goto .refl
  · exact putStep_instrStep hq h
  · exact finish_instrStep h

theorem updateStep_instrStep {k : UpdatePos} (h : updateStep k s = .next t) : InstrStep s t := by
  rcases updateStep_next h with ⟨-, rfl⟩ | ⟨_, -, -, rfl⟩ | ⟨_, -, -, rfl⟩ | ⟨-, rfl⟩ | ⟨_, -, rfl⟩ | ⟨_, -, rfl⟩ |
    ⟨_, -, -, rfl⟩ | ⟨_, -, -, rfl⟩ | ⟨-, rfl⟩ | ⟨_, -, rfl⟩ | ⟨-, rfl⟩ | ⟨_, -, rfl⟩ | ⟨_, -, rfl⟩ |
    ⟨_, _, -, rfl⟩
  on_goal 10 => exact .goto (.setReg .refl)
  all_goals exact .goto .refl

theorem execTxUpdate_instrStep (h : execTxUpdate s = .next t) : InstrStep s t := by
  rcases execTxUpdate_next h with ⟨-, -, rfl⟩ | ⟨k, -, h⟩ | ⟨e, -, h⟩
  · exact .goto .refl
  · exact updateStep_instrStep h
  · exact finish_instrStep h

/-- RX.ARM stores words 0 and 3 of its descriptor, one at each of two positions (R232). -/
theorem armStep_instrStep {k : ArmPos} {desc buf : Word} (hq : s.seq = .rxArm k desc buf)
    (h : armStep k desc buf s = .next t) : InstrStep s t := by
  rcases armStep_next h with ⟨-, rfl⟩ | ⟨-, rfl⟩ | ⟨rfl, ha, rfl⟩ | ⟨rfl, ha, rfl⟩ | ⟨-, rfl⟩ | ⟨-, rfl⟩ | ⟨-, rfl⟩
  · exact .goto (.setReg .refl)
  · exact .goto (.setReg .refl)
  · exact .goto (.store (by rw [storeAddress, hq]) ha)
  · exact .goto (.store (by rw [storeAddress, hq]) ha)
  · exact .goto (.setReg .refl)
  · exact .goto (.grantRx (.setReg .refl))
  · exact .goto (.setReg .refl)

theorem execRxArm_instrStep (h : execRxArm s = .next t) : InstrStep s t := by
  rcases execRxArm_next h with ⟨-, -, -, -, rfl⟩ | ⟨k, desc, buf, hq, h⟩ | ⟨e, -, h⟩
  · exact .goto .refl
  · exact armStep_instrStep hq h
  · exact finish_instrStep h

theorem execRxPoll_instrStep (h : execRxPoll s = .next t) : InstrStep s t := by
  rcases execRxPoll_next h with ⟨-, -, rfl⟩ | ⟨k, -, h⟩ | ⟨e, -, h⟩
  · exact .goto .refl
  · rcases pollStep_next h with ⟨-, rfl⟩ | ⟨d, -, -, rfl⟩ | ⟨d, -, -, rfl⟩ | ⟨d, -, rfl⟩ | ⟨len, -, rfl⟩ <;>
      exact .goto .refl
  · exact finish_instrStep h

/-- RX.REARM stores word 3 of its descriptor (R238). -/
theorem rearmStep_instrStep {k : RearmPos} (hq : s.seq = .rxRearm k) (h : rearmStep k s = .next t) :
    InstrStep s t := by
  rcases rearmStep_next h with ⟨-, rfl⟩ | ⟨d, -, -, rfl⟩ | ⟨d, rfl, ha, rfl⟩ | ⟨d, -, rfl⟩ | ⟨d, ptr, -, rfl⟩
  · exact .goto .refl
  · exact .goto .refl
  · exact .goto (.store (by rw [storeAddress, hq]) ha)
  · exact .goto .refl
  · exact .goto (.grantRx (.setReg .refl))

theorem execRxRearm_instrStep (h : execRxRearm s = .next t) : InstrStep s t := by
  rcases execRxRearm_next h with ⟨-, -, rfl⟩ | ⟨k, hq, h⟩ | ⟨e, -, h⟩
  · exact .goto .refl
  · exact rearmStep_instrStep hq h
  · exact finish_instrStep h

theorem execDmaSwreset_instrStep (h : execDmaSwreset s = .next t) : InstrStep s t := by
  rcases execDmaSwreset_next h with ⟨-, rfl⟩ | ⟨-, rfl⟩ | ⟨-, rfl⟩ | ⟨-, -, rfl⟩ | ⟨-, -, rfl⟩ | ⟨e, -, h⟩
  · exact .goto .refl
  · exact .goto (.setReg .refl)
  · exact .goto (.setReg .refl)
  · exact .goto .refl
  · exact .goto .refl
  · exact finish_instrStep h

/-! ### The command words -/

/-- A PHY read draws at most a free value (R160). -/
theorem phyRead_instrStep (s : State) (p : PhyAddr) (r : RegAddr) : InstrStep s (s.phyRead p r).2 := by
  rcases State.phyRead_state s p r with hs | hs <;> rw [hs]
  · exact .refl
  · exact .hooked (l := s.hookAnswers) .refl

theorem execCmdwRead_instrStep {p : PhyAddr} {r : RegAddr} (h : execCmdwRead p r s = .next t) : InstrStep s t := by
  obtain ⟨-, -, rfl⟩ := execCmdwRead_next h
  exact .setReg (.setReg (phyRead_instrStep s p r))

theorem execCmdwWrite_instrStep {p : PhyAddr} {r : RegAddr} (h : execCmdwWrite p r s = .next t) : InstrStep s t := by
  obtain ⟨-, -, rfl⟩ := execCmdwWrite_next h
  exact .setReg (.phyWrite .refl)

end

/-! ### Every instruction -/

theorem exec_instrStep {i : Instr} {s t : State} (h : exec i s = .next t) : InstrStep s t := by
  cases i with
  | mdioRead => exact execMdioRead_instrStep h
  | mdioWrite => exact execMdioWrite_instrStep h
  | phySetaddr => exact execPhySetaddr_instrStep h
  | phyDetect => exact execPhyDetect_instrStep h
  | phyReset => exact execPhyReset_instrStep h
  | phyLinkstatus => exact execPhyLinkstatus_instrStep h
  | txSetdesc => exact execTxSetdesc_instrStep h
  | txPut => exact execTxPut_instrStep h
  | txUpdate => exact execTxUpdate_instrStep h
  | rxArm => exact execRxArm_instrStep h
  | rxPoll => exact execRxPoll_instrStep h
  | rxRearm => exact execRxRearm_instrStep h
  | dmaSwreset => exact execDmaSwreset_instrStep h
  | cmdwRead p r => exact execCmdwRead_instrStep h
  | cmdwWrite p r => exact execCmdwWrite_instrStep h

/-! ### The frame of memory -/

@[simp] theorem State.mem_phyWrite (s : State) (p : PhyAddr) (r : RegAddr) (v : Data16) :
    (s.phyWrite p r v).mem = s.mem := by
  rcases State.phyWrite_state s p r v with hs | ⟨-, hs⟩ <;> rw [hs]

/-- Memory after a step of an instruction: as before, or with the one word stored that SEQ's position names. -/
theorem InstrStep.mem_cases {s t : State} (h : InstrStep s t) :
    t.mem = s.mem ∨ ∃ a v, storeAddress s = some a ∧ t.mem = s.mem.writeWord a.toNat v := by
  induction h with
  | refl => exact .inl rfl
  | store hat _ => exact .inr ⟨_, _, hat, rfl⟩
  | phyWrite _ ih => simpa using ih
  | goto _ ih | setReg _ ih | hooked _ ih | grantTx _ ih | grantRx _ ih | endOperation _ ih => exact ih

/-- Settles O52: a step of an instruction writes memory by one word store at most, and a word store reaches its four
bytes only. -/
theorem memoryFrame : Obligations.MemoryFrame := by
  unfold Obligations.MemoryFrame
  intro i s t h
  rcases (exec_instrStep h).mem_cases with hmem | ⟨a, v, hat, hmem⟩
  · exact ⟨fun _ _ b _ => by rw [hmem], fun _ b => by rw [hmem]⟩
  · refine ⟨fun a' ha' b hb => ?_, fun hnone => by simp [hat] at hnone⟩
    obtain rfl : a = a' := Option.some.inj (hat.symm.trans ha')
    rw [hmem, Memory.read_writeWord_of_outside _ v hb]

end Sys2Proof.Machine
end

section
/-! The canonical form of memory, of the PHY register view and of DMA's position (R70, R74): every update keeps it, so
every step of every agent does. -/

namespace Sys2Proof.Machine

/-! ### Each update keeps the canonical form -/

section
variable {s t : State}

/-- A word stored at an accessible address, which ends below 2^32, keeps memory canonical, and ends grants only. -/
theorem canonicalInv_setWord (hs : CanonicalInv s) {a v : Word} (ha : accessible s.params a = true) :
    CanonicalInv (s.setWord a v) := by
  obtain ⟨hmem, hphy, htx, hrx⟩ := hs
  exact ⟨State.wf_setWord v ha hmem, hphy, risingNats_erase _ htx, risingNats_erase _ hrx⟩

theorem canonicalInv_grantTx (hs : CanonicalInv s) (a : Word) : CanonicalInv (s.grantTx a) := by
  obtain ⟨hmem, hphy, htx, hrx⟩ := hs
  exact ⟨hmem, hphy, risingNats_insert _ htx, hrx⟩

theorem canonicalInv_grantRx (hs : CanonicalInv s) (a : Word) : CanonicalInv (s.grantRx a) := by
  obtain ⟨hmem, hphy, htx, hrx⟩ := hs
  exact ⟨hmem, hphy, htx, risingNats_insert _ hrx⟩

theorem canonicalInv_forgetGrants (hs : CanonicalInv s) : CanonicalInv s.forgetGrants := by
  obtain ⟨hmem, hphy, -, -⟩ := hs
  exact ⟨hmem, hphy, rfl, rfl⟩

theorem canonicalInv_phyWrite (hs : CanonicalInv s) (p : PhyAddr) (r : RegAddr) (v : Data16) :
    CanonicalInv (s.phyWrite p r v) := by
  rcases State.phyWrite_state s p r v with h | ⟨-, h⟩ <;> rw [h]
  · exact hs
  · obtain ⟨hmem, hphy, htx, hrx⟩ := hs
    exact ⟨hmem, Assoc.rising_insert _ v hphy, htx, hrx⟩

/-- The updates other than stores, grants and MDIO writes touch none of the lists. -/
theorem InstrStep.canonicalInv (h : InstrStep s t) (hs : CanonicalInv s) : CanonicalInv t := by
  induction h with
  | refl => exact hs
  | store _ ha => exact canonicalInv_setWord hs ha
  | grantTx _ ih => exact canonicalInv_grantTx ih _
  | grantRx _ ih => exact canonicalInv_grantRx ih _
  | phyWrite _ ih => exact canonicalInv_phyWrite ih _ _ _
  | goto _ ih | setReg _ ih | hooked _ ih | endOperation _ ih => exact ih

theorem exec_canonicalInv {i : Instr} (hs : CanonicalInv s) (h : exec i s = .next t) : CanonicalInv t :=
  (exec_instrStep h).canonicalInv hs

/-! ### Every step of every agent -/

theorem eventTurn_canonicalInv {e : Event} (hs : CanonicalInv s) (h : eventTurn e s = .next t) : CanonicalInv t := by
  cases e with
  | seq =>
    rcases seqTurn_next h with ⟨-, rfl⟩ | ⟨i, -, h⟩
    · exact hs
    · exact exec_canonicalInv hs h
  | hostWrite n v =>
    obtain ⟨-, ⟨r, -, rfl⟩ | rfl | ⟨i, -, h⟩⟩ := hostWrite_next h
    · exact hs
    · exact hs
    · exact exec_canonicalInv (s := s.setReg .opw v) hs h
  | hostRead n =>
    obtain rfl := next_eq_next.1 h
    exact hs
  | hostMem a v =>
    obtain ⟨ha, rfl⟩ := hostMem_next h
    exact canonicalInv_setWord hs ha
  | bus =>
    obtain ⟨i, -, h⟩ := busTurn_next h
    exact exec_canonicalInv hs h
  | phy p r v =>
    obtain ⟨-, rfl⟩ := phyTurn_next h
    exact canonicalInv_phyWrite hs p r v
  | dmaTxDone slot =>
    obtain ⟨a, -, -, -, ha, -, rfl⟩ := dmaTxDone_next h
    exact canonicalInv_setWord hs ha
  | dmaRxFrame n bufv =>
    obtain ⟨a₂, a₃, -, -, -, -, ha₂, ha₃, -, rfl⟩ := dmaRxFrame_next h
    exact canonicalInv_setWord (canonicalInv_setWord hs ha₂) ha₃
  | dmaSwrDone =>
    obtain ⟨-, rfl⟩ := dmaSwrDone_next h
    exact canonicalInv_forgetGrants (s := s.setReg .dmaCtrl _) hs
  | blockReset =>
    obtain rfl := next_eq_next.1 h
    exact hs

end

/-- Settles O54: each agent's step is made of updates that keep the lists canonical; a store's address is accessible,
so the word ends below 2^32. -/
theorem canonicalFormsAreKept : Obligations.CanonicalFormsAreKept := by
  unfold Obligations.CanonicalFormsAreKept
  intro s t hs h
  obtain ⟨e, rest, h⟩ := step_next h
  exact eventTurn_canonicalInv (s := { s with agenda := rest }) hs h

end Sys2Proof.Machine
end

section
/-! The decoder and the encoder are inverse to each other (R75, R100 to R102, R110, R112, R115, R116), and what HOST's
write of a word to OPW does with it. -/

namespace Sys2Proof

/-! ### Bytes (R75) -/

/-- The bytes of a word decode as the word. -/
@[simp] theorem decode_wordBytes (P : Config.Params) (f : Format) (w : Word) :
    decode P f (wordBytes w) = decodeWord P f w := by
  rw [wordBytes, decode, Machine.field_bytes]

/-! ### OPW (R101, R115) -/

/-- Bits [31:4] of an OPW are 0 exactly where it is below 16. -/
theorem field_opw_high_eq_zero {w : Word} : field w 4 28 = 0#28 ↔ w.toNat < 16 := by
  rw [← BitVec.toNat_inj, field, BitVec.toNat_setWidth, BitVec.toNat_ushiftRight, Nat.shiftRight_eq_div_pow]
  simp only [BitVec.toNat_ofNat]
  omega

theorem toNat_field_opsel {w : Word} (h : w.toNat < 16) : (field w 0 4).toNat = w.toNat := by
  rw [field, BitVec.ushiftRight_zero, BitVec.toNat_setWidth, Nat.mod_eq_of_lt h]

/-- OPSEL selects no operation where it is reserved, 0, 7 or 15, or where it is no value of four bits (R115). -/
theorem opselInstr_eq_none_iff {n : Nat} : opselInstr n = none ↔ n = 0 ∨ n = 7 ∨ n = 15 ∨ 16 ≤ n := by
  constructor
  · intro h
    by_contra hne
    have hn : n < 16 := by omega
    interval_cases n <;> simp_all [opselInstr]
  · rintro (rfl | rfl | rfl | h)
    · rfl
    · rfl
    · rfl
    · unfold opselInstr
      split <;> simp_all

theorem decodeOpw_eq_ok {w : Word} {i : Instr} : decodeOpw w = .ok i ↔ opselInstr w.toNat = some i := by
  unfold decodeOpw
  split
  · rw [toNat_field_opsel (field_opw_high_eq_zero.1 ‹_›)]
    split <;> simp_all
  · rename_i hhigh
    rw [field_opw_high_eq_zero, Nat.not_lt] at hhigh
    have hnone : opselInstr w.toNat = none := opselInstr_eq_none_iff.2 (.inr (.inr (.inr hhigh)))
    simp [hnone]

theorem toNat_lt_of_decodeOpw {w : Word} {i : Instr} (h : decodeOpw w = .ok i) : w.toNat < 16 := by
  by_contra hge
  have hnone := opselInstr_eq_none_iff.2 (.inr (.inr (.inr (Nat.not_lt.1 hge))))
  simp [decodeOpw_eq_ok.1 h] at hnone

/-- The table of R101, from OPSEL to the operation. -/
theorem encode_of_opselInstr {n : Nat} {i : Instr} (P : Config.Params) (h : opselInstr n = some i) :
    encode P i = BitVec.ofNat 32 n ∧ i.format = .opw ∧ i.wellFormed = true := by
  unfold opselInstr at h
  split at h <;> cases h <;> exact ⟨rfl, rfl, rfl⟩

theorem encode_of_decodeOpw (P : Config.Params) {w : Word} {i : Instr} (h : decodeOpw w = .ok i) :
    encode P i = w ∧ i.format = .opw ∧ i.wellFormed = true := by
  simpa using encode_of_opselInstr P (decodeOpw_eq_ok.1 h)

/-- The table of R101, from the operation to OPSEL. -/
theorem decodeOpw_encode (P : Config.Params) {i : Instr} (hi : i.format = .opw) : decodeOpw (encode P i) = .ok i := by
  rw [decodeOpw_eq_ok]
  cases i with
  | cmdwRead p r => cases hi
  | cmdwWrite p r => cases hi
  | _ => rfl

/-! ### CMDW (R102, R110, R112, R116) -/

/-- A command word of a read or a write of an address 0..62 names its transaction and decodes. -/
theorem decodeCmdw_cmdw {P : Config.Params} (h : CmdLayout P) {p : PhyAddr} (hp : p.toNat ≤ Config.phyAddrMax)
    (r : RegAddr) {o : BitVec 2} {i : Instr}
    (ho : o = Config.opRead ∧ i = .cmdwRead p r ∨ o = Config.opWrite ∧ i = .cmdwWrite p r) :
    decodeCmdw P (cmdw P p r o) = .ok i := by
  have hne : Config.opWrite ≠ Config.opRead := by decide
  have htransaction : cmdTransaction P (cmdw P p r o) = .ok i := by
    simp only [cmdTransaction, cmdBusy_cmdw h, cmdPhyad_cmdw h, cmdRegad_cmdw h, cmdOp_cmdw h, Nat.not_lt.2 hp,
      if_false, Bool.true_eq_false]
    rcases ho with ⟨rfl, rfl⟩ | ⟨rfl, rfl⟩
    · rw [if_pos rfl]
    · rw [if_neg hne, if_pos rfl]
  simp only [decodeCmdw, htransaction, cmdPhyad_cmdw h, cmdRegad_cmdw h, cmdOp_cmdw h, if_true]

/-- The transaction a command word names has the word's own fields. -/
theorem cmdTransaction_eq_ok {P : Config.Params} {c : Word} {i : Instr} (h : cmdTransaction P c = .ok i) :
    (cmdPhyad P c).toNat ≤ Config.phyAddrMax ∧
    (cmdOp P c = Config.opRead ∧ i = .cmdwRead (cmdPhyad P c) (cmdRegad P c) ∨
      cmdOp P c = Config.opWrite ∧ i = .cmdwWrite (cmdPhyad P c) (cmdRegad P c)) := by
  unfold cmdTransaction at h
  split at h
  · cases h
  split at h
  · cases h
  rename_i hp
  refine ⟨Nat.not_lt.1 hp, ?_⟩
  split at h
  · exact .inl ⟨‹_›, (Except.ok.inj h).symm⟩
  split at h
  · exact .inr ⟨‹_›, (Except.ok.inj h).symm⟩
  · cases h

/-- A command word that decodes names the transaction, and has no bit set outside its fields. -/
theorem decodeCmdw_eq_ok {P : Config.Params} {c : Word} {i : Instr} (h : decodeCmdw P c = .ok i) :
    cmdTransaction P c = .ok i ∧ cmdw P (cmdPhyad P c) (cmdRegad P c) (cmdOp P c) = c := by
  unfold decodeCmdw at h
  split at h
  · cases h
  split at h
  · exact ⟨‹cmdTransaction P c = _›.trans h, ‹_›⟩
  · cases h

theorem encode_of_decodeCmdw {P : Config.Params} {c : Word} {i : Instr} (h : decodeCmdw P c = .ok i) :
    encode P i = c ∧ i.format = .cmdw ∧ i.wellFormed = true := by
  obtain ⟨htransaction, hfields⟩ := decodeCmdw_eq_ok h
  obtain ⟨hp, ⟨ho, rfl⟩ | ⟨ho, rfl⟩⟩ := cmdTransaction_eq_ok htransaction
  · exact ⟨by rw [encode, ← ho, hfields], rfl, decide_eq_true hp⟩
  · exact ⟨by rw [encode, ← ho, hfields], rfl, decide_eq_true hp⟩

/-! ### Both formats -/

/-- Settles O5: an operation is its row of R101's table; a command word's fields read back as placed, since they share
no bit, and so the word has no bit outside them. -/
theorem encodeThenDecode : Obligations.EncodeThenDecode := by
  unfold Obligations.EncodeThenDecode
  intro P i hP hi
  rw [decode_wordBytes]
  have hlayout := cmdLayout_of_wellFormed hP
  cases i with
  | cmdwRead p r => exact decodeCmdw_cmdw hlayout (of_decide_eq_true hi) r (.inl ⟨rfl, rfl⟩)
  | cmdwWrite p r => exact decodeCmdw_cmdw hlayout (of_decide_eq_true hi) r (.inr ⟨rfl, rfl⟩)
  | _ => exact decodeOpw_encode P rfl

/-- Settles O6: an OPW that decodes is a value of OPSEL in R101's table; a command word that decodes is the one its
four fields give. -/
theorem decodeThenEncode : Obligations.DecodeThenEncode := by
  unfold Obligations.DecodeThenEncode
  intro P f w i h
  cases f with
  | opw => exact encode_of_decodeOpw P h
  | cmdw => exact encode_of_decodeCmdw h

/-- Settles O4: the decoder run on the eight words. -/
theorem tableWordsDecode : Obligations.TableWordsDecode := by
  unfold Obligations.TableWordsDecode
  decide

/-! ### HOST's write of OPW (R30, R115) -/

section
open Machine

/-- Register 8 is OPW (R21). -/
theorem hostWrite_opw (w : Word) (s : State) : hostWrite 8 w s = hostStart w s := rfl

theorem hostStart_of_not_idle {s : State} (hq : s.seq ≠ .idle) (w : Word) : hostStart w s = .refused .secondActor :=
  if_neg hq

theorem hostStart_reserved {s : State} (hq : s.seq = .idle) {w : Word} (h : ∀ i, decodeOpw w ≠ .ok i) :
    hostStart w s = .refused .reservedEncoding := by
  rw [hostStart, if_pos hq, decode_wordBytes, decodeWord]
  split
  · exact absurd ‹_› (h _)
  · rfl

/-- Settles O8: register 8 is OPW, whose write is `hostStart`; a word decodes exactly where the table of R101 has its value,
which is below 16 and none of the three reserved ones. -/
theorem opwWriteAcceptedOrRefused : Obligations.OpwWriteAcceptedOrRefused := by
  unfold Obligations.OpwWriteAcceptedOrRefused
  intro s w
  rw [hostWrite_opw]
  have hnone := opselInstr_eq_none_iff (n := w.toNat)
  refine ⟨fun hq => hostStart_of_not_idle hq w, fun hq hw => hostStart_reserved hq fun i hi => ?_,
    fun hq hlt h0 h7 h15 => ?_⟩
  · rw [decodeOpw_eq_ok] at hi
    have hreserved : w.toNat = 0 ∨ w.toNat = 7 ∨ w.toNat = 15 ∨ 16 ≤ w.toNat := by bv_omega
    rw [hnone.2 hreserved] at hi
    cases hi
  · have hsome : opselInstr w.toNat ≠ none := fun h => by
      have hreserved := hnone.1 h
      bv_omega
    obtain ⟨i, hi⟩ := Option.ne_none_iff_exists'.1 hsome
    rw [← decodeOpw_eq_ok] at hi
    obtain ⟨hword, hformat, -⟩ := encode_of_decodeOpw s.params hi
    exact ⟨i, hword, hformat, hostStart_of_idle hq ((decode_wordBytes s.params .opw w).trans hi)⟩

end

end Sys2Proof
end

section
/-! The addresses and transactions SEQ is busy with (R112, R116): a transaction goes on as the read or write it began
as, and only operations of MTC and PLC hold an address. -/

namespace Sys2Proof.Machine

/-! ### Addresses -/

/-- A valid PHYADDR is an address 0..62 (R35, R173). -/
def PhyaddrOk (s : State) : Prop := s.phyValid = true → AddressOk s.phyAddr

theorem phyaddrOk_congr {s t : State} (h : t.reg .phyaddr = s.reg .phyaddr) : PhyaddrOk t ↔ PhyaddrOk s := by
  simp only [PhyaddrOk, State.phyValid, State.phyAddr, h]

theorem field_phyaddrWord (a : PhyAddr) : field (phyaddrWord a) 0 6 = a := by
  revert a
  decide

theorem phyaddrOk_setReg_phyaddr {a : PhyAddr} (ha : AddressOk a) (s : State) :
    PhyaddrOk (s.setReg .phyaddr (phyaddrWord a)) := by
  intro _
  rwa [State.phyAddr, State.reg_setReg, if_pos rfl, field_phyaddrWord]

/-- An operand in range names an address 0..62 (R144, R173). -/
theorem addressOk_of_phyAddrOk {v : Word} (h : phyAddrOk v = true) : AddressOk (field v 0 6) := by
  have hv : v.toNat ≤ Config.phyAddrMax := of_decide_eq_true h
  rw [AddressOk, field, BitVec.ushiftRight_zero, BitVec.toNat_setWidth]
  exact (Nat.mod_le _ _).trans hv

/-- The address after one below 62 (R176). -/
theorem addressOk_succ {a : PhyAddr} (h : a.toNat < Config.phyAddrMax) : AddressOk (a + 1#6) := by
  rw [AddressOk, BitVec.toNat_add]
  exact (Nat.mod_le _ _).trans h

theorem transactionInv_congr {s t : State} (hq : t.seq = s.seq) (hreg : t.reg .phyaddr = s.reg .phyaddr) :
    TransactionInv t ↔ TransactionInv s := by
  simp only [TransactionInv, State.phyValid, State.phyAddr, hq, hreg]

/-! ### A transaction keeps its kind (R142, R143) -/

theorem mdioIsRead_readStart {p : PhyAddr} (hp : AddressOk p) (r : RegAddr) : mdioIsRead (readStart p r) = true := by
  simpa [mdioIsRead, readStart, AddressOk] using hp

theorem mdioIsWrite_writeStart {p : PhyAddr} (hp : AddressOk p) (r : RegAddr) (v : Data16) :
    mdioIsWrite (writeStart p r v) = true := decide_eq_true hp

section
variable {m m' : MdioPos} {s t : State}

theorem mdioIsRead_more (h : mdioStep m s = .more m' t) (hm : mdioIsRead m = true) : mdioIsRead m' = true := by
  rcases mdioStep_more h with ⟨p, r, v, rfl, -, -, rfl, -⟩ | ⟨p, r, o, rfl, -, -, rfl, -⟩ | ⟨o, rfl, -, rfl, -⟩ |
    ⟨o, rfl, rfl, -⟩ | ⟨rfl, -, rfl, -⟩ | ⟨o, rfl, rfl, -⟩
  · cases hm
  · simp_all [mdioIsRead]
  · exact hm
  · split <;> exact hm
  · rfl
  · exact hm

theorem mdioIsWrite_more (h : mdioStep m s = .more m' t) (hm : mdioIsWrite m = true) : mdioIsWrite m' = true := by
  rcases mdioStep_more h with ⟨p, r, v, rfl, -, -, rfl, -⟩ | ⟨p, r, o, rfl, -, -, rfl, -⟩ | ⟨o, rfl, -, rfl, -⟩ |
    ⟨o, rfl, rfl, -⟩ | ⟨rfl, -, rfl, -⟩ | ⟨o, rfl, rfl, -⟩
  · simp_all [mdioIsWrite]
  · simp_all [mdioIsWrite]
  · exact hm
  · split <;> exact hm
  · exact absurd hm (by decide)
  · exact hm

theorem mdioStep_more_phyaddrOk (h : mdioStep m s = .more m' t) (hs : PhyaddrOk s) : PhyaddrOk t := by
  rcases mdioStep_more h with ⟨p, r, v, -, -, -, -, rfl⟩ | ⟨p, r, o, -, -, -, -, rfl⟩ | ⟨o, -, -, -, rfl⟩ |
    ⟨o, -, -, rfl⟩ | ⟨-, -, -, rfl⟩ | ⟨o, -, -, hc⟩
  · exact hs
  · exact hs
  · exact hs
  · exact hs
  · exact hs
  · rw [State.callHook_hooked hc]
    exact hs

/-! ### How a step of an operation goes on -/

theorem finish_transactionInv {e : Ending} (hs : PhyaddrOk s) (h : finish e s = .next t) : TransactionInv t := by
  have hend (c : Word) (x y z : Option Word) : PhyaddrOk (s.endOperation c x y z) :=
    (phyaddrOk_congr (by simp)).2 hs
  rcases finish_cases h with ⟨x, y, -, rfl⟩ | ⟨k, -, rfl⟩ <;> exact ⟨hend _ _ _ _, trivial⟩

theorem toReturn_transactionInv {i : Instr} {x y : Option Word} (hi : i.format = .opw) (hs : PhyaddrOk s)
    (h : toReturn i x y s = .next t) : TransactionInv t := by
  obtain rfl := next_eq_next.1 h
  exact ⟨hs, hi⟩

theorem toRaise_transactionInv {i : Instr} {k : Raise} (hi : i.format = .opw) (hs : PhyaddrOk s)
    (h : toRaise i k s = .next t) : TransactionInv t := by
  obtain rfl := next_eq_next.1 h
  exact ⟨hs, hi⟩

/-- A transaction of the kind `K` goes on as one, or the operation takes its value or its failure. -/
theorem inTransaction_transactionInv {K : MdioPos → Bool} {at_ : MdioPos → Seq} {done : Data16 → State → Result}
    {failed : Word → State → Result} (h : inTransaction m s at_ done failed = .next t) (hs : PhyaddrOk s)
    (hm : K m = true) (hmore : ∀ {m' t}, mdioStep m s = .more m' t → K m = true → K m' = true)
    (hat : ∀ u m', PhyaddrOk u → K m' = true → TransactionInv (u.goto (at_ m')))
    (hdone : ∀ v, done v s = .next t → TransactionInv t)
    (hfailed : ∀ e u, PhyaddrOk u → failed e u = .next t → TransactionInv t) : TransactionInv t := by
  rcases inTransaction_next h with ⟨m', u, hstep, rfl⟩ | ⟨v, -, h⟩ | ⟨e, u, hstep, h⟩
  · exact hat u m' (mdioStep_more_phyaddrOk hstep hs) (hmore hstep hm)
  · exact hdone v h
  · obtain ⟨o, -, hc⟩ := mdioStep_failed hstep
    rw [State.callHook_hooked hc] at h
    exact hfailed e (s.hooked u.hookAnswers u.draws) hs h

end

/-! ### MTC and PLC -/

section
variable {s t : State}

theorem execMdioRead_transactionInv (hinv : TransactionInv s) (h : execMdioRead s = .next t) : TransactionInv t := by
  obtain ⟨hphy, hseq⟩ := hinv
  rcases execMdioRead_next h with ⟨-, harg, -, rfl⟩ | ⟨m, hq, h⟩ | ⟨e, -, h⟩
  · exact ⟨hphy, mdioIsRead_readStart (addressOk_of_phyAddrOk harg) _⟩
  · rw [hq] at hseq
    exact inTransaction_transactionInv h hphy hseq mdioIsRead_more (fun _ _ hu hm' => ⟨hu, hm'⟩)
      (fun _ => toReturn_transactionInv rfl hphy) fun _ _ => toRaise_transactionInv rfl
  · exact finish_transactionInv hphy h

theorem execMdioWrite_transactionInv (hinv : TransactionInv s) (h : execMdioWrite s = .next t) : TransactionInv t := by
  obtain ⟨hphy, hseq⟩ := hinv
  rcases execMdioWrite_next h with ⟨-, harg, -, rfl⟩ | ⟨m, hq, h⟩ | ⟨e, -, h⟩
  · exact ⟨hphy, mdioIsWrite_writeStart (addressOk_of_phyAddrOk harg) _ _⟩
  · rw [hq] at hseq
    exact inTransaction_transactionInv h hphy hseq mdioIsWrite_more (fun _ _ hu hm' => ⟨hu, hm'⟩)
      (fun _ => toReturn_transactionInv rfl hphy) fun _ _ => toRaise_transactionInv rfl
  · exact finish_transactionInv hphy h

theorem execPhySetaddr_transactionInv (hinv : TransactionInv s) (h : execPhySetaddr s = .next t) :
    TransactionInv t := by
  obtain ⟨hphy, hseq⟩ := hinv
  rcases execPhySetaddr_next h with ⟨-, harg, rfl⟩ | ⟨a, hq, rfl⟩ | ⟨e, -, h⟩
  · exact ⟨hphy, addressOk_of_phyAddrOk harg⟩
  · rw [hq] at hseq
    exact ⟨phyaddrOk_setReg_phyaddr hseq s, rfl⟩
  · exact finish_transactionInv hphy h

theorem detectSkip_transactionInv {a : PhyAddr} (hs : PhyaddrOk s) (h : detectSkip a s = .next t) :
    TransactionInv t := by
  rcases detectSkip_next h with ⟨hlt, rfl⟩ | ⟨-, rfl⟩
  · exact ⟨hs, addressOk_succ hlt, mdioIsRead_readStart (addressOk_succ hlt) _⟩
  · exact ⟨hs, rfl⟩

theorem execPhyDetect_transactionInv (hinv : TransactionInv s) (h : execPhyDetect s = .next t) : TransactionInv t := by
  obtain ⟨hphy, hseq⟩ := hinv
  rcases execPhyDetect_next h with ⟨-, -, rfl⟩ | ⟨a, m, hq, h⟩ | ⟨a, hq, rfl⟩ | ⟨e, -, h⟩
  · exact ⟨hphy, Nat.zero_le _, mdioIsRead_readStart (Nat.zero_le _) _⟩
  · rw [hq] at hseq
    obtain ⟨ha, hm⟩ := hseq
    refine inTransaction_transactionInv h hphy hm mdioIsRead_more (fun _ _ hu hm' => ⟨hu, ha, hm'⟩) (fun v h => ?_)
      fun _ _ => detectSkip_transactionInv
    split at h
    · obtain rfl := next_eq_next.1 h
      exact ⟨hphy, ha⟩
    · exact detectSkip_transactionInv hphy h
  · rw [hq] at hseq
    exact ⟨phyaddrOk_setReg_phyaddr hseq s, rfl⟩
  · exact finish_transactionInv hphy h

theorem resetPoll_transactionInv {p : PhyAddr} (hp : AddressOk p) (hs : PhyaddrOk s)
    (h : resetPoll p s = .next t) : TransactionInv t := by
  obtain rfl := next_eq_next.1 h
  exact ⟨hs, hp, mdioIsRead_readStart hp _⟩

theorem resetNotDone_transactionInv {p : PhyAddr} (hp : AddressOk p) (hs : PhyaddrOk s)
    (h : resetNotDone p s = .next t) : TransactionInv t := by
  obtain rfl := next_eq_next.1 h
  exact ⟨hs, hp⟩

theorem execPhyReset_transactionInv (hinv : TransactionInv s) (h : execPhyReset s = .next t) : TransactionInv t := by
  obtain ⟨hphy, hseq⟩ := hinv
  rcases execPhyReset_next h with ⟨-, hvalid, -, rfl⟩ | ⟨hq, rfl⟩ | ⟨p, m, hq, h⟩ | ⟨p, m, hq, h⟩ | ⟨p, hq, rfl⟩ |
    ⟨p, l, d, hq, rfl⟩ | ⟨p, e, l, d, -, rfl⟩ | ⟨e, -, h⟩
  · exact ⟨hphy, hvalid⟩
  · rw [hq] at hseq
    exact ⟨hphy, hphy hseq, mdioIsWrite_writeStart (hphy hseq) _ _⟩
  · rw [hq] at hseq
    obtain ⟨hp, hm⟩ := hseq
    exact inTransaction_transactionInv h hphy hm mdioIsWrite_more (fun _ _ hu hm' => ⟨hu, hp, hm'⟩)
      (fun _ => resetPoll_transactionInv hp hphy) fun _ _ => toRaise_transactionInv rfl
  · rw [hq] at hseq
    obtain ⟨hp, hm⟩ := hseq
    refine inTransaction_transactionInv h hphy hm mdioIsRead_more (fun _ _ hu hm' => ⟨hu, hp, hm'⟩) (fun v h => ?_)
      fun _ _ => resetNotDone_transactionInv hp
    split at h
    · exact resetNotDone_transactionInv hp hphy h
    · exact toReturn_transactionInv rfl hphy h
  · rw [hq] at hseq
    split
    · exact ⟨hphy, hseq⟩
    · exact ⟨hphy, hseq, mdioIsRead_readStart hseq _⟩
  · rw [hq] at hseq
    exact ⟨hphy, hseq, mdioIsRead_readStart hseq _⟩
  · exact ⟨hphy, rfl⟩
  · exact finish_transactionInv hphy h

theorem execPhyLinkstatus_transactionInv (hinv : TransactionInv s) (h : execPhyLinkstatus s = .next t) :
    TransactionInv t := by
  obtain ⟨hphy, hseq⟩ := hinv
  rcases execPhyLinkstatus_next h with ⟨-, hvalid, -, rfl⟩ | ⟨hq, rfl⟩ | ⟨p, m, hq, h⟩ | ⟨p, m, hq, h⟩ | ⟨e, -, h⟩
  · exact ⟨hphy, hvalid⟩
  · rw [hq] at hseq
    exact ⟨hphy, hphy hseq, mdioIsRead_readStart (hphy hseq) _⟩
  · rw [hq] at hseq
    obtain ⟨hp, hm⟩ := hseq
    refine inTransaction_transactionInv h hphy hm mdioIsRead_more (fun _ _ hu hm' => ⟨hu, hp, hm'⟩) (fun v h => ?_)
      fun _ _ => toRaise_transactionInv rfl
    split at h
    · obtain rfl := next_eq_next.1 h
      exact ⟨hphy, hp, mdioIsRead_readStart hp _⟩
    · exact toReturn_transactionInv rfl hphy h
  · rw [hq] at hseq
    obtain ⟨hp, hm⟩ := hseq
    exact inTransaction_transactionInv h hphy hm mdioIsRead_more (fun _ _ hu hm' => ⟨hu, hp, hm'⟩)
      (fun _ => toReturn_transactionInv rfl hphy) fun _ _ => toRaise_transactionInv rfl
  · exact finish_transactionInv hphy h

end

/-! ### Every step -/

/-- The operations that hold an address. -/
def mdioOperations : List Instr := [.mdioRead, .mdioWrite, .phySetaddr, .phyDetect, .phyReset, .phyLinkstatus]

/-- Inside an operation that holds no address the invariant speaks of PHYADDR alone. -/
theorem transactionInv_of_other {i : Instr} {s : State} (hi : i.format = .opw) (hne : i ∉ mdioOperations)
    (hq : s.seq.IdleOrIn i) (hphy : PhyaddrOk s) : TransactionInv s := by
  refine ⟨hphy, ?_⟩
  split
  all_goals rcases hq with hq | hq <;> simp_all [Seq.operation, mdioOperations]

/-- Such an operation writes PHYADDR neither. -/
theorem exec_transactionInv_of_other {i : Instr} {s t : State} (hi : i.format = .opw) (hne : i ∉ mdioOperations)
    (hphy : PhyaddrOk s) (h : exec i s = .next t) : TransactionInv t := by
  obtain ⟨hkeeps, hq⟩ := exec_stepsWithin_accesses hi h
  refine transactionInv_of_other hi hne hq ((phyaddrOk_congr (hkeeps .phyaddr ?_)).2 hphy)
  cases i <;> simp_all [Instr.accesses, endRegs, mdioOperations]

theorem exec_transactionInv {i : Instr} {s t : State} (hi : i.format = .opw) (hinv : TransactionInv s)
    (h : exec i s = .next t) : TransactionInv t := by
  cases i with
  | mdioRead => exact execMdioRead_transactionInv hinv h
  | mdioWrite => exact execMdioWrite_transactionInv hinv h
  | phySetaddr => exact execPhySetaddr_transactionInv hinv h
  | phyDetect => exact execPhyDetect_transactionInv hinv h
  | phyReset => exact execPhyReset_transactionInv hinv h
  | phyLinkstatus => exact execPhyLinkstatus_transactionInv hinv h
  | _ =>
    obtain ⟨hphy, -⟩ := hinv
    exact exec_transactionInv_of_other hi (by simp [mdioOperations]) hphy h

/-- Settles O59: the invariant is inductive. Every address comes from an operand in range, from a valid PHYADDR or from
the count of PHY.DETECT, and a transaction keeps the kind it began with. -/
theorem transactionInvariantIsKept : Obligations.TransactionInvariantIsKept := by
  unfold Obligations.TransactionInvariantIsKept
  intro s t
  exact kept_by_step (fun _ _ h => (transactionInv_congr h.seq (h.regs .phyaddr (by decide))).2)
    (fun _ _ _ hi _ => exec_transactionInv hi) fun s _ => ⟨by simp [State.phyValid], trivial⟩

end Sys2Proof.Machine
end

section
/-! The formats of the registers (R22, R23, R30, R102, R107, R108): each value an agent writes to a register is one of
its format. -/

namespace Sys2Proof

section
open Machine

/-! ### The formats, register by register -/

/-- What RegisterFormatInv asks of the value of a register. -/
def FormatOk (P : Config.Params) : Reg → Word → Prop
  | .mdioCmd, v => v &&& cmdReserved P = 0#32
  | .status, v => v.toNat ≤ 5
  | .dmaCtrl, v => v.toNat ≤ 1
  | .cfg, v => v.toNat ≤ 1
  | .init, v => v.toNat ≤ 3
  | .opw, v => v.toNat < 16
  | .mdioData, v => v.toNat < 2 ^ 16
  | .phyaddr, v => v &&& 0x7FFFFFC0#32 = 0#32
  | _, _ => True

theorem registerFormatInv_iff {s : State} : RegisterFormatInv s ↔ ∀ r, FormatOk s.params r (s.reg r) := by
  constructor
  · rintro ⟨hcmd, hstatus, hdma, hcfg, hinit, hopw, hdata, hphy⟩ r
    cases r
    case mdioCmd => exact hcmd
    case status => exact hstatus
    case dmaCtrl => exact hdma
    case cfg => exact hcfg
    case init => exact hinit
    case opw => exact hopw
    case mdioData => exact hdata
    case phyaddr => exact hphy
    all_goals trivial
  · intro h
    exact ⟨h .mdioCmd, h .status, h .dmaCtrl, h .cfg, h .init, h .opw, h .mdioData, h .phyaddr⟩

section
variable {s t : State}

/-- What a register holds is of its format. -/
theorem RegisterFormatInv.reg (hs : RegisterFormatInv s) (r : Reg) : FormatOk s.params r (s.reg r) :=
  registerFormatInv_iff.1 hs r

/-- A write of a value of the register's format keeps the formats. -/
theorem RegisterFormatInv.setReg (hs : RegisterFormatInv s) {r : Reg} {v : Word} (hv : FormatOk s.params r v) :
    RegisterFormatInv (s.setReg r v) := by
  refine registerFormatInv_iff.2 fun r' => ?_
  rw [State.reg_setReg]
  split
  · subst r'
    exact hv
  · exact hs.reg r'

theorem RegisterFormatInv.goto (hs : RegisterFormatInv s) (q : Seq) : RegisterFormatInv (s.goto q) := hs
theorem RegisterFormatInv.hooked (hs : RegisterFormatInv s) (l : List Config.HookAnswer) (d : Nat) :
    RegisterFormatInv (s.hooked l d) := hs
theorem RegisterFormatInv.setWord (hs : RegisterFormatInv s) (a v : Word) : RegisterFormatInv (s.setWord a v) := hs
theorem RegisterFormatInv.grantTx (hs : RegisterFormatInv s) (a : Word) : RegisterFormatInv (s.grantTx a) := hs
theorem RegisterFormatInv.grantRx (hs : RegisterFormatInv s) (a : Word) : RegisterFormatInv (s.grantRx a) := hs
theorem RegisterFormatInv.forgetGrants (hs : RegisterFormatInv s) : RegisterFormatInv s.forgetGrants := hs

theorem RegisterFormatInv.setReg_goto (hs : RegisterFormatInv s) {r : Reg} {v : Word} {q : Seq}
    (hv : FormatOk s.params r v) : RegisterFormatInv ((s.setReg r v).goto q) := (hs.setReg hv).goto q

/-! ### The values written -/

/-- Either bit of INIT keeps the others 0 (R38). -/
theorem formatOk_init_or {P : Config.Params} {v w : Word} (hv : FormatOk P .init v) (hw : w.toNat ≤ 3) :
    FormatOk P .init (v ||| w) := by
  rw [FormatOk] at hv
  rw [FormatOk, BitVec.toNat_or]
  exact Nat.le_of_lt_succ (Nat.or_lt_two_pow (n := 2) (by omega) (by omega))

/-- PHYADDR as PHY.SETADDR and PHY.DETECT write it (R35, R173). -/
theorem formatOk_phyaddrWord (P : Config.Params) (a : PhyAddr) : FormatOk P .phyaddr (phyaddrWord a) := by
  have h : ∀ a : PhyAddr, phyaddrWord a &&& 0x7FFFFFC0#32 = 0#32 := by decide
  exact h a

/-- Management data fills the low half of MDIO_DATA (R23, R151). -/
theorem formatOk_data (P : Config.Params) (v : Data16) : FormatOk P .mdioData (v.setWidth 32) := by
  rw [FormatOk, BitVec.toNat_setWidth]
  exact (Nat.mod_le _ _).trans_lt v.isLt

theorem formatOk_cmdw (P : Config.Params) (p : PhyAddr) (r : RegAddr) (o : BitVec 2) :
    FormatOk P .mdioCmd (cmdw P p r o) := cmdw_and_cmdReserved P p r o

/-- The result registers and ERRINFO have no format, STATUS holds a code (R107). -/
theorem RegisterFormatInv.endOperation (hs : RegisterFormatInv s) {c : Word} (hc : c.toNat ≤ 5)
    (x y z : Option Word) : RegisterFormatInv (s.endOperation c x y z) := by
  refine registerFormatInv_iff.2 fun r => ?_
  rw [State.reg_endOperation, State.params_endOperation]
  split
  · subst r; trivial
  split
  · subst r; trivial
  split
  · subst r; trivial
  split
  · subst r; exact hc
  · exact hs.reg r

theorem RegisterFormatInv.phyWrite (hs : RegisterFormatInv s) (p : PhyAddr) (r : RegAddr) (v : Data16) :
    RegisterFormatInv (s.phyWrite p r v) := by
  rcases State.phyWrite_state s p r v with h | ⟨-, h⟩ <;> rw [h] <;> exact hs

theorem RegisterFormatInv.phyRead (hs : RegisterFormatInv s) (p : PhyAddr) (r : RegAddr) :
    RegisterFormatInv (s.phyRead p r).2 := by
  rcases State.phyRead_state s p r with h | h <;> rw [h] <;> exact hs

/-- BUS clears BUSY and no other bit (R154, R155). -/
theorem RegisterFormatInv.clearBusy (hs : RegisterFormatInv s) : RegisterFormatInv s.clearBusy :=
  hs.setReg (cmdClearBusy_and_cmdReserved (hs.reg .mdioCmd))

/-! ### How a step of an operation goes on -/

theorem finish_registerFormatInv {e : Ending} (hs : RegisterFormatInv s) (h : finish e s = .next t) :
    RegisterFormatInv t := by
  rcases finish_cases h with ⟨x, y, -, rfl⟩ | ⟨k, -, rfl⟩
  · exact hs.endOperation (by decide) _ _ _
  · exact hs.endOperation k.code_bounds.2 _ _ _

theorem toReturn_registerFormatInv {i : Instr} {x y : Option Word} (hs : RegisterFormatInv s)
    (h : toReturn i x y s = .next t) : RegisterFormatInv t := by
  obtain rfl := next_eq_next.1 h
  exact hs.goto _

theorem toRaise_registerFormatInv {i : Instr} {k : Raise} (hs : RegisterFormatInv s)
    (h : toRaise i k s = .next t) : RegisterFormatInv t := by
  obtain rfl := next_eq_next.1 h
  exact hs.goto _

/-- A transaction writes 16 bits of data and a command word. -/
theorem inTransaction_registerFormatInv {m : MdioPos} {at_ : MdioPos → Seq} {done : Data16 → State → Result}
    {failed : Word → State → Result} (h : inTransaction m s at_ done failed = .next t) (hs : RegisterFormatInv s)
    (hdone : ∀ v, done v s = .next t → RegisterFormatInv t)
    (hfailed : ∀ e u, RegisterFormatInv u → failed e u = .next t → RegisterFormatInv t) : RegisterFormatInv t := by
  rcases inTransaction_cases h with ⟨p, r, v, -, -, -, rfl⟩ | ⟨p, r, o, -, -, -, rfl⟩ | ⟨o, -, -, rfl⟩ |
    ⟨o, -, rfl⟩ | ⟨-, -, rfl⟩ | ⟨o, l, d, -, rfl⟩ | ⟨v, -, h⟩ | ⟨o, e, l, d, -, h⟩
  · exact hs.setReg_goto (formatOk_data s.params v)
  · exact hs.setReg_goto (formatOk_cmdw s.params p r o)
  · exact hs.goto _
  · exact hs.goto _
  · exact hs.goto _
  · exact (hs.hooked l d).goto _
  · exact hdone v h
  · exact hfailed e _ (hs.hooked l d) h

/-! ### MTC and PLC -/

theorem execMdioRead_registerFormatInv (hs : RegisterFormatInv s) (h : execMdioRead s = .next t) :
    RegisterFormatInv t := by
  rcases execMdioRead_next h with ⟨-, -, -, rfl⟩ | ⟨m, -, h⟩ | ⟨e, -, h⟩
  · exact hs.goto _
  · exact inTransaction_registerFormatInv h hs (fun _ => toReturn_registerFormatInv hs)
      fun _ _ => toRaise_registerFormatInv
  · exact finish_registerFormatInv hs h

theorem execMdioWrite_registerFormatInv (hs : RegisterFormatInv s) (h : execMdioWrite s = .next t) :
    RegisterFormatInv t := by
  rcases execMdioWrite_next h with ⟨-, -, -, rfl⟩ | ⟨m, -, h⟩ | ⟨e, -, h⟩
  · exact hs.goto _
  · exact inTransaction_registerFormatInv h hs (fun _ => toReturn_registerFormatInv hs)
      fun _ _ => toRaise_registerFormatInv
  · exact finish_registerFormatInv hs h

theorem execPhySetaddr_registerFormatInv (hs : RegisterFormatInv s) (h : execPhySetaddr s = .next t) :
    RegisterFormatInv t := by
  rcases execPhySetaddr_next h with ⟨-, -, rfl⟩ | ⟨a, -, rfl⟩ | ⟨e, -, h⟩
  · exact hs.goto _
  · exact hs.setReg_goto (formatOk_phyaddrWord s.params a)
  · exact finish_registerFormatInv hs h

theorem detectSkip_registerFormatInv {a : PhyAddr} (hs : RegisterFormatInv s) (h : detectSkip a s = .next t) :
    RegisterFormatInv t := by
  rcases detectSkip_next h with ⟨-, rfl⟩ | ⟨-, rfl⟩ <;> exact hs.goto _

theorem execPhyDetect_registerFormatInv (hs : RegisterFormatInv s) (h : execPhyDetect s = .next t) :
    RegisterFormatInv t := by
  rcases execPhyDetect_next h with ⟨-, -, rfl⟩ | ⟨a, m, -, h⟩ | ⟨a, -, rfl⟩ | ⟨e, -, h⟩
  · exact hs.goto _
  · refine inTransaction_registerFormatInv h hs (fun v h => ?_) fun _ _ => detectSkip_registerFormatInv
    split at h
    · obtain rfl := next_eq_next.1 h
      exact hs.goto _
    · exact detectSkip_registerFormatInv hs h
  · exact hs.setReg_goto (formatOk_phyaddrWord s.params a)
  · exact finish_registerFormatInv hs h

theorem resetPoll_registerFormatInv {p : PhyAddr} (hs : RegisterFormatInv s) (h : resetPoll p s = .next t) :
    RegisterFormatInv t := by
  obtain rfl := next_eq_next.1 h
  exact hs.goto _

theorem resetNotDone_registerFormatInv {p : PhyAddr} (hs : RegisterFormatInv s) (h : resetNotDone p s = .next t) :
    RegisterFormatInv t := by
  obtain rfl := next_eq_next.1 h
  exact hs.goto _

theorem execPhyReset_registerFormatInv (hs : RegisterFormatInv s) (h : execPhyReset s = .next t) :
    RegisterFormatInv t := by
  rcases execPhyReset_next h with ⟨-, -, -, rfl⟩ | ⟨-, rfl⟩ | ⟨p, m, -, h⟩ | ⟨p, m, -, h⟩ | ⟨p, -, rfl⟩ |
    ⟨p, l, d, -, rfl⟩ | ⟨p, e, l, d, -, rfl⟩ | ⟨e, -, h⟩
  · exact hs.goto _
  · exact hs.goto _
  · exact inTransaction_registerFormatInv h hs (fun _ => resetPoll_registerFormatInv hs)
      fun _ _ => toRaise_registerFormatInv
  · refine inTransaction_registerFormatInv h hs (fun v h => ?_) fun _ _ => resetNotDone_registerFormatInv
    split at h
    · exact resetNotDone_registerFormatInv hs h
    · exact toReturn_registerFormatInv hs h
  · exact hs.goto _
  · exact (hs.hooked l d).goto _
  · exact (hs.hooked l d).goto _
  · exact finish_registerFormatInv hs h

theorem execPhyLinkstatus_registerFormatInv (hs : RegisterFormatInv s) (h : execPhyLinkstatus s = .next t) :
    RegisterFormatInv t := by
  rcases execPhyLinkstatus_next h with ⟨-, -, -, rfl⟩ | ⟨-, rfl⟩ | ⟨p, m, -, h⟩ | ⟨p, m, -, h⟩ | ⟨e, -, h⟩
  · exact hs.goto _
  · exact hs.goto _
  · refine inTransaction_registerFormatInv h hs (fun v h => ?_) fun _ _ => toRaise_registerFormatInv
    split at h
    · obtain rfl := next_eq_next.1 h
      exact hs.goto _
    · exact toReturn_registerFormatInv hs h
  · exact inTransaction_registerFormatInv h hs (fun _ => toReturn_registerFormatInv hs)
      fun _ _ => toRaise_registerFormatInv
  · exact finish_registerFormatInv hs h

/-! ### DRM: of its operations three write INIT and one DMA_CTRL -/

theorem execTxSetdesc_registerFormatInv (hs : RegisterFormatInv s) (h : execTxSetdesc s = .next t) :
    RegisterFormatInv t := by
  rcases execTxSetdesc_next h with ⟨-, -, -, -, rfl⟩ | ⟨k, base, n, -, h⟩ | ⟨e, -, h⟩
  · exact hs.goto _
  · cases k <;> obtain rfl := next_eq_next.1 h
    case valid => exact hs.setReg_goto (formatOk_init_or (hs.reg .init) (by decide))
    all_goals exact hs.setReg_goto trivial
  · exact finish_registerFormatInv hs h

theorem execTxPut_registerFormatInv (hs : RegisterFormatInv s) (h : execTxPut s = .next t) :
    RegisterFormatInv t := by
  rcases execTxPut_next h with ⟨-, -, -, rfl⟩ | ⟨k, buf, len, -, h⟩ | ⟨e, -, h⟩
  · exact hs.goto _
  · rcases putStep_next h with ⟨-, rfl⟩ | ⟨_, -, rfl⟩ | ⟨_, -, rfl⟩ | ⟨_, _, -, -, rfl⟩ | ⟨_, _, -, -, rfl⟩ |
      ⟨_, _, -, -, rfl⟩ | ⟨_, _, -, -, rfl⟩ | ⟨_, _, -, rfl⟩ | ⟨_, _, _, -, rfl⟩ | ⟨_, _, _, -, -, rfl⟩ |
      ⟨_, _, _, -, -, rfl⟩ | ⟨_, _, -, -, rfl⟩ | ⟨_, _, -, -, rfl⟩ | ⟨_, _, -, -, rfl⟩ | ⟨_, _, -, rfl⟩ |
      ⟨_, _, _, -, rfl⟩ | ⟨_, _, _, -, rfl⟩ | ⟨_, _, -, rfl⟩ | ⟨_, _, _, -, rfl⟩
    on_goal 17 => exact ((hs.setReg (r := .txTailPtr) trivial).grantTx _).goto _
    on_goal 18 => exact hs.setReg_goto trivial
    all_goals exact hs
  · exact finish_registerFormatInv hs h

theorem execTxUpdate_registerFormatInv (hs : RegisterFormatInv s) (h : execTxUpdate s = .next t) :
    RegisterFormatInv t := by
  rcases execTxUpdate_next h with ⟨-, -, rfl⟩ | ⟨k, -, h⟩ | ⟨e, -, h⟩
  · exact hs.goto _
  · rcases updateStep_next h with ⟨-, rfl⟩ | ⟨_, -, -, rfl⟩ | ⟨_, -, -, rfl⟩ | ⟨-, rfl⟩ | ⟨_, -, rfl⟩ |
      ⟨_, -, rfl⟩ | ⟨_, -, -, rfl⟩ | ⟨_, -, -, rfl⟩ | ⟨-, rfl⟩ | ⟨_, -, rfl⟩ | ⟨-, rfl⟩ | ⟨_, -, rfl⟩ |
      ⟨_, -, rfl⟩ | ⟨_, _, -, rfl⟩
    on_goal 10 => exact hs.setReg_goto trivial
    all_goals exact hs.goto _
  · exact finish_registerFormatInv hs h

theorem execRxArm_registerFormatInv (hs : RegisterFormatInv s) (h : execRxArm s = .next t) :
    RegisterFormatInv t := by
  rcases execRxArm_next h with ⟨-, -, -, -, rfl⟩ | ⟨k, desc, buf, -, h⟩ | ⟨e, -, h⟩
  · exact hs.goto _
  · rcases armStep_next h with ⟨-, rfl⟩ | ⟨-, rfl⟩ | ⟨-, -, rfl⟩ | ⟨-, -, rfl⟩ | ⟨-, rfl⟩ | ⟨-, rfl⟩ | ⟨-, rfl⟩
    · exact hs.setReg_goto trivial
    · exact hs.setReg_goto trivial
    · exact (hs.setWord _ _).goto _
    · exact (hs.setWord _ _).goto _
    · exact hs.setReg_goto trivial
    · exact ((hs.setReg (r := .rxTailPtr) trivial).grantRx _).goto _
    · exact hs.setReg_goto (formatOk_init_or (hs.reg .init) (by decide))
  · exact finish_registerFormatInv hs h

theorem execRxPoll_registerFormatInv (hs : RegisterFormatInv s) (h : execRxPoll s = .next t) :
    RegisterFormatInv t := by
  rcases execRxPoll_next h with ⟨-, -, rfl⟩ | ⟨k, -, h⟩ | ⟨e, -, h⟩
  · exact hs.goto _
  · rcases pollStep_next h with ⟨-, rfl⟩ | ⟨d, -, -, rfl⟩ | ⟨d, -, -, rfl⟩ | ⟨d, -, rfl⟩ | ⟨len, -, rfl⟩ <;>
      exact hs.goto _
  · exact finish_registerFormatInv hs h

theorem execRxRearm_registerFormatInv (hs : RegisterFormatInv s) (h : execRxRearm s = .next t) :
    RegisterFormatInv t := by
  rcases execRxRearm_next h with ⟨-, -, rfl⟩ | ⟨k, -, h⟩ | ⟨e, -, h⟩
  · exact hs.goto _
  · rcases rearmStep_next h with ⟨-, rfl⟩ | ⟨d, -, -, rfl⟩ | ⟨d, -, -, rfl⟩ | ⟨d, -, rfl⟩ | ⟨d, ptr, -, rfl⟩
    · exact hs.goto _
    · exact hs.goto _
    · exact (hs.setWord _ _).goto _
    · exact hs.goto _
    · exact ((hs.setReg (r := .rxTailPtr) trivial).grantRx _).goto _
  · exact finish_registerFormatInv hs h

theorem execDmaSwreset_registerFormatInv (hs : RegisterFormatInv s) (h : execDmaSwreset s = .next t) :
    RegisterFormatInv t := by
  rcases execDmaSwreset_next h with ⟨-, rfl⟩ | ⟨-, rfl⟩ | ⟨-, rfl⟩ | ⟨-, -, rfl⟩ | ⟨-, -, rfl⟩ | ⟨e, -, h⟩
  · exact hs.goto _
  · exact hs.setReg_goto (by decide : (1#32).toNat ≤ 1)
  · exact hs.setReg_goto (by decide : (0#32).toNat ≤ 3)
  · exact hs.goto _
  · exact hs.goto _
  · exact finish_registerFormatInv hs h

/-! ### The command words -/

theorem execCmdwRead_registerFormatInv {p : PhyAddr} {r : RegAddr} (hs : RegisterFormatInv s)
    (h : execCmdwRead p r s = .next t) : RegisterFormatInv t := by
  obtain ⟨-, -, rfl⟩ := execCmdwRead_next h
  exact ((hs.phyRead p r).setReg (formatOk_data _ _)).clearBusy

theorem execCmdwWrite_registerFormatInv {p : PhyAddr} {r : RegAddr} (hs : RegisterFormatInv s)
    (h : execCmdwWrite p r s = .next t) : RegisterFormatInv t := by
  obtain ⟨-, -, rfl⟩ := execCmdwWrite_next h
  exact (hs.phyWrite p r _).clearBusy

/-! ### Every instruction, and every step of every agent -/

theorem exec_registerFormatInv {i : Instr} (hs : RegisterFormatInv s) (h : exec i s = .next t) :
    RegisterFormatInv t := by
  cases i with
  | mdioRead => exact execMdioRead_registerFormatInv hs h
  | mdioWrite => exact execMdioWrite_registerFormatInv hs h
  | phySetaddr => exact execPhySetaddr_registerFormatInv hs h
  | phyDetect => exact execPhyDetect_registerFormatInv hs h
  | phyReset => exact execPhyReset_registerFormatInv hs h
  | phyLinkstatus => exact execPhyLinkstatus_registerFormatInv hs h
  | txSetdesc => exact execTxSetdesc_registerFormatInv hs h
  | txPut => exact execTxPut_registerFormatInv hs h
  | txUpdate => exact execTxUpdate_registerFormatInv hs h
  | rxArm => exact execRxArm_registerFormatInv hs h
  | rxPoll => exact execRxPoll_registerFormatInv hs h
  | rxRearm => exact execRxRearm_registerFormatInv hs h
  | dmaSwreset => exact execDmaSwreset_registerFormatInv hs h
  | cmdwRead p r => exact execCmdwRead_registerFormatInv hs h
  | cmdwWrite p r => exact execCmdwWrite_registerFormatInv hs h

/-- Of OPW and CFG HOST stores a word below 16 and bit 0 (R30, R108), of ARG0 to ARG2 any word (R31). -/
theorem hostWrite_registerFormatInv {n : Fin 27} {v : Word} (hs : RegisterFormatInv s)
    (h : hostWrite n v s = .next t) : RegisterFormatInv t := by
  obtain ⟨-, ⟨r, hr, rfl⟩ | rfl | ⟨i, hi, h⟩⟩ := hostWrite_next h
  · simp only [List.mem_cons, List.not_mem_nil, or_false] at hr
    rcases hr with rfl | rfl | rfl <;> exact hs.setReg trivial
  · refine hs.setReg ?_
    rw [FormatOk, BitVec.toNat_and]
    exact Nat.and_le_right
  · rw [decode_wordBytes] at hi
    exact exec_registerFormatInv (hs.setReg (r := .opw) (toNat_lt_of_decodeOpw hi)) h

theorem dmaSwrDone_registerFormatInv (hs : RegisterFormatInv s) (h : dmaSwrDone s = .next t) :
    RegisterFormatInv t := by
  obtain ⟨-, rfl⟩ := dmaSwrDone_next h
  have hctrl : (s.reg .dmaCtrl).toNat ≤ 1 := hs.reg .dmaCtrl
  refine (hs.setReg ?_).forgetGrants
  rw [FormatOk, BitVec.toNat_and]
  exact Nat.and_le_left.trans hctrl

theorem formatOk_zero (P : Config.Params) (r : Reg) : FormatOk P r 0#32 := by
  cases r <;> simp [FormatOk]

theorem eventTurn_registerFormatInv {e : Event} (hs : RegisterFormatInv s) (h : eventTurn e s = .next t) :
    RegisterFormatInv t := by
  cases e with
  | seq =>
    rcases seqTurn_next h with ⟨-, rfl⟩ | ⟨i, -, h⟩
    · exact hs
    · exact exec_registerFormatInv hs h
  | hostWrite n v => exact hostWrite_registerFormatInv hs h
  | hostRead n =>
    obtain rfl := next_eq_next.1 h
    exact hs
  | hostMem a v =>
    obtain ⟨-, rfl⟩ := hostMem_next h
    exact hs.setWord a v
  | bus =>
    obtain ⟨i, -, h⟩ := busTurn_next h
    exact exec_registerFormatInv hs h
  | phy p r v =>
    obtain ⟨-, rfl⟩ := phyTurn_next h
    exact hs.phyWrite p r v
  | dmaTxDone slot =>
    obtain ⟨a, -, -, -, -, -, rfl⟩ := dmaTxDone_next h
    exact hs.setWord a _
  | dmaRxFrame n bufv =>
    obtain ⟨a₂, a₃, -, -, -, -, -, -, -, rfl⟩ := dmaRxFrame_next h
    exact (hs.setWord a₂ _).setWord a₃ _
  | dmaSwrDone => exact dmaSwrDone_registerFormatInv hs h
  | blockReset =>
    obtain rfl : s.afterReset = t := next_eq_next.1 h
    exact registerFormatInv_iff.2 fun r => by rw [State.reg_afterReset]; exact formatOk_zero _ r

end

/-- Settles O55: each agent writes to a register a value of its format only, and the reset values are of every format. -/
theorem registerFormatsAreKept : Obligations.RegisterFormatsAreKept := by
  unfold Obligations.RegisterFormatsAreKept
  intro s t hs h
  obtain ⟨e, rest, h⟩ := step_next h
  exact eventTurn_registerFormatInv (s := { s with agenda := rest }) hs h

end

end Sys2Proof
end

section
/-! Runs of the agents' steps (R8, R14): how they are put together, and SEQ's turns inside a transaction (R142, R143,
R146, R171) and at the end of an operation (R267, R269). -/

namespace Sys2Proof.Machine

/-! ### Runs -/

@[simp] theorem play_singleton (e : Event) (s : State) : play [e] s = eventTurn e s := by
  unfold play
  cases eventTurn e s <;> rfl

theorem play_cons {e : Event} {es : List Event} {s t : State} (h : eventTurn e s = .next t) :
    play (e :: es) s = play es t := by
  rw [play, h]

theorem play_append {es es' : List Event} {s t : State} (h : play es s = .next t) :
    play (es ++ es') s = play es' t := by
  induction es generalizing s with
  | nil => rw [next_eq_next.1 h, List.nil_append]
  | cons e es ih =>
    rw [play] at h
    split at h
    · rw [List.cons_append, play_cons ‹_›]
      exact ih h
    · cases h
    · cases h

theorem play_seq {es : List Event} {s t : State} (h : seqTurn s = .next t) : play (.seq :: es) s = play es t :=
  play_cons (e := .seq) h

theorem play_bus {es : List Event} {s t : State} (h : busTurn s = .next t) : play (.bus :: es) s = play es t :=
  play_cons (e := .bus) h

theorem play_seq_singleton (s : State) : play [.seq] s = seqTurn s := play_singleton .seq s

theorem playSeq_one (s : State) : playSeq 1 s = seqTurn s := play_seq_singleton s

theorem playSeq_succ {n : Nat} {s t : State} (h : seqTurn s = .next t) : playSeq (n + 1) s = playSeq n t :=
  play_seq h

theorem playSeq_add {m n : Nat} {s t : State} (h : playSeq m s = .next t) : playSeq (m + n) s = playSeq n t := by
  rw [playSeq, List.replicate_add]
  exact play_append h

@[simp] theorem State.goto_goto (s : State) (q q' : Seq) : (s.goto q).goto q' = s.goto q' := rfl

theorem State.goto_seq {s : State} {q : Seq} (h : s.seq = q) : s.goto q = s := h ▸ rfl

/-! ### SEQ's turn inside a transaction -/

/-- Where SEQ stands at `at_ m`, its turn is a transaction's step, of which the operation takes the value by `done` and
the failure by `failed` (R171). -/
def RunsTransaction (at_ : MdioPos → Seq) (done : Data16 → State → Result) (failed : Word → State → Result) : Prop :=
  ∀ (m : MdioPos) (s : State), s.seq = at_ m → seqTurn s = inTransaction m s at_ done failed

theorem runsTransaction_mdioRead :
    RunsTransaction .mdioRead (fun v => toReturn .mdioRead (some (v.setWidth 32)) none)
      (fun e => toRaise .mdioRead (.hookFail e)) := fun m s hq => by
  rw [seqTurn_of_operation (i := .mdioRead) (by rw [hq]; rfl)]
  simp only [exec, execMdioRead, hq]

theorem runsTransaction_mdioWrite :
    RunsTransaction .mdioWrite (fun _ => toReturn .mdioWrite none none)
      (fun e => toRaise .mdioWrite (.hookFail e)) := fun m s hq => by
  rw [seqTurn_of_operation (i := .mdioWrite) (by rw [hq]; rfl)]
  simp only [exec, execMdioWrite, hq]

theorem runsTransaction_phyDetect (a : PhyAddr) :
    RunsTransaction (.phyDetect a)
      (fun v s => if v ≠ Config.noDevice then .next (s.goto (.phyDetectStore a)) else detectSkip a s)
      (fun _ => detectSkip a) := fun m s hq => by
  rw [seqTurn_of_operation (i := .phyDetect) (by rw [hq]; rfl)]
  simp only [exec, execPhyDetect, hq]

theorem runsTransaction_phyResetWrite (p : PhyAddr) :
    RunsTransaction (.phyResetWrite p) (fun _ => resetPoll p) (fun e => toRaise .phyReset (.hookFail e)) :=
  fun m s hq => by
  rw [seqTurn_of_operation (i := .phyReset) (by rw [hq]; rfl)]
  simp only [exec, execPhyReset, hq]

theorem runsTransaction_phyResetRead (p : PhyAddr) :
    RunsTransaction (.phyResetRead p)
      (fun v s => if resetBit s.params v then resetNotDone p s else toReturn .phyReset none none s)
      (fun _ => resetNotDone p) := fun m s hq => by
  rw [seqTurn_of_operation (i := .phyReset) (by rw [hq]; rfl)]
  simp only [exec, execPhyReset, hq]

theorem runsTransaction_phyLinkFirst (p : PhyAddr) :
    RunsTransaction (.phyLinkFirst p)
      (fun v s => if linkBit s.params v then .next (s.goto (.phyLinkSecond p (readStart p s.params.lsSecondReg)))
        else toReturn .phyLinkstatus (some (lsw false false 0#2 false)) none s)
      (fun e => toRaise .phyLinkstatus (.hookFail e)) := fun m s hq => by
  rw [seqTurn_of_operation (i := .phyLinkstatus) (by rw [hq]; rfl)]
  simp only [exec, execPhyLinkstatus, hq]

theorem runsTransaction_phyLinkSecond (p : PhyAddr) :
    RunsTransaction (.phyLinkSecond p)
      (fun v s => toReturn .phyLinkstatus (some (linkUpStatus s.params v)) none s)
      (fun e => toRaise .phyLinkstatus (.hookFail e)) := fun m s hq => by
  rw [seqTurn_of_operation (i := .phyLinkstatus) (by rw [hq]; rfl)]
  simp only [exec, execPhyLinkstatus, hq]

/-- Every transaction SEQ can be inside runs so. -/
theorem runsTransaction_of_transactionOf {q : Seq} {m : MdioPos} (h : transactionOf q = some m) :
    ∃ at_ done failed, q = at_ m ∧ RunsTransaction at_ done failed := by
  cases q with
  | mdioRead m' => cases h; exact ⟨_, _, _, rfl, runsTransaction_mdioRead⟩
  | mdioWrite m' => cases h; exact ⟨_, _, _, rfl, runsTransaction_mdioWrite⟩
  | phyDetect a m' => cases h; exact ⟨_, _, _, rfl, runsTransaction_phyDetect a⟩
  | phyResetWrite p m' => cases h; exact ⟨_, _, _, rfl, runsTransaction_phyResetWrite p⟩
  | phyResetRead p m' => cases h; exact ⟨_, _, _, rfl, runsTransaction_phyResetRead p⟩
  | phyLinkFirst p m' => cases h; exact ⟨_, _, _, rfl, runsTransaction_phyLinkFirst p⟩
  | phyLinkSecond p m' => cases h; exact ⟨_, _, _, rfl, runsTransaction_phyLinkSecond p⟩
  | _ => cases h

/-! ### One step of a transaction -/

theorem mdioStep_writeData {p : PhyAddr} {s : State} (h : mdioRefusal p s = none) (r : RegAddr) (v : Data16) :
    mdioStep (.writeData p r v) s = .more (.writeCmd p r Config.opWrite) (s.setReg .mdioData (v.setWidth 32)) := by
  simp only [mdioStep, h]

theorem mdioStep_writeCmd {p : PhyAddr} {s : State} (h : mdioRefusal p s = none) (r : RegAddr) (o : BitVec 2) :
    mdioStep (.writeCmd p r o) s = .more (.poll o) (s.setReg .mdioCmd (cmdw s.params p r o)) := by
  simp only [mdioStep, h]

theorem mdioStep_poll_of_busy {s : State} (h : s.busy = true) (o : BitVec 2) :
    mdioStep (.poll o) s = .more (.cfg o) s := if_pos h

theorem mdioStep_poll_read {s : State} (h : s.busy = false) : mdioStep (.poll Config.opRead) s = .more .readData s := by
  simp [mdioStep, h]

theorem mdioStep_poll_write {s : State} (h : s.busy = false) : mdioStep (.poll Config.opWrite) s = .done 0#16 s := by
  simp [mdioStep, h, Config.opRead, Config.opWrite]

theorem mdioStep_cfg_of_hook {s : State} (h : s.hookEn = true) (o : BitVec 2) :
    mdioStep (.cfg o) s = .more (.hook o) s := by
  simp only [mdioStep, h, if_true]

theorem mdioStep_cfg_of_no_hook {s : State} (h : s.hookEn = false) (o : BitVec 2) :
    mdioStep (.cfg o) s = .more (.poll o) s := by
  simp [mdioStep, h]

theorem mdioStep_hook_ok {s : State} {rest : List Config.HookAnswer} (h : s.hookAnswers = .ok :: rest) (o : BitVec 2) :
    mdioStep (.hook o) s = .more (.poll o) (s.hooked rest s.draws) := by
  simp only [mdioStep, State.callHook, h]
  rfl

/-- With BUSY = 1 a write of MDIO_DATA or MDIO_CMD for an address 0..62 is refused (R149). -/
theorem mdioStep_of_busy {m : MdioPos} {p : PhyAddr} {s : State} (hm : mdioTarget m = some p) (hp : AddressOk p)
    (hb : s.busy = true) : mdioStep m s = .refused .commandWhileBusy := by
  have hrefusal : mdioRefusal p s = some .commandWhileBusy := by
    rw [mdioRefusal, if_neg (Nat.not_lt.2 hp), if_pos hb]
  cases m with
  | writeData p' r v => cases hm; simp only [mdioStep, hrefusal]
  | writeCmd p' r o => cases hm; simp only [mdioStep, hrefusal]
  | _ => cases hm

section
variable {at_ : MdioPos → Seq} {done : Data16 → State → Result} {failed : Word → State → Result} {m m' : MdioPos}
  {s t : State}

theorem RunsTransaction.turn_more (hrun : RunsTransaction at_ done failed) (hq : s.seq = at_ m)
    (h : mdioStep m s = .more m' t) : seqTurn s = .next (t.goto (at_ m')) := by
  rw [hrun m s hq, inTransaction, h]

theorem RunsTransaction.turn_done (hrun : RunsTransaction at_ done failed) (hq : s.seq = at_ m) {v : Data16}
    (h : mdioStep m s = .done v t) : seqTurn s = done v t := by
  rw [hrun m s hq, inTransaction, h]

theorem RunsTransaction.turn_refused (hrun : RunsTransaction at_ done failed) (hq : s.seq = at_ m) {e : Refusal}
    (h : mdioStep m s = .refused e) : seqTurn s = .refused e := by
  rw [hrun m s hq, inTransaction, h]

end

/-! ### PollBusy (R146) -/

section
variable {at_ : MdioPos → Seq} {done : Data16 → State → Result} {failed : Word → State → Result} {o : BitVec 2}
  {s : State}

/-- Without a hook an iteration that sees BUSY = 1 changes nothing. -/
theorem RunsTransaction.iteration_of_no_hook (hrun : RunsTransaction at_ done failed) (hq : s.seq = at_ (.poll o))
    (hb : s.busy = true) (hh : s.hookEn = false) : playSeq 2 s = .next s := by
  rw [playSeq_succ (hrun.turn_more hq (mdioStep_poll_of_busy hb o)), playSeq_one,
    hrun.turn_more rfl (mdioStep_cfg_of_no_hook (s := s.goto (at_ (.cfg o))) hh o), State.goto_goto, State.goto_seq hq]

/-- With a hook it uses up one answer. -/
theorem RunsTransaction.iteration_of_hook (hrun : RunsTransaction at_ done failed) (hq : s.seq = at_ (.poll o))
    (hb : s.busy = true) (hh : s.hookEn = true) {rest : List Config.HookAnswer} (hl : s.hookAnswers = .ok :: rest) :
    playSeq 3 s = .next (s.hooked rest s.draws) := by
  rw [playSeq_succ (hrun.turn_more hq (mdioStep_poll_of_busy hb o)),
    playSeq_succ (hrun.turn_more rfl (mdioStep_cfg_of_hook (s := s.goto (at_ (.cfg o))) hh o)), State.goto_goto,
    playSeq_one, hrun.turn_more rfl (mdioStep_hook_ok (s := s.goto (at_ (.hook o))) hl o)]
  exact congrArg _ (State.goto_seq (s := s.hooked rest s.draws) hq)

theorem RunsTransaction.playSeq_of_no_hook (hrun : RunsTransaction at_ done failed) (hq : s.seq = at_ (.poll o))
    (hb : s.busy = true) (hh : s.hookEn = false) (n : Nat) : playSeq (2 * n) s = .next s := by
  induction n with
  | zero => rfl
  | succ n ih =>
    rw [Nat.mul_succ, Nat.add_comm, playSeq_add (hrun.iteration_of_no_hook hq hb hh)]
    exact ih

theorem RunsTransaction.playSeq_of_hook (hrun : RunsTransaction at_ done failed) (hq : s.seq = at_ (.poll o))
    (hb : s.busy = true) (hh : s.hookEn = true) {n : Nat} {rest : List Config.HookAnswer}
    (hl : s.hookAnswers = List.replicate n .ok ++ rest) : playSeq (3 * n) s = .next (s.hooked rest s.draws) := by
  induction n generalizing s with
  | zero => rw [← show s.hookAnswers = rest from hl]; rfl
  | succ n ih =>
    rw [Nat.mul_succ, Nat.add_comm, playSeq_add (hrun.iteration_of_hook hq hb hh hl)]
    exact ih hq hb hh rfl

/-- Either way `k` iterations change nothing but the hook's listed answers. -/
theorem RunsTransaction.playSeq_pollSteps (hrun : RunsTransaction at_ done failed) (hq : s.seq = at_ (.poll o))
    (hb : s.busy = true) {k : Nat} {rest : List Config.HookAnswer} (hhook : HookAllows s k rest) :
    playSeq (pollSteps s k) s = .next (s.hooked (if s.hookEn then rest else s.hookAnswers) s.draws) := by
  unfold pollSteps
  cases hh : s.hookEn with
  | false => exact hrun.playSeq_of_no_hook hq hb hh k
  | true => exact hrun.playSeq_of_hook hq hb hh (hhook hh)

end

/-! ### The end of an operation (R267, R269) -/

/-- At its last step an operation of the port returns or raises. -/
theorem seqTurn_ending {i : Instr} {e : Ending} {s : State} (hi : i.format = .opw) (hq : s.seq = .ending i e) :
    seqTurn s = finish e s := by
  rw [seqTurn_of_operation (i := i) (by rw [hq]; rfl)]
  cases i with
  | mdioRead => simp only [exec, execMdioRead, hq]
  | mdioWrite => simp only [exec, execMdioWrite, hq]
  | phySetaddr => simp only [exec, execPhySetaddr, hq]
  | phyDetect => simp only [exec, execPhyDetect, hq]
  | phyReset => simp only [exec, execPhyReset, hq]
  | phyLinkstatus => simp only [exec, execPhyLinkstatus, hq]
  | txSetdesc => simp only [exec, execTxSetdesc, hq]
  | txPut => simp only [exec, execTxPut, hq]
  | txUpdate => simp only [exec, execTxUpdate, hq]
  | rxArm => simp only [exec, execRxArm, hq]
  | rxPoll => simp only [exec, execRxPoll, hq]
  | rxRearm => simp only [exec, execRxRearm, hq]
  | dmaSwreset => simp only [exec, execDmaSwreset, hq]
  | cmdwRead p r => cases hi
  | cmdwWrite p r => cases hi

/-- Settles O20: each iteration leads back to the same state. -/
theorem pollLoopSpinsUnbounded : Obligations.PollLoopSpinsUnbounded := by
  unfold Obligations.PollLoopSpinsUnbounded
  intro s o n hq hb hh
  obtain ⟨at_, done, failed, hat, hrun⟩ := runsTransaction_of_transactionOf hq
  exact hrun.playSeq_of_no_hook hat hb hh n

/-- Settles O21: each iteration uses up one listed answer. -/
theorem oneHookCallPerBusyPoll : Obligations.OneHookCallPerBusyPoll := by
  unfold Obligations.OneHookCallPerBusyPoll
  intro s o n rest hq hb hh hl
  obtain ⟨at_, done, failed, hat, hrun⟩ := runsTransaction_of_transactionOf hq
  exact hrun.playSeq_of_hook hat hb hh hl

end Sys2Proof.Machine
end

section
/-! BUS's completion of a transaction (R154, R155, R157), and the life of the busy flag (R159). -/

namespace Sys2Proof.Machine

/-! ### What BUS's step runs -/

theorem inFlight_iff {s : State} {p : PhyAddr} {r : RegAddr} {o : BitVec 2} :
    s.inFlight p r o = true ↔ s.busy = true ∧ cmdPhyad s.params (s.reg .mdioCmd) = p ∧
      cmdRegad s.params (s.reg .mdioCmd) = r ∧ cmdOp s.params (s.reg .mdioCmd) = o := by
  simp [State.inFlight, and_assoc]

theorem busTurn_of_decodeCmdw {s : State} {i : Instr} (h : decodeCmdw s.params (s.reg .mdioCmd) = .ok i) :
    busTurn s = exec i s := by
  obtain ⟨htransaction, -⟩ := decodeCmdw_eq_ok h
  simp only [busTurn, htransaction]

theorem exec_cmdwRead {s : State} {p : PhyAddr} {r : RegAddr} (h : s.inFlight p r Config.opRead = true)
    (hp : AddressOk p) : exec (.cmdwRead p r) s =
      .next ((s.phyRead p r).2.setReg .mdioData (((s.phyRead p r).1).setWidth 32)).clearBusy := by
  rw [exec, execCmdwRead, h, if_neg (by decide), if_neg (Nat.not_lt.2 hp)]

theorem exec_cmdwWrite {s : State} {p : PhyAddr} {r : RegAddr} (h : s.inFlight p r Config.opWrite = true)
    (hp : AddressOk p) : exec (.cmdwWrite p r) s = .next (s.phyWrite p r s.data).clearBusy := by
  rw [exec, execCmdwWrite, h, if_neg (by decide), if_neg (Nat.not_lt.2 hp)]

/-- Settles O2: a word that decodes names the transaction that `busTurn` runs. -/
theorem stepRunsCommandWord : Obligations.StepRunsCommandWord := by
  unfold Obligations.StepRunsCommandWord
  intro s rest i hagenda hi
  rw [decode_wordBytes] at hi
  rw [step_cons hagenda]
  exact busTurn_of_decodeCmdw hi

/-! ### The state after a completion -/

@[simp] theorem State.params_phyRead (s : State) (p : PhyAddr) (r : RegAddr) :
    (s.phyRead p r).2.params = s.params := by
  rcases State.phyRead_state s p r with hs | hs <;> rw [hs]

@[simp] theorem State.mem_phyRead (s : State) (p : PhyAddr) (r : RegAddr) : (s.phyRead p r).2.mem = s.mem := by
  rcases State.phyRead_state s p r with hs | hs <;> rw [hs]

@[simp] theorem State.params_phyWrite (s : State) (p : PhyAddr) (r : RegAddr) (v : Data16) :
    (s.phyWrite p r v).params = s.params := by
  rcases State.phyWrite_state s p r v with hs | ⟨-, hs⟩ <;> rw [hs]

theorem State.phyRegs_phyWrite (s : State) (p : PhyAddr) (r : RegAddr) (v : Data16) :
    (s.phyWrite p r v).phyRegs = if s.isPresent p then Assoc.insert (phyKey p r) v s.phyRegs else s.phyRegs := by
  unfold State.phyWrite
  split <;> rfl

@[simp] theorem State.mem_clearBusy (s : State) : s.clearBusy.mem = s.mem := rfl
@[simp] theorem State.phyRegs_clearBusy (s : State) : s.clearBusy.phyRegs = s.phyRegs := rfl

@[simp] theorem State.reg_clearBusy (s : State) (r : Reg) :
    s.clearBusy.reg r = if r = .mdioCmd then cmdClearBusy s.params (s.reg .mdioCmd) else s.reg r :=
  State.reg_setReg s .mdioCmd r _

/-- Settles O23: the PHY is read, MDIO_DATA and BUSY are written, and nothing else. -/
theorem busCompletesRead : Obligations.BusCompletesRead := by
  unfold Obligations.BusCompletesRead
  intro s p r hflight hp
  have h := exec_cmdwRead hflight hp
  obtain ⟨⟨houtside, hgrants⟩, hseq⟩ := execCmdwRead_keepsAround h
  refine ⟨_, h, by simp, ?_, hseq, keepsRegsBut_mono (execCmdwRead_keepsRegs h) (by simp), by simp, houtside, hgrants⟩
  simp [cmdClearBusy, place]

/-- Settles O24: the PHY register view and BUSY are written, and nothing else. -/
theorem busCompletesWrite : Obligations.BusCompletesWrite := by
  unfold Obligations.BusCompletesWrite
  intro s p r hflight hp
  have h := exec_cmdwWrite hflight hp
  obtain ⟨⟨⟨hpresent, -, hparams, -⟩, hgrants⟩, hseq⟩ := execCmdwWrite_phyRegs h
  refine ⟨_, h, by simp [cmdClearBusy, place], fun k => ?_, hseq, execCmdwWrite_keepsRegs h, by simp, hpresent,
    hparams, hgrants⟩
  rw [State.phyRegs_clearBusy, State.phyRegs_phyWrite]
  cases s.isPresent p <;> simp [State.data, field]

/-- Settles O25: a read of an absent PHY answers 0xFFFF, and a write leaves the view. -/
theorem absentDeviceAnswersAllOnes : Obligations.AbsentDeviceAnswersAllOnes := by
  unfold Obligations.AbsentDeviceAnswersAllOnes
  intro s p r habsent hp
  refine ⟨fun hflight => ⟨_, exec_cmdwRead hflight hp, ?_⟩, fun hflight => ⟨_, exec_cmdwWrite hflight hp, ?_⟩⟩
  · simp [State.phyRead, habsent, Config.noDevice]
  · simp [State.phyRegs_phyWrite, habsent]

/-! ### The life of the busy flag (R159) -/

/-- MDIO_CMD is as before, or SEQ stood at a command write and found BUSY = 0. -/
def CmdKeptOrWritten (s t : State) : Prop :=
  t.reg .mdioCmd = s.reg .mdioCmd ∨
  s.busy = false ∧ ∃ p r o, transactionOf s.seq = some (.writeCmd p r o)

theorem cmdKeptOrWritten_of_keepsRegs {rs : List Reg} {s t : State} (h : KeepsRegsBut rs s t) (hrs : .mdioCmd ∉ rs) :
    CmdKeptOrWritten s t := .inl (h .mdioCmd hrs)

/-- Of a transaction's steps only the command write writes MDIO_CMD. -/
theorem inTransaction_cmdKeptOrWritten {i : Instr} {m : MdioPos} {s t : State} {at_ : MdioPos → Seq}
    {done : Data16 → State → Result} {failed : Word → State → Result} (h : inTransaction m s at_ done failed = .next t)
    (hq : transactionOf s.seq = some m) (hdone : ∀ v, done v s = .next t → StepsWithin i [] s t)
    (hfailed : ∀ e u, failed e u = .next t → StepsWithin i [] u t) : CmdKeptOrWritten s t := by
  rcases inTransaction_cases h with ⟨p, r, v, -, -, -, rfl⟩ | ⟨p, r, o, rfl, -, hb, -⟩ | ⟨o, -, -, rfl⟩ |
    ⟨o, -, rfl⟩ | ⟨-, -, rfl⟩ | ⟨o, l, d, -, rfl⟩ | ⟨v, -, h⟩ | ⟨o, e, l, d, -, h⟩
  · exact .inl (by simp)
  · exact .inr ⟨hb, p, r, o, hq⟩
  · exact .inl rfl
  · exact .inl rfl
  · exact .inl rfl
  · exact .inl rfl
  · exact cmdKeptOrWritten_of_keepsRegs (hdone v h).1 (by simp)
  · exact cmdKeptOrWritten_of_keepsRegs (s := s) (hfailed e _ h).1 (by simp)

theorem finish_cmdKeptOrWritten {e : Ending} {s t : State} (h : finish e s = .next t) : CmdKeptOrWritten s t := by
  obtain ⟨hkeeps, -⟩ := finish_stepsWithin (i := .mdioRead) (fun _ => id) h
  exact cmdKeptOrWritten_of_keepsRegs hkeeps (by decide)

section
variable {s t : State}

theorem execMdioRead_cmdKeptOrWritten (h : execMdioRead s = .next t) : CmdKeptOrWritten s t := by
  rcases execMdioRead_next h with ⟨-, -, -, rfl⟩ | ⟨m, hq, h⟩ | ⟨e, -, h⟩
  · exact .inl rfl
  · exact inTransaction_cmdKeptOrWritten h (by rw [hq]; rfl) (fun _ => toReturn_stepsWithin)
      fun _ _ => toRaise_stepsWithin
  · exact finish_cmdKeptOrWritten h

theorem execMdioWrite_cmdKeptOrWritten (h : execMdioWrite s = .next t) : CmdKeptOrWritten s t := by
  rcases execMdioWrite_next h with ⟨-, -, -, rfl⟩ | ⟨m, hq, h⟩ | ⟨e, -, h⟩
  · exact .inl rfl
  · exact inTransaction_cmdKeptOrWritten h (by rw [hq]; rfl) (fun _ => toReturn_stepsWithin)
      fun _ _ => toRaise_stepsWithin
  · exact finish_cmdKeptOrWritten h

theorem execPhyDetect_cmdKeptOrWritten (h : execPhyDetect s = .next t) : CmdKeptOrWritten s t := by
  rcases execPhyDetect_next h with ⟨-, -, rfl⟩ | ⟨a, m, hq, h⟩ | ⟨a, -, rfl⟩ | ⟨e, -, h⟩
  · exact .inl rfl
  · refine inTransaction_cmdKeptOrWritten (i := .phyDetect) h (by rw [hq]; rfl) (fun v h => ?_)
      fun _ _ => detectSkip_stepsWithin
    split at h
    · obtain rfl := next_eq_next.1 h
      exact stepsWithin_goto rfl (keepsRegsBut_refl [] s)
    · exact detectSkip_stepsWithin h
  · exact .inl (by simp)
  · exact finish_cmdKeptOrWritten h

theorem execPhyReset_cmdKeptOrWritten (h : execPhyReset s = .next t) : CmdKeptOrWritten s t := by
  rcases execPhyReset_next h with ⟨-, -, -, rfl⟩ | ⟨-, rfl⟩ | ⟨p, m, hq, h⟩ | ⟨p, m, hq, h⟩ | ⟨p, -, rfl⟩ |
    ⟨p, l, d, -, rfl⟩ | ⟨p, e, l, d, -, rfl⟩ | ⟨e, -, h⟩
  · exact .inl rfl
  · exact .inl rfl
  · exact inTransaction_cmdKeptOrWritten h (by rw [hq]; rfl) (fun _ => resetPoll_stepsWithin)
      fun _ _ => toRaise_stepsWithin
  · refine inTransaction_cmdKeptOrWritten h (by rw [hq]; rfl) (fun v h => ?_) fun _ _ => resetNotDone_stepsWithin
    split at h
    · exact resetNotDone_stepsWithin h
    · exact toReturn_stepsWithin h
  · exact .inl rfl
  · exact .inl rfl
  · exact .inl rfl
  · exact finish_cmdKeptOrWritten h

theorem execPhyLinkstatus_cmdKeptOrWritten (h : execPhyLinkstatus s = .next t) : CmdKeptOrWritten s t := by
  rcases execPhyLinkstatus_next h with ⟨-, -, -, rfl⟩ | ⟨-, rfl⟩ | ⟨p, m, hq, h⟩ | ⟨p, m, hq, h⟩ | ⟨e, -, h⟩
  · exact .inl rfl
  · exact .inl rfl
  · refine inTransaction_cmdKeptOrWritten (i := .phyLinkstatus) h (by rw [hq]; rfl) (fun v h => ?_)
      fun _ _ => toRaise_stepsWithin
    split at h
    · obtain rfl := next_eq_next.1 h
      exact stepsWithin_goto rfl (keepsRegsBut_refl [] s)
    · exact toReturn_stepsWithin h
  · exact inTransaction_cmdKeptOrWritten h (by rw [hq]; rfl) (fun _ => toReturn_stepsWithin)
      fun _ _ => toRaise_stepsWithin
  · exact finish_cmdKeptOrWritten h

/-- Of the operations only those that use MDIO write MDIO_CMD (R21), each by its transactions alone. -/
theorem exec_cmdKeptOrWritten {i : Instr} (hi : i.format = .opw) (h : exec i s = .next t) : CmdKeptOrWritten s t := by
  cases i with
  | mdioRead => exact execMdioRead_cmdKeptOrWritten h
  | mdioWrite => exact execMdioWrite_cmdKeptOrWritten h
  | phyDetect => exact execPhyDetect_cmdKeptOrWritten h
  | phyReset => exact execPhyReset_cmdKeptOrWritten h
  | phyLinkstatus => exact execPhyLinkstatus_cmdKeptOrWritten h
  | cmdwRead p r => cases hi
  | cmdwWrite p r => cases hi
  | _ =>
    obtain ⟨hkeeps, -⟩ := exec_stepsWithin_accesses hi h
    exact cmdKeptOrWritten_of_keepsRegs hkeeps (by decide)

theorem State.busy_congr (hp : t.params = s.params) (h : t.reg .mdioCmd = s.reg .mdioCmd) : t.busy = s.busy := by
  rw [State.busy, State.busy, hp, h]

/-- A completion finds BUSY = 1 (R154, R155). -/
theorem busTurn_busy (h : busTurn s = .next t) : s.busy = true := by
  obtain ⟨i, hi, h⟩ := busTurn_next h
  cases i with
  | cmdwRead p r =>
    obtain ⟨hflight, -⟩ := execCmdwRead_next h
    exact (inFlight_iff.1 hflight).1
  | cmdwWrite p r =>
    obtain ⟨hflight, -⟩ := execCmdwWrite_next h
    exact (inFlight_iff.1 hflight).1
  | _ => cases hi

/-- The operation SEQ is inside is one of the port: it is never about to end a command word (R34). -/
theorem operation_format (hs : TransactionInv s) {i : Instr} (h : s.seq.operation = some i) :
    i.format = .opw := by
  obtain ⟨-, hseq⟩ := hs
  cases hq : s.seq with
  | idle => rw [hq] at h; cases h
  | ending j e =>
    rw [hq] at h hseq
    obtain rfl := Option.some.inj h
    exact hseq
  | _ =>
    rw [hq] at h
    obtain rfl := Option.some.inj h
    rfl

theorem exec_busy {i : Instr} (hi : i.format = .opw) (h : exec i s = .next t) :
    t.busy = s.busy ∨ s.busy = false ∧ ∃ p r o, transactionOf s.seq = some (.writeCmd p r o) :=
  (exec_cmdKeptOrWritten hi h).imp_left (State.busy_congr (exec_aroundFrame h).params)

/-- HOST's writes leave BUSY: an operation it starts begins outside a transaction. -/
theorem hostWrite_busy {n : Fin 27} {v : Word} (h : hostWrite n v s = .next t) : t.busy = s.busy := by
  obtain ⟨hq, ⟨r, hr, rfl⟩ | rfl | ⟨i, hi, h⟩⟩ := hostWrite_next h
  · refine State.busy_congr rfl ?_
    rw [State.reg_setReg, if_neg]
    rintro rfl
    simp at hr
  · exact State.busy_congr rfl (by simp)
  · rw [decode_wordBytes] at hi
    obtain ⟨-, hformat, -⟩ := encode_of_decodeOpw s.params hi
    rcases exec_busy hformat h with hbusy | ⟨-, p, r, o, hcmd⟩
    · exact hbusy.trans (State.busy_congr rfl (by simp))
    · rw [State.seq_setReg, hq] at hcmd
      cases hcmd

/-- What a step of an agent does to BUSY. -/
theorem eventTurn_busy {e : Event} (hs : TransactionInv s) (h : eventTurn e s = .next t) :
    t.busy = s.busy ∨
    (e = .seq ∧ s.busy = false ∧ ∃ p r o, transactionOf s.seq = some (.writeCmd p r o)) ∨
    (s.busy = true ∧ (e = .bus ∨ e = .blockReset)) := by
  cases e with
  | seq =>
    rcases seqTurn_next h with ⟨-, rfl⟩ | ⟨i, hi, h⟩
    · exact .inl rfl
    · exact (exec_busy (operation_format hs hi) h).imp_right fun hwrite => .inl ⟨rfl, hwrite⟩
  | hostWrite n v => exact .inl (hostWrite_busy h)
  | hostRead n =>
    obtain rfl := next_eq_next.1 h
    exact .inl rfl
  | hostMem a v =>
    obtain ⟨-, rfl⟩ := hostMem_next h
    exact .inl rfl
  | bus => exact .inr (.inr ⟨busTurn_busy h, .inl rfl⟩)
  | phy p r v =>
    obtain ⟨-, rfl⟩ := phyTurn_next h
    exact .inl (State.busy_congr (by simp) (by simp))
  | dmaTxDone slot =>
    obtain ⟨a, -, -, -, -, -, rfl⟩ := dmaTxDone_next h
    exact .inl rfl
  | dmaRxFrame n bufv =>
    obtain ⟨a₂, a₃, -, -, -, -, -, -, -, rfl⟩ := dmaRxFrame_next h
    exact .inl rfl
  | dmaSwrDone =>
    obtain ⟨-, rfl⟩ := dmaSwrDone_next h
    exact .inl (State.busy_congr rfl (by simp))
  | blockReset =>
    obtain rfl : s.afterReset = t := next_eq_next.1 h
    cases hb : s.busy with
    | true => exact .inr (.inr ⟨rfl, .inr rfl⟩)
    | false => exact .inl (by simp [State.busy, cmdBusy])

end

/-- A step is that of the agenda's first event, or SEQ's turn where none is announced (R320). -/
theorem step_announced {s t : State} (h : step s = .next t) :
    ∃ e rest, (s.agenda = e :: rest ∨ s.agenda = [] ∧ e = .seq) ∧ eventTurn e { s with agenda := rest } = .next t := by
  cases hagenda : s.agenda with
  | nil => exact ⟨.seq, [], .inr ⟨rfl, rfl⟩, step_nil hagenda ▸ h⟩
  | cons e rest => exact ⟨e, rest, .inl rfl, step_cons hagenda ▸ h⟩

/-- Settles O26: BUSY changes in SEQ's command write, which finds it 0, and in BUS's completion or a reset of the block
that find it 1, and in no other step. -/
theorem busyFlagLife : Obligations.BusyFlagLife := by
  unfold Obligations.BusyFlagLife
  intro s t hinv h
  obtain ⟨e, rest, hnext, h⟩ := step_announced h
  have hbusy : t.busy = s.busy ∨
      (e = .seq ∧ s.busy = false ∧ ∃ p r o, transactionOf s.seq = some (.writeCmd p r o)) ∨
      (s.busy = true ∧ (e = .bus ∨ e = .blockReset)) := eventTurn_busy (s := { s with agenda := rest }) hinv h
  refine ⟨fun hs ht => ?_, fun hs ht => ?_⟩
  · rcases hbusy with hsame | ⟨rfl, -, p, r, o, hcmd⟩ | ⟨hs', -⟩
    · simp_all
    · refine ⟨p, r, o, hcmd, ?_⟩
      rcases hnext with hnext | ⟨hnext, -⟩
      · exact .inr ⟨rest, hnext⟩
      · exact .inl hnext
    · simp_all
  · rcases hbusy with hsame | ⟨-, hs', -⟩ | ⟨-, he⟩
    · simp_all
    · simp_all
    · rcases hnext with hnext | ⟨-, rfl⟩
      · rcases he with rfl | rfl
        · exact ⟨rest, .inl hnext⟩
        · exact ⟨rest, .inr hnext⟩
      · simp at he

end Sys2Proof.Machine
end

section
/-! The starts and refusals of the operations that use MDIO (R142, R143, R144, R149, R312). -/

namespace Sys2Proof.Machine

/-! ### Starts and refusals -/

theorem unlessBusy_of_busy {s : State} (h : s.busy = true) (k : Result) : unlessBusy s k = .refused .commandWhileBusy :=
  if_pos h

theorem unlessBusy_of_not_busy {s : State} (h : s.busy = false) (k : Result) : unlessBusy s k = k := by
  simp [unlessBusy, h]

theorem phyAddrOk_iff {v : Word} : phyAddrOk v = true ↔ v.toNat ≤ 62 := decide_eq_true_iff
theorem regAddrOk_iff {v : Word} : regAddrOk v = true ↔ v.toNat ≤ 31 := decide_eq_true_iff
theorem dataOk_iff {v : Word} : dataOk v = true ↔ v.toNat ≤ 0xFFFF := decide_eq_true_iff

section
variable {s : State} (hq : s.seq = .idle)
include hq

theorem exec_mdioRead_start (hp : (s.reg .arg0).toNat ≤ 62) (hr : (s.reg .arg1).toNat ≤ 31) :
    exec .mdioRead s = unlessBusy s
      (.next (s.goto (.mdioRead (readStart (field (s.reg .arg0) 0 6) (field (s.reg .arg1) 0 5))))) := by
  rw [exec, execMdioRead, hq]
  simp only [phyAddrOk_iff.2 hp, regAddrOk_iff.2 hr, Bool.and_true, if_true]

theorem exec_mdioRead_range (h : 62 < (s.reg .arg0).toNat ∨ 31 < (s.reg .arg1).toNat) :
    exec .mdioRead s = .refused .operandRange := by
  have hrange : ¬ (phyAddrOk (s.reg .arg0) && regAddrOk (s.reg .arg1)) = true := by
    rw [Bool.and_eq_true, phyAddrOk_iff, regAddrOk_iff]
    omega
  rw [exec, execMdioRead, hq]
  exact if_neg hrange

theorem exec_mdioWrite_start (hp : (s.reg .arg0).toNat ≤ 62) (hr : (s.reg .arg1).toNat ≤ 31)
    (hv : (s.reg .arg2).toNat ≤ 0xFFFF) : exec .mdioWrite s = unlessBusy s (.next (s.goto (.mdioWrite
      (writeStart (field (s.reg .arg0) 0 6) (field (s.reg .arg1) 0 5) (field (s.reg .arg2) 0 16))))) := by
  rw [exec, execMdioWrite, hq]
  simp only [phyAddrOk_iff.2 hp, regAddrOk_iff.2 hr, dataOk_iff.2 hv, Bool.and_true, if_true]

theorem exec_mdioWrite_range
    (h : (62 < (s.reg .arg0).toNat ∨ 31 < (s.reg .arg1).toNat) ∨ 0xFFFF < (s.reg .arg2).toNat) :
    exec .mdioWrite s = .refused .operandRange := by
  have hrange : ¬ (phyAddrOk (s.reg .arg0) && regAddrOk (s.reg .arg1) && dataOk (s.reg .arg2)) = true := by
    rw [Bool.and_eq_true, Bool.and_eq_true, phyAddrOk_iff, regAddrOk_iff, dataOk_iff]
    omega
  rw [exec, execMdioWrite, hq]
  exact if_neg hrange

theorem exec_phyDetect_start :
    exec .phyDetect s = unlessBusy s (.next (s.goto (.phyDetect 0#6 (readStart 0#6 s.params.idIdx)))) := by
  simp only [exec, execPhyDetect, hq]

theorem exec_phyReset_start (hv : s.phyValid = true) :
    exec .phyReset s = unlessBusy s (.next (s.goto .phyResetAddr)) := by
  simp only [exec, execPhyReset, hq, hv, if_true]

theorem exec_phyLinkstatus_start (hv : s.phyValid = true) :
    exec .phyLinkstatus s = unlessBusy s (.next (s.goto .phyLinkAddr)) := by
  simp only [exec, execPhyLinkstatus, hq, hv, if_true]

end

/-- Settles O18: the two starts by their operands' ranges. -/
theorem mdioOperandRanges : Obligations.MdioOperandRanges := by
  unfold Obligations.MdioOperandRanges
  intro s hq bad badValue
  refine ⟨exec_mdioRead_range hq, fun hok hb => ?_, exec_mdioWrite_range hq, fun hok hv hb => ?_⟩
  · rw [not_or, Nat.not_lt, Nat.not_lt] at hok
    obtain ⟨hp, hr⟩ := hok
    exact ⟨_, (exec_mdioRead_start hq hp hr).trans (unlessBusy_of_not_busy hb _), rfl⟩
  · rw [not_or, Nat.not_lt, Nat.not_lt] at hok
    obtain ⟨hp, hr⟩ := hok
    exact ⟨_, (exec_mdioWrite_start hq hp hr (Nat.not_lt.1 hv)).trans (unlessBusy_of_not_busy hb _), rfl⟩

/-- Settles O19: inside an operation the write's own test refuses, and every start asks `unlessBusy`. -/
theorem commandWhileBusyIsRefused : Obligations.CommandWhileBusyIsRefused := by
  unfold Obligations.CommandWhileBusyIsRefused
  intro s hb
  have hrefused := unlessBusy_of_busy hb
  refine ⟨fun m p hm htarget hp => ?_, fun hq => ⟨fun hp hr => ?_, fun hp hr hv => ?_, ?_, fun hvalid => ⟨?_, ?_⟩⟩⟩
  · obtain ⟨at_, done, failed, hat, hrun⟩ := runsTransaction_of_transactionOf hm
    exact hrun.turn_refused hat (mdioStep_of_busy htarget hp hb)
  · exact (exec_mdioRead_start hq hp hr).trans (hrefused _)
  · exact (exec_mdioWrite_start hq hp hr hv).trans (hrefused _)
  · exact (exec_phyDetect_start hq).trans (hrefused _)
  · exact (exec_phyReset_start hq hvalid).trans (hrefused _)
  · exact (exec_phyLinkstatus_start hq hvalid).trans (hrefused _)

end Sys2Proof.Machine
end

section
/-! The transactions run to their end (R142, R143, R146, R151, R154, R155, R158). -/

namespace Sys2Proof.Machine

/-! ### From the command write to BUS's completion -/

/-- The command word is written, SEQ stands at `q`, and `l` are the hook's listed answers. -/
def State.commanded (s : State) (q : Seq) (c : Word) (l : List Config.HookAnswer) : State :=
  ((s.setReg .mdioCmd c).goto q).hooked l s.draws

/-- The hook's listed answers after polls that used up those before `rest`. -/
def State.answersLeft (s : State) (rest : List Config.HookAnswer) : List Config.HookAnswer :=
  if s.hookEn then rest else s.hookAnswers

theorem inFlight_cmdw {s : State} {p : PhyAddr} {r : RegAddr} {o : BitVec 2} (hwf : s.params.wellFormed = true)
    (h : s.reg .mdioCmd = cmdw s.params p r o) : s.inFlight p r o = true := by
  have hlay := cmdLayout_of_wellFormed hwf
  rw [inFlight_iff, State.busy, h]
  exact ⟨cmdBusy_cmdw hlay p r o, cmdPhyad_cmdw hlay p r o, cmdRegad_cmdw hlay p r o, cmdOp_cmdw hlay p r o⟩

section
variable {at_ : MdioPos → Seq} {done : Data16 → State → Result} {failed : Word → State → Result} {p : PhyAddr}
  {r : RegAddr} {o : BitVec 2} {k : Nat} {rest : List Config.HookAnswer} {s : State}

/-- The command write and `k` polls that see BUSY = 1. -/
theorem RunsTransaction.play_command (hrun : RunsTransaction at_ done failed) (hwf : s.params.wellFormed = true)
    (hp : AddressOk p) (hq : s.seq = at_ (.writeCmd p r o)) (hb : s.busy = false) (hhook : HookAllows s k rest) :
    play ([Event.seq] ++ List.replicate (pollSteps s k) Event.seq) s =
      .next (s.commanded (at_ (.poll o)) (cmdw s.params p r o) (s.answersLeft rest)) := by
  have hwrite := hrun.turn_more hq (mdioStep_writeCmd (mdioRefusal_eq_none.2 ⟨hp, hb⟩) r o)
  have hpolls := hrun.playSeq_pollSteps (s := (s.setReg .mdioCmd (cmdw s.params p r o)).goto (at_ (.poll o))) rfl
    (by simpa [State.busy] using cmdBusy_cmdw (cmdLayout_of_wellFormed hwf) p r o) hhook
  exact (play_seq hwrite).trans hpolls

end

/-! ### A read (R142, R151, R154) -/

/-- A read of a PHY register changes only the count of free values. -/
theorem State.phyRead_snd (s : State) (p : PhyAddr) (r : RegAddr) :
    (s.phyRead p r).2 = s.hooked s.hookAnswers (s.phyRead p r).2.draws := by
  rcases State.phyRead_state s p r with hs | hs <;> rw [hs] <;> rfl

/-- What it answers, and how many free values it draws, comes from the PHYs and the count alone. -/
theorem State.phyRead_congr {s t : State} (hpresent : t.present = s.present) (hregs : t.phyRegs = s.phyRegs)
    (hdraws : t.draws = s.draws) (p : PhyAddr) (r : RegAddr) :
    (t.phyRead p r).1 = (s.phyRead p r).1 ∧ (t.phyRead p r).2.draws = (s.phyRead p r).2.draws := by
  unfold State.phyRead State.isPresent
  rw [hpresent, hregs, hdraws]
  split
  · cases Assoc.lookup (phyKey p r) s.phyRegs <;> exact ⟨rfl, hdraws ▸ rfl⟩
  · exact ⟨rfl, hdraws⟩

/-- What a read of register `r` of PHY `p` that BUS completed has changed from `s` to `t`, where the operation takes the
answer: MDIO_CMD, MDIO_DATA, the hook's listed answers, now `l`, and the count of free values. -/
structure ReadDone (p : PhyAddr) (r : RegAddr) (l : List Config.HookAnswer) (s t : State) : Prop where
  cmd : t.reg .mdioCmd = cmdClearBusy s.params (cmdw s.params p r Config.opRead)
  data : t.reg .mdioData = ((s.phyRead p r).1).setWidth 32
  regs : KeepsRegsBut [.mdioCmd, .mdioData] s t
  mem : t.mem = s.mem
  around : KeepsAround s t
  hooks : t.hookAnswers = l
  draws : t.draws = (s.phyRead p r).2.draws

@[simp] theorem State.phyRead_goto (s : State) (q : Seq) (p : PhyAddr) (r : RegAddr) :
    ((s.goto q).phyRead p r).1 = (s.phyRead p r).1 := (State.phyRead_congr (s := s) (t := s.goto q) rfl rfl rfl p r).1

theorem ReadDone.of_goto {p : PhyAddr} {r : RegAddr} {l : List Config.HookAnswer} {s t : State} {q : Seq}
    (h : ReadDone p r l (s.goto q) t) : ReadDone p r l s t :=
  { cmd := h.cmd, data := h.data.trans (by rw [State.phyRead_goto]), regs := h.regs, mem := h.mem, around := h.around,
    hooks := h.hooks
    draws := h.draws.trans (State.phyRead_congr (s := s) (t := s.goto q) rfl rfl rfl p r).2 }

theorem field_setWidth {w : Nat} (hw : w ≤ 32) (f : BitVec w) : field (f.setWidth 32 : Word) 0 w = f := by
  simpa [place] using field_place_same f (lo := 0) (by omega)

section
variable {at_ : MdioPos → Seq} {done : Data16 → State → Result} {failed : Word → State → Result} {p : PhyAddr}
  {r : RegAddr} {k : Nat} {rest : List Config.HookAnswer} {s : State}

/-- BUS's completion of the read in flight. -/
theorem busTurn_commanded_read (hwf : s.params.wellFormed = true) (hp : AddressOk p) (q : Seq)
    (l : List Config.HookAnswer) :
    ∃ t, busTurn (s.commanded q (cmdw s.params p r Config.opRead) l) = .next t ∧ ReadDone p r l s t ∧ t.seq = q := by
  set u := s.commanded q (cmdw s.params p r Config.opRead) l with hu
  have hdecode : decodeCmdw u.params (u.reg .mdioCmd) = .ok (.cmdwRead p r) := by
    simpa [hu, State.commanded] using decodeCmdw_cmdw (cmdLayout_of_wellFormed hwf) hp r (.inl ⟨rfl, rfl⟩)
  have hexec := exec_cmdwRead (s := u) (p := p) (r := r) (inFlight_cmdw hwf (by simp [hu, State.commanded])) hp
  obtain ⟨hanswer, hdraws⟩ := State.phyRead_congr (s := s) (t := u) rfl rfl rfl p r
  rw [State.phyRead_snd, hanswer, hdraws] at hexec
  refine ⟨_, (busTurn_of_decodeCmdw hdecode).trans hexec, ?_, rfl⟩
  exact
    { cmd := by simp [hu, State.commanded]
      data := by simp
      regs := fun x hx => by simp_all [State.commanded]
      mem := rfl
      around := ⟨⟨rfl, rfl, rfl, rfl⟩, rfl, rfl⟩
      hooks := rfl
      draws := rfl }

theorem busy_of_clearBusy {s t : State} (hwf : s.params.wellFormed = true) (hparams : t.params = s.params) {c : Word}
    (h : t.reg .mdioCmd = cmdClearBusy s.params c) : t.busy = false := by
  rw [State.busy, hparams, h]
  exact cmdBusy_cmdClearBusy (cmdLayout_of_wellFormed hwf) c

/-- A read whose transaction BUS completes after `k` polls that saw BUSY = 1: the operation takes the PHY's answer. -/
theorem RunsTransaction.play_read (hrun : RunsTransaction at_ done failed) (hwf : s.params.wellFormed = true)
    (hp : AddressOk p) (hq : s.seq = at_ (readStart p r)) (hb : s.busy = false) (hhook : HookAllows s k rest) :
    ∃ t, ReadDone p r (s.answersLeft rest) s t ∧
      play ([Event.seq] ++ List.replicate (pollSteps s k) Event.seq ++ [Event.bus, Event.seq, Event.seq]) s =
        done ((s.phyRead p r).1) t := by
  obtain ⟨u, hbus, hdone, hseq⟩ :=
    busTurn_commanded_read (r := r) hwf hp (at_ (.poll Config.opRead)) (s.answersLeft rest)
  obtain ⟨⟨-, -, hparams, -⟩, -⟩ := hdone.around
  have hpoll := hrun.turn_more hseq (mdioStep_poll_read (busy_of_clearBusy hwf hparams hdone.cmd))
  have hdata : u.data = (s.phyRead p r).1 := by rw [State.data, hdone.data, field_setWidth (by decide)]
  have hread : seqTurn (u.goto (at_ .readData)) = done u.data (u.goto (at_ .readData)) :=
    hrun.turn_done (m := .readData) rfl rfl
  refine ⟨u.goto (at_ .readData), ⟨hdone.cmd, hdone.data, hdone.regs, hdone.mem, keepsAround_goto.2 hdone.around,
    hdone.hooks, hdone.draws⟩, ?_⟩
  rw [play_append (hrun.play_command hwf hp hq hb hhook), play_bus hbus, play_seq hpoll, play_seq_singleton, ← hdata]
  exact hread

end

/-! ### A write (R143, R155) -/

/-- What a write of `v` to register `r` of PHY `p` that BUS completed has changed from `s` to `t`, where SEQ goes on in
the operation: MDIO_CMD, MDIO_DATA, a present PHY's register, and the hook's listed answers, now `l`. -/
structure WriteDone (p : PhyAddr) (r : RegAddr) (v : Data16) (l : List Config.HookAnswer) (s t : State) : Prop where
  cmd : t.reg .mdioCmd = cmdClearBusy s.params (cmdw s.params p r Config.opWrite)
  data : t.reg .mdioData = v.setWidth 32
  regs : KeepsRegsBut [.mdioCmd, .mdioData] s t
  mem : t.mem = s.mem
  phyRegs : t.phyRegs = if s.isPresent p then Assoc.insert (phyKey p r) v s.phyRegs else s.phyRegs
  around : KeepsAround { s with phyRegs := t.phyRegs } t
  hooks : t.hookAnswers = l
  draws : t.draws = s.draws

theorem WriteDone.of_goto {p : PhyAddr} {r : RegAddr} {v : Data16} {l : List Config.HookAnswer} {s t : State} {q : Seq}
    (h : WriteDone p r v l (s.goto q) t) : WriteDone p r v l s t :=
  { cmd := h.cmd, data := h.data, regs := h.regs, mem := h.mem, phyRegs := h.phyRegs, around := h.around,
    hooks := h.hooks, draws := h.draws }

theorem State.hookAnswers_phyWrite (s : State) (p : PhyAddr) (r : RegAddr) (v : Data16) :
    (s.phyWrite p r v).hookAnswers = s.hookAnswers := by
  rcases State.phyWrite_state s p r v with hs | ⟨-, hs⟩ <;> rw [hs]

theorem State.draws_phyWrite (s : State) (p : PhyAddr) (r : RegAddr) (v : Data16) :
    (s.phyWrite p r v).draws = s.draws := by
  rcases State.phyWrite_state s p r v with hs | ⟨-, hs⟩ <;> rw [hs]

section
variable {at_ : MdioPos → Seq} {done : Data16 → State → Result} {failed : Word → State → Result} {p : PhyAddr}
  {r : RegAddr} {v : Data16} {k : Nat} {rest : List Config.HookAnswer} {s : State}

/-- BUS's completion of the write in flight. -/
theorem busTurn_commanded_write (hwf : s.params.wellFormed = true) (hp : AddressOk p) (q : Seq)
    (l : List Config.HookAnswer) :
    ∃ t, busTurn ((s.setReg .mdioData (v.setWidth 32)).commanded q (cmdw s.params p r Config.opWrite) l) = .next t ∧
      WriteDone p r v l s t ∧ t.seq = q := by
  set u := (s.setReg .mdioData (v.setWidth 32)).commanded q (cmdw s.params p r Config.opWrite) l with hu
  have hdecode : decodeCmdw u.params (u.reg .mdioCmd) = .ok (.cmdwWrite p r) := by
    simpa [hu, State.commanded] using decodeCmdw_cmdw (cmdLayout_of_wellFormed hwf) hp r (.inr ⟨rfl, rfl⟩)
  have hexec := exec_cmdwWrite (s := u) (p := p) (r := r) (inFlight_cmdw hwf (by simp [hu, State.commanded])) hp
  have hdata : u.data = v := by simpa [hu, State.data, State.commanded] using field_setWidth (by decide) v
  obtain ⟨haround, hseq⟩ := execCmdwWrite_phyRegs hexec
  rw [hdata] at hexec haround hseq
  refine ⟨_, (busTurn_of_decodeCmdw hdecode).trans hexec, ?_, hseq⟩
  exact
    { cmd := by simp [hu, State.commanded]
      data := by simp [hu, State.commanded]
      regs := fun x hx => by simp_all [State.commanded]
      mem := by simp [hu, State.commanded]
      phyRegs := State.phyRegs_phyWrite u p r v
      around := haround
      hooks := State.hookAnswers_phyWrite u p r v
      draws := State.draws_phyWrite u p r v }

/-- A write whose transaction BUS completes after `k` polls that saw BUSY = 1: the operation goes on. -/
theorem RunsTransaction.play_write (hrun : RunsTransaction at_ done failed) (hwf : s.params.wellFormed = true)
    (hp : AddressOk p) (hq : s.seq = at_ (writeStart p r v)) (hb : s.busy = false) (hhook : HookAllows s k rest) :
    ∃ t, WriteDone p r v (s.answersLeft rest) s t ∧
      play ([Event.seq, Event.seq] ++ List.replicate (pollSteps s k) Event.seq ++ [Event.bus, Event.seq]) s =
        done 0#16 t := by
  obtain ⟨u, hbus, hdone, hseq⟩ :=
    busTurn_commanded_write (r := r) (v := v) hwf hp (at_ (.poll Config.opWrite)) (s.answersLeft rest)
  obtain ⟨⟨-, -, hparams, -⟩, -⟩ := hdone.around
  have hdata := hrun.turn_more hq (mdioStep_writeData (mdioRefusal_eq_none.2 ⟨hp, hb⟩) r v)
  have hcommand := hrun.play_command
    (s := (s.setReg .mdioData (v.setWidth 32)).goto (at_ (.writeCmd p r Config.opWrite))) hwf hp rfl hb hhook
  have hpoll := hrun.turn_done hseq (mdioStep_poll_write (busy_of_clearBusy hwf hparams hdone.cmd))
  refine ⟨u, hdone, ?_⟩
  have hplay := (play_append (es' := [.bus, .seq]) hcommand).trans
    ((play_bus hbus).trans ((play_seq_singleton u).trans hpoll))
  exact (play_seq hdata).trans hplay

end

/-! ### MDIO.READ and MDIO.WRITE -/

/-- A run up to an operation's `return`, and the return (R269). -/
theorem play_return {i : Instr} (hi : i.format = .opw) {x y : Option Word} {es : List Event} {s t : State}
    (h : play es s = toReturn i x y t) : play (es ++ [.seq]) s = .next (t.endOperation 0#32 x y none) := by
  rw [play_append h, play_seq_singleton, seqTurn_ending hi rfl]
  rfl

theorem keepsRegsBut_trans {rs rs' : List Reg} {s t u : State} (h : KeepsRegsBut rs s t) (h' : KeepsRegsBut rs' t u) :
    KeepsRegsBut (rs ++ rs') s u := fun x hx => by
  rw [List.mem_append, not_or] at hx
  exact (h' x hx.2).trans (h x hx.1)

/-- Operands that are an address 0..62 and a register (R112, R113). -/
theorem operands_in_range {s : State} {p : PhyAddr} {r : RegAddr} (h0 : s.reg .arg0 = p.setWidth 32)
    (h1 : s.reg .arg1 = r.setWidth 32) (hp : AddressOk p) :
    (s.reg .arg0).toNat ≤ 62 ∧ (s.reg .arg1).toNat ≤ 31 ∧ field (s.reg .arg0) 0 6 = p ∧
      field (s.reg .arg1) 0 5 = r := by
  rw [h0, h1, BitVec.toNat_setWidth_of_le (by decide), BitVec.toNat_setWidth_of_le (by decide)]
  exact ⟨hp, Nat.le_of_lt_succ r.isLt, field_setWidth (by decide) p, field_setWidth (by decide) r⟩

/-- The return writes nothing beyond the registers of an operation's end. -/
theorem keepsRegsBut_return (s : State) (x y : Option Word) : KeepsRegsBut endRegs s (s.endOperation 0#32 x y none) :=
  keepsRegsBut_endOperation (fun _ => id) s _ _ _ _

@[simp] theorem pollSteps_zero (s : State) : pollSteps s 0 = 0 := ite_self 0

@[simp] theorem pollSteps_goto (s : State) (q : Seq) (k : Nat) : pollSteps (s.goto q) k = pollSteps s k := rfl

/-- Settles O15: the start, the transaction, and the return of the answer. -/
theorem mdioReadReturnsTheAnswer : Obligations.MdioReadReturnsTheAnswer := by
  unfold Obligations.MdioReadReturnsTheAnswer
  intro s p r k rest hwf hq hb h0 h1 hp hhook
  obtain ⟨hr0, hr1, hf0, hf1⟩ := operands_in_range h0 h1 hp
  have hstart := (exec_mdioRead_start hq hr0 hr1).trans (unlessBusy_of_not_busy hb _)
  rw [hf0, hf1] at hstart
  obtain ⟨t, ht, hplay⟩ :=
    runsTransaction_mdioRead.play_read (s := s.goto (.mdioRead (readStart p r))) hwf hp rfl hb hhook
  rw [State.phyRead_goto, pollSteps_goto] at hplay
  have hrun := play_return rfl hplay
  rw [List.append_assoc] at hrun
  have hdone := ht.of_goto
  have hend := keepsRegsBut_return t (some (((s.phyRead p r).1).setWidth 32)) none
  obtain ⟨houtside, hgrants⟩ := keepsAround_endOperation.2 hdone.around
  refine ⟨_, _, hstart, nofun, hrun, rfl, ?_, ?_, (hend .mdioData (by decide)).trans hdone.data,
    (hend .mdioCmd (by decide)).trans hdone.cmd, keepsRegsBut_trans hdone.regs hend, fun a => ?_, houtside, hgrants⟩
  · simp [EndsWith]
  · simp
  · rw [State.mem_endOperation, hdone.mem]

/-- Settles O16: the start, the transaction, and the return. -/
theorem mdioWriteReachesThePhy : Obligations.MdioWriteReachesThePhy := by
  unfold Obligations.MdioWriteReachesThePhy
  intro s p r v k rest hwf hq hb h0 h1 h2 hp hhook
  obtain ⟨hr0, hr1, hf0, hf1⟩ := operands_in_range h0 h1 hp
  have hr2 : (s.reg .arg2).toNat ≤ 0xFFFF := by
    rw [h2, BitVec.toNat_setWidth_of_le (by decide)]
    exact Nat.le_of_lt_succ v.isLt
  have hstart := (exec_mdioWrite_start hq hr0 hr1 hr2).trans (unlessBusy_of_not_busy hb _)
  rw [hf0, hf1, h2, field_setWidth (by decide)] at hstart
  obtain ⟨t, ht, hplay⟩ :=
    runsTransaction_mdioWrite.play_write (s := s.goto (.mdioWrite (writeStart p r v))) hwf hp rfl hb hhook
  rw [pollSteps_goto] at hplay
  have hrun := play_return rfl hplay
  rw [List.append_assoc] at hrun
  have hdone := ht.of_goto
  have hend := keepsRegsBut_return t none none
  obtain ⟨⟨hpresent, -, hparams, -⟩, htx, hrx⟩ := keepsAround_endOperation.2 hdone.around
  refine ⟨_, _, hstart, nofun, hrun, rfl, ?_, (hend .mdioData (by decide)).trans hdone.data,
    (hend .mdioCmd (by decide)).trans hdone.cmd, (State.phyRegs_endOperation ..).trans hdone.phyRegs,
    keepsRegsBut_trans hdone.regs hend, fun a => ?_, hpresent, hparams, htx, hrx⟩
  · simp [EndsWith]
  · rw [State.mem_endOperation, hdone.mem]

/-! ### A write and then a read (R158) -/

/-- HOST's write of OPW while SEQ is IDLE starts the operation, which then runs to its end. -/
theorem play_hostWrite_of_completes {i : Instr} {es : List Event} {s : State} {Q : State → Prop} {w : Word}
    (hq : s.seq = .idle) (hi : decodeOpw w = .ok i) (h : Completes i es (s.setReg .opw w) Q) :
    ∃ t, play (.hostWrite 8 w :: es) s = .next t ∧ t.seq = .idle ∧ Q t := by
  obtain ⟨u, t, hstart, -, hplay, hidle, hQ⟩ := h
  have hhost : hostWrite 8 w s = .next u := (hostStart_of_idle hq ((decode_wordBytes _ _ _).trans hi)).trans hstart
  exact ⟨t, (play_cons (e := .hostWrite 8 w) hhost).trans hplay, hidle, hQ⟩

@[simp] theorem State.isPresent_setReg (s : State) (x : Reg) (w : Word) (p : PhyAddr) :
    (s.setReg x w).isPresent p = s.isPresent p := rfl

/-- A pinned register of a present PHY answers its value. -/
theorem State.phyRead_of_pinned {s : State} {p : PhyAddr} {r : RegAddr} {v : Data16} (hp : s.isPresent p = true)
    (h : Assoc.lookup (phyKey p r) s.phyRegs = some v) : s.phyRead p r = (v, s) := by
  simp only [State.phyRead, hp, h, if_true]

/-- Settles O17: the write (O16) leaves BUSY = 0, the operands as they were and the value at the PHY, where the read
(O15) finds it. -/
theorem writeThenReadRoundTrip : Obligations.WriteThenReadRoundTrip := by
  unfold Obligations.WriteThenReadRoundTrip
  intro s p r v hwf hq hb h0 h1 h2 hp hpresent
  have hwrite := mdioWriteReachesThePhy (s.setReg .opw 2#32) p r v 0 s.hookAnswers hwf hq hb h0 h1 h2 hp fun _ => rfl
  rw [pollSteps_zero] at hwrite
  obtain ⟨t, hplay, hidle, -, -, hcmd, hphy, hregs, -, hpresent', hparams, -⟩ :=
    play_hostWrite_of_completes hq rfl hwrite
  have harg {x : Reg} (hx : x ∈ ([.arg0, .arg1] : List Reg)) : t.reg x = s.reg x := by
    rw [hregs x (by revert x; decide), State.reg_setReg, if_neg (by revert x; decide)]
  have ht : (t.setReg .opw 1#32).isPresent p = true := by
    rw [← hpresent, State.isPresent_setReg, State.isPresent, hpresent']
    rfl
  have hlookup : Assoc.lookup (phyKey p r) t.phyRegs = some v := by
    rw [hphy, State.isPresent_setReg, if_pos hpresent, Assoc.lookup_insert, if_pos rfl]
  have hread := mdioReadReturnsTheAnswer (t.setReg .opw 1#32) p r 0 t.hookAnswers (hparams ▸ hwf) hidle
    (busy_of_clearBusy hwf hparams hcmd) ((harg (by decide)).trans h0) ((harg (by decide)).trans h1) hp fun _ => rfl
  rw [State.phyRead_of_pinned ht hlookup, pollSteps_zero] at hread
  obtain ⟨u, hplay', hidle', hend, hres, -⟩ := play_hostWrite_of_completes hidle rfl hread
  exact ⟨u, (play_append hplay).trans hplay', hidle', hend, hres⟩

end Sys2Proof.Machine
end

section
/-! The refusals of operations on what is not set up (R172, R204, R214, R231), and PHY.SETADDR (R173). -/

namespace Sys2Proof.Machine

section
variable {s : State} (hq : s.seq = .idle)
include hq

/-! ### Refusals of what is not set up -/

theorem exec_phyReset_of_no_address (h : s.phyValid = false) : exec .phyReset s = .refused .noPhyAddress := by
  simp [exec, execPhyReset, hq, h]

theorem exec_phyLinkstatus_of_no_address (h : s.phyValid = false) :
    exec .phyLinkstatus s = .refused .noPhyAddress := by
  simp [exec, execPhyLinkstatus, hq, h]

theorem exec_txPut_of_no_ring (h : s.txValid = false) : exec .txPut s = .refused .ringNotSet := by
  simp [exec, execTxPut, hq, h]

theorem exec_txUpdate_of_no_ring (h : s.txValid = false) : exec .txUpdate s = .refused .ringNotSet := by
  simp [exec, execTxUpdate, hq, h]

theorem exec_txPut_of_length (h : s.txValid = true) (hlen : 16383 < (s.reg .arg1).toNat) :
    exec .txPut s = .refused .lengthRange := by
  have hbad : lenOk (s.reg .arg1) = false := decide_eq_false (Nat.not_le.2 hlen)
  simp [exec, execTxPut, hq, h, hbad]

theorem exec_rxPoll_of_no_slot (h : s.rxValid = false) : exec .rxPoll s = .refused .slotNotArmed := by
  simp [exec, execRxPoll, hq, h]

theorem exec_rxRearm_of_no_slot (h : s.rxValid = false) : exec .rxRearm s = .refused .slotNotArmed := by
  simp [exec, execRxRearm, hq, h]

theorem exec_rxArm_of_slot (h : s.rxValid = true) : exec .rxArm s = .refused .alreadyArmed := by
  simp [exec, execRxArm, hq, h]

/-! ### PHY.SETADDR (R173) -/

theorem exec_phySetaddr_start (h : (s.reg .arg0).toNat ≤ 62) :
    exec .phySetaddr s = .next (s.goto (.phySetaddr (field (s.reg .arg0) 0 6))) := by
  simp [exec, execPhySetaddr, hq, phyAddrOk_iff.2 h]

theorem exec_phySetaddr_range (h : 62 < (s.reg .arg0).toNat) : exec .phySetaddr s = .refused .operandRange := by
  have hbad : phyAddrOk (s.reg .arg0) = false := decide_eq_false (Nat.not_le.2 h)
  simp [exec, execPhySetaddr, hq, hbad]

end

/-- Settles O12: each start tests what it needs before anything else. -/
theorem setUpRefusals : Obligations.SetUpRefusals := by
  unfold Obligations.SetUpRefusals
  intro s hq
  exact ⟨fun h => ⟨exec_phyReset_of_no_address hq h, exec_phyLinkstatus_of_no_address hq h⟩,
    fun h => ⟨exec_txPut_of_no_ring hq h, exec_txUpdate_of_no_ring hq h⟩, exec_txPut_of_length hq,
    fun h => ⟨exec_rxPoll_of_no_slot hq h, exec_rxRearm_of_no_slot hq h⟩, exec_rxArm_of_slot hq⟩

theorem seqTurn_phySetaddr {s : State} {a : PhyAddr} (hq : s.seq = .phySetaddr a) :
    seqTurn s = toReturn .phySetaddr none none (s.setReg .phyaddr (phyaddrWord a)) := by
  rw [seqTurn_of_operation (i := .phySetaddr) (by rw [hq]; rfl)]
  simp only [exec, execPhySetaddr, hq]

/-- A word below 2^w is its own low `w` bits. -/
theorem setWidth_field_of_lt {w : Nat} {v : Word} (h : v.toNat < 2 ^ w) : (field v 0 w).setWidth 32 = v := by
  apply BitVec.eq_of_toNat_eq
  rw [field, BitVec.toNat_setWidth, BitVec.toNat_setWidth, BitVec.ushiftRight_zero, Nat.mod_eq_of_lt h,
    Nat.mod_eq_of_lt v.isLt]

/-- Settles O27: the start, the write of PHYADDR, and the return. -/
theorem setaddrStoresTheAddress : Obligations.SetaddrStoresTheAddress := by
  unfold Obligations.SetaddrStoresTheAddress
  intro s hq
  refine ⟨exec_phySetaddr_range hq, fun h => ?_⟩
  set a : PhyAddr := field (s.reg .arg0) 0 6 with ha
  set t := (s.goto (.phySetaddr a)).setReg .phyaddr (phyaddrWord a) with ht
  have hrun : play [.seq, .seq] (s.goto (.phySetaddr a)) = .next (t.endOperation 0#32 none none none) :=
    play_return (es := [.seq]) rfl ((play_seq_singleton _).trans (seqTurn_phySetaddr rfl))
  have hregs : KeepsRegsBut [.phyaddr] s t := keepsRegsBut_setReg (by decide) (keepsRegsBut_refl _ s)
  have hend := keepsRegsBut_return t none none
  obtain ⟨houtside, hgrants⟩ := keepsAround_endOperation.2 (keepsAround_setReg.2 (keepsAround_refl s))
  refine ⟨_, _, exec_phySetaddr_start hq h, nofun, hrun, rfl, ?_, ?_, keepsRegsBut_trans hregs hend, fun b => ?_,
    houtside, hgrants⟩
  · simp [EndsWith]
  · rw [hend .phyaddr (by decide), ht, State.reg_setReg, if_pos rfl, phyaddrWord, ha, setWidth_field_of_lt (by omega)]
  · rw [State.mem_endOperation, ht, State.mem_setReg, State.mem_goto]

end Sys2Proof.Machine
end

section
/-! What an operation does with a hook failure: raised (R150, R181, R182, R190, R261) or swallowed (R178, R182). -/

namespace Sys2Proof.Machine

theorem State.callHook_fail {s : State} {e : Word} {rest : List Config.HookAnswer}
    (h : s.hookAnswers = .fail e :: rest) : s.callHook = (.fail e, s.hooked rest s.draws) := by
  simp only [State.callHook, h]
  rfl

theorem mdioStep_hook_fail {s : State} {e : Word} {rest : List Config.HookAnswer}
    (h : s.hookAnswers = .fail e :: rest) (o : BitVec 2) :
    mdioStep (.hook o) s = .failed e (s.hooked rest s.draws) := by
  simp only [mdioStep, State.callHook_fail h]

theorem RunsTransaction.turn_hook_fail {at_ : MdioPos → Seq} {done : Data16 → State → Result}
    {failed : Word → State → Result} {s : State} {o : BitVec 2} (hrun : RunsTransaction at_ done failed)
    (hq : s.seq = at_ (.hook o)) {e : Word} {rest : List Config.HookAnswer} (h : s.hookAnswers = .fail e :: rest) :
    seqTurn s = failed e (s.hooked rest s.draws) := by
  rw [hrun _ s hq, inTransaction, mdioStep_hook_fail h]

theorem seqTurn_phyResetHook_fail {s : State} {p : PhyAddr} (hq : s.seq = .phyResetHook p) {e : Word}
    {rest : List Config.HookAnswer} (h : s.hookAnswers = .fail e :: rest) :
    seqTurn s = toRaise .phyReset (.hookFail e) (s.hooked rest s.draws) := by
  rw [seqTurn_of_operation (i := .phyReset) (by rw [hq]; rfl)]
  simp only [exec, execPhyReset, hq, State.callHook_fail h]

/-! ### Raised -/

/-- A run up to an operation's `raise`, and the raise (R267). -/
theorem play_raise {i : Instr} (hi : i.format = .opw) {k : Raise} {es : List Event} {s t : State}
    (h : play es s = toRaise i k t) : play (es ++ [.seq]) s = .next (t.endOperation k.code none none k.info) := by
  rw [play_append h, play_seq_singleton, seqTurn_ending hi rfl]
  rfl

/-- Where SEQ's turn raises HOOK_FAIL, its next one ends the operation with it. -/
theorem playSeq_hookFail {i : Instr} (hi : i.format = .opw) {s t : State} {e : Word}
    (h : seqTurn s = toRaise i (.hookFail e) t) : playSeq 2 s = .next (t.endOperation 1#32 none none (some e)) :=
  play_raise hi ((play_seq_singleton s).trans h)

/-- At each of the six positions the failure is raised. -/
theorem seqTurn_raises_hookFail {s : State} {p : PhyAddr} {o : BitVec 2} {e : Word} {rest : List Config.HookAnswer}
    (hq : s.seq ∈ ([.mdioRead (.hook o), .mdioWrite (.hook o), .phyLinkFirst p (.hook o), .phyLinkSecond p (.hook o),
      .phyResetWrite p (.hook o), .phyResetHook p] : List Seq)) (h : s.hookAnswers = .fail e :: rest) :
    ∃ i : Instr, i.format = .opw ∧ seqTurn s = toRaise i (.hookFail e) (s.hooked rest s.draws) := by
  simp only [List.mem_cons, List.not_mem_nil, or_false] at hq
  rcases hq with hq | hq | hq | hq | hq | hq
  · exact ⟨_, rfl, runsTransaction_mdioRead.turn_hook_fail hq h⟩
  · exact ⟨_, rfl, runsTransaction_mdioWrite.turn_hook_fail hq h⟩
  · exact ⟨_, rfl, (runsTransaction_phyLinkFirst p).turn_hook_fail hq h⟩
  · exact ⟨_, rfl, (runsTransaction_phyLinkSecond p).turn_hook_fail hq h⟩
  · exact ⟨_, rfl, (runsTransaction_phyResetWrite p).turn_hook_fail hq h⟩
  · exact ⟨_, rfl, seqTurn_phyResetHook_fail hq h⟩

/-- Settles O22: the hook call raises, and the raise ends the operation. -/
theorem hookFailureEndsTheOperation : Obligations.HookFailureEndsTheOperation := by
  unfold Obligations.HookFailureEndsTheOperation
  intro s p o e rest hq h
  obtain ⟨i, hi, hturn⟩ := seqTurn_raises_hookFail hq h
  have hkeeps := keepsRegsBut_endOperation (fun _ => id) (s.hooked rest s.draws) 1#32 none none (some e)
  obtain ⟨houtside, hgrants⟩ := keepsAround_endOperation.2 (keepsAround_hooked.2 (keepsAround_refl s))
  refine ⟨_, playSeq_hookFail hi hturn, rfl, ?_, ?_, State.busy_congr rfl (hkeeps .mdioCmd (by decide)), hkeeps,
    fun a => ?_, houtside, hgrants⟩
  · simp [EndsWith]
  · simp
  · rw [State.mem_endOperation, State.mem_hooked]

/-! ### Swallowed -/

theorem detectSkip_of_lt {a : PhyAddr} (h : a.toNat < 62) (s : State) :
    detectSkip a s = .next (s.goto (.phyDetect (a + 1#6) (readStart (a + 1#6) s.params.idIdx))) := if_pos h

theorem detectSkip_of_last {a : PhyAddr} (h : ¬ a.toNat < 62) (s : State) :
    detectSkip a s = toRaise .phyDetect .notFound s := if_neg h

/-- Settles O30: a failed read of PHY.DETECT is `detectSkip`, one of PHY.RESET is `resetNotDone`. -/
theorem swallowedReadFailures : Obligations.SwallowedReadFailures := by
  unfold Obligations.SwallowedReadFailures
  intro s a o e rest h
  refine ⟨fun hq => ?_, fun hq => ?_⟩
  · have hturn := (runsTransaction_phyDetect a).turn_hook_fail hq h
    rw [seqTurn_of_operation (i := .phyDetect) (by rw [hq]; rfl)] at hturn
    by_cases ha : a.toNat < 62
    · rw [detectSkip_of_lt ha] at hturn
      exact ⟨_, hturn, rfl, fun _ _ => rfl, (if_pos ha).symm⟩
    · rw [detectSkip_of_last ha] at hturn
      exact ⟨_, hturn, rfl, fun _ _ => rfl, (if_neg ha).symm⟩
  · have hturn := (runsTransaction_phyResetRead a).turn_hook_fail hq h
    rw [seqTurn_of_operation (i := .phyReset) (by rw [hq]; rfl)] at hturn
    exact ⟨_, hturn, rfl, fun _ _ => rfl, rfl⟩

end Sys2Proof.Machine
end

section
/-! What nested transactions leave unchanged (R170), their runs where BUS completes before SEQ's first poll (R154, R155,
R171), and how an operation made of them ends. -/

namespace Sys2Proof.Machine

/-- From `s` to `t` only MDIO_CMD and MDIO_DATA of the registers have changed, and neither memory nor the PHYs nor DMA's
position: what reads of PHY registers leave. -/
structure KeptByReads (s t : State) : Prop where
  regs : KeepsRegsBut [.mdioCmd, .mdioData] s t
  mem : t.mem = s.mem
  around : KeepsAround s t

section
variable {s t u : State}

theorem KeptByReads.refl (s : State) : KeptByReads s s := ⟨keepsRegsBut_refl _ s, rfl, keepsAround_refl s⟩

theorem KeepsAround.trans (h : KeepsAround s t) (h' : KeepsAround t u) : KeepsAround s u := by
  obtain ⟨⟨hpresent, hphy, hparams, hagenda⟩, htx, hrx⟩ := h
  obtain ⟨⟨hpresent', hphy', hparams', hagenda'⟩, htx', hrx'⟩ := h'
  exact ⟨⟨hpresent'.trans hpresent, hphy'.trans hphy, hparams'.trans hparams, hagenda'.trans hagenda⟩,
    htx'.trans htx, hrx'.trans hrx⟩

theorem KeptByReads.trans (h : KeptByReads s t) (h' : KeptByReads t u) : KeptByReads s u :=
  ⟨fun r hr => (h'.regs r hr).trans (h.regs r hr), h'.mem.trans h.mem, h.around.trans h'.around⟩

theorem KeptByReads.goto (h : KeptByReads s t) (q : Seq) : KeptByReads s (t.goto q) := ⟨h.regs, h.mem, h.around⟩

theorem KeptByReads.of_goto {q : Seq} (h : KeptByReads (s.goto q) t) : KeptByReads s t := ⟨h.regs, h.mem, h.around⟩

theorem ReadDone.keptByReads {p : PhyAddr} {r : RegAddr} {l : List Config.HookAnswer} (h : ReadDone p r l s t) :
    KeptByReads s t := ⟨h.regs, h.mem, h.around⟩

theorem KeptByReads.params (h : KeptByReads s t) : t.params = s.params := by
  obtain ⟨⟨-, -, hparams, -⟩, -⟩ := h.around
  exact hparams

theorem KeptByReads.hookEn (h : KeptByReads s t) : t.hookEn = s.hookEn := by
  rw [State.hookEn, State.hookEn, h.regs .cfg (by decide)]

end

theorem ReadDone.not_busy {p : PhyAddr} {r : RegAddr} {l : List Config.HookAnswer} {s t : State}
    (h : ReadDone p r l s t) (hwf : s.params.wellFormed = true) : t.busy = false :=
  busy_of_clearBusy hwf h.keptByReads.params h.cmd

/-- From `s` to `t` the same holds but for the PHY registers: what transactions of either kind leave. -/
def KeptByTransactions (s t : State) : Prop := KeptByReads { s with phyRegs := t.phyRegs } t

section
variable {s t u : State}

theorem KeptByReads.keptByTransactions (h : KeptByReads s t) : KeptByTransactions s t := by
  obtain ⟨⟨hpresent, -, hparams, hagenda⟩, hgrants⟩ := h.around
  exact ⟨h.regs, h.mem, ⟨hpresent, rfl, hparams, hagenda⟩, hgrants⟩

theorem KeptByTransactions.trans (h : KeptByTransactions s t) (h' : KeptByTransactions t u) :
    KeptByTransactions s u := by
  obtain ⟨⟨hpresent, -, hparams, hagenda⟩, hgrants⟩ := h.around
  have hst : KeptByReads { s with phyRegs := u.phyRegs } { t with phyRegs := u.phyRegs } :=
    ⟨h.regs, h.mem, ⟨hpresent, rfl, hparams, hagenda⟩, hgrants⟩
  exact hst.trans h'

theorem WriteDone.keptByTransactions {p : PhyAddr} {r : RegAddr} {v : Data16} {l : List Config.HookAnswer}
    (h : WriteDone p r v l s t) : KeptByTransactions s t := ⟨h.regs, h.mem, h.around⟩

theorem keptByTransactions_phyWrite (s : State) (p : PhyAddr) (r : RegAddr) (v : Data16) :
    KeptByTransactions s (s.phyWrite p r v) := by
  rcases State.phyWrite_state s p r v with hs | ⟨-, hs⟩
  · rw [hs]
    exact (KeptByReads.refl s).keptByTransactions
  · rw [hs]
    exact KeptByReads.refl _

end

/-! ### Transactions with no poll that sees BUSY = 1 -/

theorem WriteDone.goto {p : PhyAddr} {r : RegAddr} {v : Data16} {l : List Config.HookAnswer} {s t : State}
    (h : WriteDone p r v l s t) (q : Seq) : WriteDone p r v l s (t.goto q) :=
  { cmd := h.cmd, data := h.data, regs := h.regs, mem := h.mem, phyRegs := h.phyRegs, around := h.around,
    hooks := h.hooks, draws := h.draws }

section
variable {at_ : MdioPos → Seq} {done : Data16 → State → Result} {failed : Word → State → Result} {p : PhyAddr}
  {r : RegAddr} {s : State}

theorem State.answersLeft_self (s : State) : s.answersLeft s.hookAnswers = s.hookAnswers := ite_self _

/-- A read that BUS completes before SEQ's first poll takes the PHY's answer and calls no hook (R154). -/
theorem RunsTransaction.play_readEvents (hrun : RunsTransaction at_ done failed) (hwf : s.params.wellFormed = true)
    (hp : AddressOk p) (hq : s.seq = at_ (readStart p r)) (hb : s.busy = false) :
    ∃ t, ReadDone p r s.hookAnswers s t ∧ play readEvents s = done ((s.phyRead p r).1) t := by
  obtain ⟨t, ht, hplay⟩ := hrun.play_read (k := 0) (rest := s.hookAnswers) hwf hp hq hb fun _ => rfl
  rw [pollSteps_zero] at hplay
  exact ⟨t, s.answersLeft_self ▸ ht, hplay⟩

/-- A write that BUS completes before SEQ's first poll calls no hook (R155). -/
theorem RunsTransaction.play_writeEvents (hrun : RunsTransaction at_ done failed) (hwf : s.params.wellFormed = true)
    (hp : AddressOk p) {v : Data16} (hq : s.seq = at_ (writeStart p r v)) (hb : s.busy = false) :
    ∃ t, WriteDone p r v s.hookAnswers s t ∧ play writeEvents s = done 0#16 t := by
  obtain ⟨t, ht, hplay⟩ := hrun.play_write (k := 0) (rest := s.hookAnswers) hwf hp hq hb fun _ => rfl
  rw [pollSteps_zero] at hplay
  exact ⟨t, s.answersLeft_self ▸ ht, hplay⟩

end

/-! ### Hook answers, repeated steps, and the end of an operation -/

theorem hookAllows_congr {s t : State} {n : Nat} {rest : List Config.HookAnswer} (hcfg : t.reg .cfg = s.reg .cfg)
    (hl : t.hookAnswers = s.hookAnswers) (h : HookAllows s n rest) : HookAllows t n rest := by
  rwa [HookAllows, State.hookEn, hcfg, hl]

theorem flatten_replicate_succ (n : Nat) (es : List Event) :
    (List.replicate (n + 1) es).flatten = (List.replicate n es).flatten ++ es := by
  rw [List.replicate_succ', List.flatten_append, List.flatten_singleton]

/-- The end of an operation whose accesses left memory and all but `rs` of the registers. -/
theorem keeps_endOperation {rs : List Reg} {s t : State} (hregs : KeepsRegsBut rs s t) (hmem : t.mem = s.mem) (c : Word)
    (x y z : Option Word) :
    KeepsRegsBut (rs ++ endRegs) s (t.endOperation c x y z) ∧ KeepsMemory s (t.endOperation c x y z) :=
  ⟨keepsRegsBut_trans hregs (keepsRegsBut_endOperation (fun _ => id) t c x y z), fun a => by
    rw [State.mem_endOperation, hmem]⟩

/-- The end of an operation that only read PHY registers. -/
theorem KeptByReads.endOperation {s t : State} (h : KeptByReads s t) (c : Word) (x y z : Option Word) :
    KeepsRegsBut ([.mdioCmd, .mdioData] ++ endRegs) s (t.endOperation c x y z) ∧
      KeepsMemory s (t.endOperation c x y z) ∧ KeepsOutside s (t.endOperation c x y z) := by
  obtain ⟨hregs, hmem⟩ := keeps_endOperation h.regs h.mem c x y z
  obtain ⟨houtside, -⟩ := keepsAround_endOperation.2 h.around
  exact ⟨hregs, hmem, houtside⟩

end Sys2Proof.Machine
end

section
/-! PHY.DETECT scans the addresses in ascending order (R176, R177, R262). -/

namespace Sys2Proof.Machine

/-- An address with no device, or with 0xFFFF pinned, answers so. -/
theorem phyRead_of_answersAllOnes {s : State} {p : PhyAddr} {r : RegAddr} (h : AnswersAllOnes s p r) :
    (s.phyRead p r).1 = Config.noDevice := by
  by_cases hp : s.isPresent p = true
  · rw [State.phyRead_of_pinned hp (h.resolve_left (by simp [hp]))]
    rfl
  · rw [State.phyRead, if_neg hp]

theorem KeepsAround.answersAllOnes {s t : State} {p : PhyAddr} {r : RegAddr} (hkeep : KeepsAround s t)
    (h : AnswersAllOnes s p r) : AnswersAllOnes t p r := by
  obtain ⟨⟨hpresent, hphy, -, -⟩, -⟩ := hkeep
  rwa [AnswersAllOnes, State.isPresent, hpresent, hphy]

theorem KeepsAround.phyRead_of_pinned {s t : State} {p : PhyAddr} {r : RegAddr} {v : Data16} (hkeep : KeepsAround s t)
    (hp : s.isPresent p = true) (h : Assoc.lookup (phyKey p r) s.phyRegs = some v) : t.phyRead p r = (v, t) := by
  obtain ⟨⟨hpresent, hphy, -, -⟩, -⟩ := hkeep
  refine State.phyRead_of_pinned ?_ (hphy ▸ h)
  rwa [State.isPresent, hpresent]

/-- PHY.DETECT is about to read the identifier register of address `a`, with no transaction in flight. -/
structure Scans (a : PhyAddr) (s : State) : Prop where
  params : s.params.wellFormed = true
  seq : s.seq = .phyDetect a (readStart a s.params.idIdx)
  idleBus : s.busy = false

section
variable {s : State} {a : PhyAddr}

/-- The read of an address that answers 0xFFFF skips it. -/
theorem Scans.play_skip (h : Scans a s) (ha : AddressOk a) (hall : AnswersAllOnes s a s.params.idIdx) :
    ∃ t, KeptByReads s t ∧ t.busy = false ∧ play readEvents s = detectSkip a t := by
  obtain ⟨t, ht, hplay⟩ := (runsTransaction_phyDetect a).play_readEvents h.params ha h.seq h.idleBus
  rw [phyRead_of_answersAllOnes hall, if_neg (not_not.2 rfl)] at hplay
  exact ⟨t, ht.keptByReads, ht.not_busy h.params, hplay⟩

/-- The read of an address that answers anything else ends the scan. -/
theorem Scans.play_accept (h : Scans a s) (ha : AddressOk a) (hv : (s.phyRead a s.params.idIdx).1 ≠ Config.noDevice) :
    ∃ t, KeptByReads s t ∧ play readEvents s = .next (t.goto (.phyDetectStore a)) := by
  obtain ⟨t, ht, hplay⟩ := (runsTransaction_phyDetect a).play_readEvents h.params ha h.seq h.idleBus
  rw [if_pos hv] at hplay
  exact ⟨t, ht.keptByReads, hplay⟩

/-- From address 0, `n` reads that each answer 0xFFFF lead to address `n`. -/
theorem Scans.play_skips (h : Scans 0#6 s) {n : Nat} (hn : n ≤ 62)
    (hall : ∀ b : PhyAddr, b.toNat < n → AnswersAllOnes s b s.params.idIdx) :
    ∃ t, KeptByReads s t ∧ Scans (BitVec.ofNat 6 n) t ∧
      play (List.replicate n readEvents).flatten s = .next t := by
  induction n with
  | zero => exact ⟨s, .refl s, h, rfl⟩
  | succ n ih =>
    obtain ⟨t, hkeep, hscan, hplay⟩ := ih (by omega) fun b hb => hall b (by omega)
    have hnat : (BitVec.ofNat 6 n).toNat = n := Nat.mod_eq_of_lt (by omega)
    have hskipped := hkeep.around.answersAllOnes (hall (BitVec.ofNat 6 n) (by omega))
    rw [← hkeep.params] at hskipped
    obtain ⟨u, hkeep', hb, hread⟩ := hscan.play_skip (show _ ≤ 62 by omega) hskipped
    rw [detectSkip_of_lt (by omega), ← BitVec.ofNat_add] at hread
    have hrun := (play_append hplay).trans hread
    rw [← flatten_replicate_succ] at hrun
    refine ⟨_, (hkeep.trans hkeep').goto _, ⟨?_, rfl, ?_⟩, hrun⟩
    · exact hkeep'.params ▸ hscan.params
    · exact hb

end

/-- PHY.DETECT starts its scan at address 0, and the first `n` addresses that answer 0xFFFF are skipped. -/
theorem exec_phyDetect_skips {s : State} (hwf : s.params.wellFormed = true) (hq : s.seq = .idle) (hb : s.busy = false)
    {n : Nat} (hn : n ≤ 62) (hall : ∀ b : PhyAddr, b.toNat < n → AnswersAllOnes s b s.params.idIdx) :
    ∃ s₁ t, exec .phyDetect s = .next s₁ ∧ s₁.seq ≠ .idle ∧ play (List.replicate n readEvents).flatten s₁ = .next t ∧
      KeptByReads s t ∧ Scans (BitVec.ofNat 6 n) t := by
  have hstart := (exec_phyDetect_start hq).trans (unlessBusy_of_not_busy hb _)
  obtain ⟨t, hkeep, hscan, hplay⟩ :=
    Scans.play_skips (s := s.goto (.phyDetect 0#6 (readStart 0#6 s.params.idIdx))) ⟨hwf, rfl, hb⟩ hn hall
  exact ⟨_, t, hstart, nofun, hplay, hkeep.of_goto, hscan⟩

theorem seqTurn_phyDetectStore {s : State} {a : PhyAddr} (hq : s.seq = .phyDetectStore a) :
    seqTurn s = toReturn .phyDetect (some (a.setWidth 32)) none (s.setReg .phyaddr (phyaddrWord a)) := by
  rw [seqTurn_of_operation (i := .phyDetect) (by rw [hq]; rfl)]
  simp only [exec, execPhyDetect, hq]

/-- Settles O28: the addresses below `a` are skipped, the read of `a` is accepted, and `a` is stored and returned. -/
theorem detectFindsTheLowestAnswering : Obligations.DetectFindsTheLowestAnswering := by
  unfold Obligations.DetectFindsTheLowestAnswering
  intro s a v hwf hq hb ha hbelow hpresent hpinned hv
  obtain ⟨s₁, t, hstart, hbusy, hskips, hkeep, hscan⟩ := exec_phyDetect_skips hwf hq hb ha hbelow
  rw [BitVec.ofNat_toNat, BitVec.setWidth_eq] at hscan
  have hanswer := hkeep.around.phyRead_of_pinned hpresent hpinned
  rw [← hkeep.params] at hanswer
  obtain ⟨u, hkeep', haccept⟩ := hscan.play_accept ha (by rwa [hanswer])
  have hkept := hkeep.trans hkeep'
  set w := (u.goto (.phyDetectStore a)).setReg .phyaddr (phyaddrWord a) with hw
  have hrun : play [.seq, .seq] (u.goto (.phyDetectStore a)) =
      .next (w.endOperation 0#32 (some (a.setWidth 32)) none none) :=
    play_return (es := [.seq]) rfl ((play_seq_singleton _).trans (seqTurn_phyDetectStore rfl))
  have hregs : KeepsRegsBut ([.mdioCmd, .mdioData] ++ [.phyaddr]) s w :=
    keepsRegsBut_trans hkept.regs (keepsRegsBut_setReg (by decide) (keepsRegsBut_refl _ u))
  obtain ⟨hend, hmem⟩ := keeps_endOperation hregs hkept.mem 0#32 (some (a.setWidth 32)) none none
  obtain ⟨houtside, -⟩ := keepsAround_endOperation.2 (keepsAround_setReg.2 (keepsAround_goto.2 hkept.around))
  rw [flatten_replicate_succ, List.append_assoc]
  refine ⟨s₁, _, hstart, hbusy, (play_append hskips).trans ((play_append haccept).trans hrun), rfl, ?_, ?_, ?_,
    keepsRegsBut_mono hend ?_, hmem, houtside⟩
  · simp [EndsWith]
  · simp
  · simp [hw, phyaddrWord]
  · decide

/-- Settles O29: the addresses 0 to 61 are skipped, and the read of the last raises NOT_FOUND. -/
theorem detectNotFound : Obligations.DetectNotFound := by
  unfold Obligations.DetectNotFound
  intro s hwf hq hb hall
  obtain ⟨s₁, t, hstart, hbusy, hskips, hkeep, hscan⟩ :=
    exec_phyDetect_skips hwf hq hb (n := 62) le_rfl fun b hlt => hall b hlt.le
  have hlast : AddressOk 62#6 := le_refl 62
  have hskipped := hkeep.around.answersAllOnes (hall 62#6 hlast)
  rw [← hkeep.params] at hskipped
  obtain ⟨u, hkeep', -, hread⟩ := hscan.play_skip hlast hskipped
  rw [detectSkip_of_last (by decide)] at hread
  have hkept := hkeep.trans hkeep'
  obtain ⟨hend, hmem, houtside⟩ := hkept.endOperation 2#32 none none none
  rw [flatten_replicate_succ, List.append_assoc]
  refine ⟨s₁, _, hstart, hbusy, (play_append hskips).trans (play_raise rfl hread), rfl, ?_, hend, hmem, houtside⟩
  · simp [EndsWith, Raise.code]

end Sys2Proof.Machine
end

section
/-! PHY.LINKSTATUS: one read where the link is down, two where it is up (R186 to R188, R191). -/

namespace Sys2Proof.Machine

theorem seqTurn_phyLinkAddr {s : State} (hq : s.seq = .phyLinkAddr) :
    seqTurn s = .next (s.goto (.phyLinkFirst s.phyAddr (readStart s.phyAddr s.params.bsrIdx))) := by
  rw [seqTurn_of_operation (i := .phyLinkstatus) (by rw [hq]; rfl)]
  simp only [exec, execPhyLinkstatus, hq]

/-- PHY.LINKSTATUS up to the answer of its first read, that of BSR: with the link bit set it goes on to the second read,
else to its return (R186). -/
theorem exec_phyLinkstatus_first {s : State} (hwf : s.params.wellFormed = true) (hq : s.seq = .idle)
    (hb : s.busy = false) (hv : s.phyValid = true) (hp : AddressOk s.phyAddr) :
    ∃ s₁ t, exec .phyLinkstatus s = .next s₁ ∧ s₁.seq ≠ .idle ∧ ReadDone s.phyAddr s.params.bsrIdx s.hookAnswers s t ∧
      play ([.seq] ++ readEvents) s₁ =
        if linkBit s.params ((s.phyRead s.phyAddr s.params.bsrIdx).1) then
          .next (t.goto (.phyLinkSecond s.phyAddr (readStart s.phyAddr s.params.lsSecondReg)))
        else toReturn .phyLinkstatus (some (lsw false false 0#2 false)) none t := by
  have hstart := (exec_phyLinkstatus_start hq hv).trans (unlessBusy_of_not_busy hb _)
  have haddr := seqTurn_phyLinkAddr (s := s.goto .phyLinkAddr) rfl
  obtain ⟨t, ht, hplay⟩ := (runsTransaction_phyLinkFirst s.phyAddr).play_readEvents
    (s := s.goto (.phyLinkFirst s.phyAddr (readStart s.phyAddr s.params.bsrIdx))) hwf hp rfl hb
  have hdone := ht.of_goto
  rw [State.phyRead_goto, hdone.keptByReads.params] at hplay
  exact ⟨_, t, hstart, nofun, hdone, (play_seq haddr).trans hplay⟩

/-- Settles O32: the answer's link bit is clear, so the first read leads to the return of 0x00. -/
theorem linkDownMakesOneRead : Obligations.LinkDownMakesOneRead := by
  unfold Obligations.LinkDownMakesOneRead
  intro s hwf hq hb hv hp hlink
  obtain ⟨s₁, t, hstart, hbusy, hdone, hplay⟩ := exec_phyLinkstatus_first hwf hq hb hv hp
  rw [if_neg (by simp [linkBit, hlink])] at hplay
  obtain ⟨hend, hmem, houtside⟩ := hdone.keptByReads.endOperation 0#32 (some (lsw false false 0#2 false)) none none
  refine ⟨s₁, _, hstart, hbusy, play_return rfl hplay, rfl, ?_, ?_, ?_, hend, hmem, houtside⟩
  · simp [EndsWith]
  · simp [lsw, place]
  · simp [hdone.cmd, Config.opRead]

theorem linkUpStatus_of_not_done {P : Config.Params} {vsr : Data16} (h : anDone P vsr = false) :
    linkUpStatus P vsr = 0x01#32 := by
  rw [linkUpStatus, h]
  rfl

/-- R187's table, by the code's number. -/
theorem linkUpStatus_of_done {P : Config.Params} {vsr : Data16} (h : anDone P vsr = true) :
    linkUpStatus P vsr =
      if (speedCode P vsr).toNat = 1 then 0x0B#32 else if (speedCode P vsr).toNat = 5 then 0x0F#32
      else if (speedCode P vsr).toNat = 2 then 0x13#32 else if (speedCode P vsr).toNat = 6 then 0x17#32
      else 0x01#32 := by
  rw [linkUpStatus, if_pos h]
  generalize speedCode P vsr = code
  decide +revert

theorem toNat_speedCode (P : Config.Params) (vsr : Data16) :
    (speedCode P vsr).toNat = (vsr >>> P.vsrCodeLo).toNat % 8 := by
  rw [speedCode, field, BitVec.toNat_setWidth]

/-- A further read answers as it would right after the first. -/
theorem ReadDone.phyRead_next {p : PhyAddr} {r : RegAddr} {l : List Config.HookAnswer} {s t : State}
    (h : ReadDone p r l s t) (p' : PhyAddr) (r' : RegAddr) :
    (t.phyRead p' r').1 = ((s.phyRead p r).2.phyRead p' r').1 := by
  obtain ⟨⟨hpresent, hphy, -, -⟩, -⟩ := h.around
  rw [State.phyRead_snd]
  exact (State.phyRead_congr (s := s.hooked s.hookAnswers (s.phyRead p r).2.draws) hpresent hphy h.draws p' r').1

/-- Settles O33: the first read leads to the second, of which the answer is decoded and returned. -/
theorem linkUpDecodesTheCode : Obligations.LinkUpDecodesTheCode := by
  unfold Obligations.LinkUpDecodesTheCode
  intro s bsr vsr hwf hq hb hv hp hbsr hvsr hlink
  obtain ⟨s₁, t, hstart, hbusy, hdone, hplay⟩ := exec_phyLinkstatus_first hwf hq hb hv hp
  rw [if_pos (by rwa [linkBit, hbsr])] at hplay
  have hkept := hdone.keptByReads
  obtain ⟨u, hu, hsecond⟩ := (runsTransaction_phyLinkSecond s.phyAddr).play_readEvents
    (s := t.goto (.phyLinkSecond s.phyAddr (readStart s.phyAddr s.params.lsSecondReg)))
    (r := s.params.lsSecondReg) (hkept.params ▸ hwf) hp rfl (hdone.not_busy hwf)
  have hkept' := hkept.trans hu.of_goto.keptByReads
  rw [State.phyRead_goto, hdone.phyRead_next, hvsr, hkept'.params] at hsecond
  have hrun := play_return rfl ((play_append hplay).trans hsecond)
  obtain ⟨hend, hmem, houtside⟩ := hkept'.endOperation 0#32 (some (linkUpStatus s.params vsr)) none none
  refine ⟨s₁, _, hstart, hbusy, hrun, rfl, ?_, hend, hmem, houtside, ?_⟩
  · simp [EndsWith]
  · have hres : (u.endOperation 0#32 (some (linkUpStatus s.params vsr)) none none).reg .res0 =
        linkUpStatus s.params vsr := by simp
    rw [hres, ← toNat_speedCode]
    cases han : anDone s.params vsr with
    | false => exact (linkUpStatus_of_not_done han).trans (if_pos han).symm
    | true => exact (linkUpStatus_of_done han).trans (if_neg (by simpa [anDone] using han)).symm

end Sys2Proof.Machine
end

section
/-! PHY.RESET: the write of the reset bit, the polls that see it set, and the one that sees it cleared (R180, R181). -/

namespace Sys2Proof.Machine

/-! ### The positions of PHY.RESET outside its transactions -/

theorem seqTurn_phyResetAddr {s : State} (hq : s.seq = .phyResetAddr) :
    seqTurn s = .next
      (s.goto (.phyResetWrite s.phyAddr (writeStart s.phyAddr s.params.bcrIdx (resetValue s.params)))) := by
  rw [seqTurn_of_operation (i := .phyReset) (by rw [hq]; rfl)]
  simp only [exec, execPhyReset, hq]

section
variable {s : State} {p : PhyAddr}

theorem seqTurn_phyResetCfg_of_no_hook (hq : s.seq = .phyResetCfg p) (hh : s.hookEn = false) :
    seqTurn s = resetPoll p s := by
  rw [seqTurn_of_operation (i := .phyReset) (by rw [hq]; rfl)]
  simp [exec, execPhyReset, hq, hh]

theorem seqTurn_phyResetCfg_of_hook (hq : s.seq = .phyResetCfg p) (hh : s.hookEn = true) :
    seqTurn s = .next (s.goto (.phyResetHook p)) := by
  rw [seqTurn_of_operation (i := .phyReset) (by rw [hq]; rfl)]
  simp [exec, execPhyReset, hq, hh]

theorem seqTurn_phyResetHook_ok (hq : s.seq = .phyResetHook p) {rest : List Config.HookAnswer}
    (hl : s.hookAnswers = .ok :: rest) : seqTurn s = resetPoll p (s.hooked rest s.draws) := by
  rw [seqTurn_of_operation (i := .phyReset) (by rw [hq]; rfl)]
  simp only [exec, execPhyReset, hq, State.callHook, hl]
  rfl

end

/-! ### The polls -/

/-- PHY.RESET is about to poll the PHY at `p`, with no transaction in flight, and a hook answers its next `n` calls
with ok. -/
structure PollsReset (p : PhyAddr) (n : Nat) (rest : List Config.HookAnswer) (s : State) : Prop where
  params : s.params.wellFormed = true
  address : AddressOk p
  seq : s.seq = .phyResetRead p (readStart p s.params.bcrIdx)
  idleBus : s.busy = false
  hook : HookAllows s n rest

/-- The steps from a poll that saw the reset bit set to the next poll: the read of CFG, and the hook call if there is a
hook (R14, R180). -/
def betweenPolls (hook : Bool) : List Event := if hook then [.seq, .seq] else [.seq]

section
variable {s : State} {p : PhyAddr} {n : Nat} {rest : List Config.HookAnswer}

/-- Between polls, with no hook or one that answers ok, PHY.RESET goes to the next poll. -/
theorem play_betweenPolls (hhook : HookAllows s (n + 1) rest) :
    ∃ l, HookAllows (s.hooked l s.draws) n rest ∧
      play (betweenPolls s.hookEn) (s.goto (.phyResetCfg p)) = resetPoll p (s.hooked l s.draws) := by
  cases hh : s.hookEn with
  | false =>
    exact ⟨s.hookAnswers, fun h => absurd (hh.symm.trans h) nofun,
      (play_seq_singleton _).trans (seqTurn_phyResetCfg_of_no_hook rfl hh)⟩
  | true =>
    have hcfg := seqTurn_phyResetCfg_of_hook (s := s.goto (.phyResetCfg p)) rfl hh
    have hcall := seqTurn_phyResetHook_ok (s := s.goto (.phyResetHook p))
      (rest := List.replicate n Config.HookAnswer.ok ++ rest) rfl (hhook hh)
    exact ⟨List.replicate n Config.HookAnswer.ok ++ rest, fun _ => rfl,
      (play_seq hcfg).trans ((play_seq_singleton _).trans hcall)⟩

/-- A poll that sees the reset bit set leads to the next poll. -/
theorem PollsReset.play_not_done (h : PollsReset p (n + 1) rest s)
    (hset : resetBit s.params ((s.phyRead p s.params.bcrIdx).1) = true) :
    ∃ t, PollsReset p n rest t ∧ KeptByReads s t ∧ play (readEvents ++ betweenPolls s.hookEn) s = .next t := by
  obtain ⟨t, ht, hread⟩ := (runsTransaction_phyResetRead p).play_readEvents h.params h.address h.seq h.idleBus
  have hkept := ht.keptByReads
  rw [hkept.params, if_pos hset] at hread
  have hallows := hookAllows_congr (hkept.regs .cfg (by decide)) ht.hooks h.hook
  obtain ⟨l, hallows', hnext⟩ := play_betweenPolls (p := p) hallows
  have hrun := (play_append hread).trans hnext
  rw [hkept.hookEn] at hrun
  refine ⟨(t.hooked l t.draws).goto (.phyResetRead p (readStart p t.params.bcrIdx)),
    ⟨?_, h.address, rfl, ht.not_busy h.params, hallows'⟩, ⟨hkept.regs, hkept.mem, hkept.around⟩, hrun⟩
  exact hkept.params ▸ h.params

/-- `n` polls of a PHY whose control register holds the reset bit see it set. -/
theorem PollsReset.play_polls (h : PollsReset p n rest s) (hpresent : s.isPresent p = true) {w : Data16}
    (hpinned : Assoc.lookup (phyKey p s.params.bcrIdx) s.phyRegs = some w) (hset : resetBit s.params w = true) :
    ∃ t, PollsReset p 0 rest t ∧ KeptByReads s t ∧
      play (List.replicate n (readEvents ++ betweenPolls s.hookEn)).flatten s = .next t := by
  induction n generalizing s with
  | zero => exact ⟨s, h, .refl s, rfl⟩
  | succ n ih =>
    obtain ⟨t, ht, hkept, hpoll⟩ := h.play_not_done (by rwa [State.phyRead_of_pinned hpresent hpinned])
    obtain ⟨⟨hpresent', hphy, hparams, -⟩, -⟩ := hkept.around
    obtain ⟨u, hu, hkept', hpolls⟩ := ih ht (by rwa [State.isPresent, hpresent']) (by rwa [hparams, hphy])
      (hparams ▸ hset)
    rw [hkept.hookEn] at hpolls
    refine ⟨u, hu, hkept.trans hkept', ?_⟩
    rw [List.replicate_succ, List.flatten_cons, play_append hpoll, hpolls]

/-- A poll that sees the reset bit cleared leads to the return. -/
theorem PollsReset.play_done (h : PollsReset p n rest s)
    (hclear : resetBit s.params ((s.phyRead p s.params.bcrIdx).1) = false) :
    ∃ t, KeptByReads s t ∧ play readEvents s = toReturn .phyReset none none t := by
  obtain ⟨t, ht, hread⟩ := (runsTransaction_phyResetRead p).play_readEvents h.params h.address h.seq h.idleBus
  rw [ht.keptByReads.params, if_neg (by simp [hclear])] at hread
  exact ⟨t, ht.keptByReads, hread⟩

end

/-! ### The write of the reset bit -/

/-- PHY.RESET up to its first poll, BUS having completed its write. -/
theorem exec_phyReset_write {s : State} {n : Nat} {rest : List Config.HookAnswer} (hwf : s.params.wellFormed = true)
    (hq : s.seq = .idle) (hb : s.busy = false) (hv : s.phyValid = true) (hp : AddressOk s.phyAddr)
    (hhook : HookAllows s n rest) :
    ∃ s₁ t, exec .phyReset s = .next s₁ ∧ s₁.seq ≠ .idle ∧ play ([.seq] ++ writeEvents) s₁ = .next t ∧
      WriteDone s.phyAddr s.params.bcrIdx (resetValue s.params) s.hookAnswers s t ∧ PollsReset s.phyAddr n rest t := by
  have hstart := (exec_phyReset_start hq hv).trans (unlessBusy_of_not_busy hb _)
  have haddr := seqTurn_phyResetAddr (s := s.goto .phyResetAddr) rfl
  obtain ⟨t, ht, hplay⟩ := (runsTransaction_phyResetWrite s.phyAddr).play_writeEvents
    (s := s.goto (.phyResetWrite s.phyAddr (writeStart s.phyAddr s.params.bcrIdx (resetValue s.params)))) hwf hp rfl hb
  have hdone := ht.of_goto
  obtain ⟨⟨-, -, hparams, -⟩, -⟩ := hdone.around
  refine ⟨_, t.goto (.phyResetRead s.phyAddr (readStart s.phyAddr t.params.bcrIdx)), hstart, nofun,
    (play_seq haddr).trans hplay, hdone.goto _, ?_, hp, rfl, busy_of_clearBusy hwf hparams hdone.cmd,
    hookAllows_congr (hdone.regs .cfg (by decide)) hdone.hooks hhook⟩
  exact hparams ▸ hwf

/-! ### The whole operation -/

theorem phyTurn_of_present {s : State} {p : PhyAddr} (h : s.isPresent p = true) (r : RegAddr) (v : Data16) :
    phyTurn p r v s = .next (s.phyWrite p r v) := if_pos h

/-- A value given to a register of a present PHY is read back. -/
theorem State.phyRead_phyWrite_same {s : State} {p : PhyAddr} (h : s.isPresent p = true) (r : RegAddr) (v : Data16) :
    (s.phyWrite p r v).phyRead p r = (v, s.phyWrite p r v) := by
  rw [State.phyWrite, if_pos h]
  refine State.phyRead_of_pinned h ?_
  rw [Assoc.lookup_insert, if_pos rfl]

/-- The value PHY.RESET writes has the reset bit set (R181). -/
theorem resetBit_resetValue {P : Config.Params} (h : P.wellFormed = true) : resetBit P (resetValue P) = true := by
  have hbit : P.bcrResetBit < 16 := by
    simp only [Config.Params.wellFormed, Bool.and_eq_true, decide_eq_true_eq] at h
    omega
  simp [resetBit, resetValue, hbit]

section
variable {s : State} {p : PhyAddr} {n : Nat} {rest : List Config.HookAnswer}

/-- A step of the PHY changes nothing PHY.RESET's poll depends on but the register. -/
theorem PollsReset.phyWrite (h : PollsReset p n rest s) (r : RegAddr) (v : Data16) :
    PollsReset p n rest (s.phyWrite p r v) := by
  rcases State.phyWrite_state s p r v with hs | ⟨-, hs⟩ <;> rw [hs]
  · exact h
  · exact ⟨h.params, h.address, h.seq, h.idleBus, h.hook⟩

/-- After a step of the PHY that clears the reset bit, the next poll leads to the return. -/
theorem PollsReset.play_cleared (h : PollsReset p n rest s) (hpresent : s.isPresent p = true) {v : Data16}
    (hclear : v.getLsbD s.params.bcrResetBit = false) :
    ∃ t, KeptByTransactions s t ∧
      play ([.phy p s.params.bcrIdx v] ++ readEvents) s = toReturn .phyReset none none t := by
  have hphy := phyTurn_of_present hpresent s.params.bcrIdx v
  obtain ⟨t, hkept, hread⟩ := (h.phyWrite s.params.bcrIdx v).play_done (by
    rw [State.params_phyWrite, State.phyRead_phyWrite_same hpresent]
    exact hclear)
  exact ⟨t, (keptByTransactions_phyWrite s p _ v).trans hkept.keptByTransactions,
    (play_cons (e := .phy p s.params.bcrIdx v) hphy).trans hread⟩

/-- The polls of a PHY that holds the reset bit, the step of the PHY that clears it, and the last poll. -/
theorem PollsReset.play_until_cleared (h : PollsReset p n rest s) (hpresent : s.isPresent p = true)
    (hpinned : Assoc.lookup (phyKey p s.params.bcrIdx) s.phyRegs = some (resetValue s.params)) {v : Data16}
    (hclear : v.getLsbD s.params.bcrResetBit = false) :
    ∃ t, KeptByTransactions s t ∧
      play ((List.replicate n (readEvents ++ betweenPolls s.hookEn)).flatten ++
        ([.phy p s.params.bcrIdx v] ++ readEvents)) s = toReturn .phyReset none none t := by
  obtain ⟨t, ht, hkept, hpolls⟩ := h.play_polls hpresent hpinned (resetBit_resetValue h.params)
  obtain ⟨⟨hpresent', -, hparams, -⟩, -⟩ := hkept.around
  obtain ⟨u, hkept', hlast⟩ := ht.play_cleared (v := v) (by rwa [State.isPresent, hpresent']) (by rwa [hparams])
  rw [hparams] at hlast
  exact ⟨u, hkept.keptByTransactions.trans hkept', (play_append hpolls).trans hlast⟩

end

/-- Settles O31: the write leaves the reset bit at the PHY, the polls see it, and the one after the PHY's step does
not. -/
theorem resetPollsUntilCleared : Obligations.ResetPollsUntilCleared := by
  unfold Obligations.ResetPollsUntilCleared
  intro s v n rest hwf hq hb hv hp hpresent hhook hclear poll
  obtain ⟨s₁, u, hstart, hbusy, hwrite, hdone, hpolls⟩ := exec_phyReset_write hwf hq hb hv hp hhook
  obtain ⟨⟨hpresent', -, hparams, -⟩, -⟩ := hdone.around
  have hpinned : Assoc.lookup (phyKey s.phyAddr s.params.bcrIdx) u.phyRegs = some (resetValue s.params) := by
    rw [hdone.phyRegs, if_pos hpresent, Assoc.lookup_insert, if_pos rfl]
  refine ⟨⟨s₁, u, hstart, hwrite, hdone.data, hpinned, hdone.regs⟩, ?_⟩
  obtain ⟨t, hkept, hplay⟩ := hpolls.play_until_cleared (v := v) (by rwa [State.isPresent, hpresent'])
    (by rwa [hparams]) (by rwa [hparams])
  have hpoll : readEvents ++ betweenPolls u.hookEn = poll := by
    rw [State.hookEn, hdone.regs .cfg (by decide)]
    exact apply_ite (readEvents ++ ·) _ _ _
  rw [hpoll, hparams] at hplay
  have hrun := play_return rfl ((play_append hwrite).trans hplay)
  have hall := hdone.keptByTransactions.trans hkept
  obtain ⟨hend, hmem⟩ := keeps_endOperation hall.regs hall.mem 0#32 none none none
  obtain ⟨⟨hw, -, hpw, -⟩, hgrants⟩ := keepsAround_endOperation.2 hall.around
  simp only [List.append_assoc] at hrun ⊢
  refine ⟨s₁, _, hstart, hbusy, hrun, rfl, ?_, hend, hmem, hpw, hw, hgrants⟩
  simp [EndsWith]

end Sys2Proof.Machine
end

section
/-! The arithmetic and the layout of the TX ring (R201, R205, R206, R207): Pow2Floor, the slots and the pending count of
successive indices, and where the words of a ring's descriptors lie. -/

namespace Sys2Proof.Machine

/-! ### Pow2Floor and TX.SETDESC's refusals (R206, R207) -/

theorem toNat_one_shiftLeft {k : Nat} (hk : k < 32) : (1#32 <<< k).toNat = 2 ^ k := by
  rw [BitVec.toNat_shiftLeft, Nat.shiftLeft_eq, BitVec.toNat_ofNat, Nat.one_mod, Nat.one_mul]
  exact Nat.mod_eq_of_lt (Nat.pow_lt_pow_right (by omega) hk)

section
variable {s : State} (hq : s.seq = .idle)
include hq

theorem exec_txSetdesc_of_empty (h : s.reg .arg1 = 0#32) : exec .txSetdesc s = .refused .emptyArray := by
  simp [exec, execTxSetdesc, hq, h]

theorem exec_txSetdesc_of_misaligned (hl : s.reg .arg1 ≠ 0#32) (h : descAligned s.params (s.reg .arg0) = false) :
    exec .txSetdesc s = .refused .misaligned := by
  simp [exec, execTxSetdesc, hq, hl, h]

theorem exec_txSetdesc_of_not_fits (hl : s.reg .arg1 ≠ 0#32) (ha : descAligned s.params (s.reg .arg0) = true)
    (h : fitsBelow s.params (s.reg .arg0) (pow2Floor (s.reg .arg1)) = false) :
    exec .txSetdesc s = .refused .outOfAddressSpace := by
  simp [exec, execTxSetdesc, hq, hl, ha, h]

theorem exec_txSetdesc_start (hl : s.reg .arg1 ≠ 0#32) (ha : descAligned s.params (s.reg .arg0) = true)
    (h : fitsBelow s.params (s.reg .arg0) (pow2Floor (s.reg .arg1)) = true) :
    exec .txSetdesc s = .next (s.goto (.txSetdesc .base (s.reg .arg0) (pow2Floor (s.reg .arg1)))) := by
  simp [exec, execTxSetdesc, hq, hl, ha, h]

end

/-- Settles O34: the exponent is the binary logarithm of L. -/
theorem powerOfTwoFloor : Obligations.PowerOfTwoFloor := by
  unfold Obligations.PowerOfTwoFloor
  refine ⟨fun l hl => ?_, fun s hq h => exec_txSetdesc_of_empty hq h⟩
  have hpos : l.toNat ≠ 0 := fun h0 => hl (BitVec.eq_of_toNat_eq h0)
  have hlog : Nat.log2 l.toNat < 32 := (Nat.log2_lt hpos).2 l.isLt
  exact ⟨Nat.log2 l.toNat, toNat_one_shiftLeft hlog, Nat.log2_self_le hpos, Nat.lt_log2_self⟩

/-! ### Successive indices (R205) -/

theorem toNat_iterate_nextIndex {P : Config.Params} (h : P.ringsOk = true) {i : Word} (hi : i.toNat < 2 ^ P.idxW)
    (m : Nat) : ((nextIndex P)^[m] i).toNat = (i.toNat + m) % 2 ^ P.idxW := by
  induction m with
  | zero => exact (Nat.mod_eq_of_lt hi).symm
  | succ m ih => rw [Function.iterate_succ_apply', toNat_nextIndex h, ih, Nat.mod_add_mod, Nat.add_assoc]

/-- Each index passed lowers the pending count by one (R37, R216). -/
theorem toNat_indexDiff_nextIndex {P : Config.Params} (h : P.ringsOk = true) {a b : Word} (ha : a.toNat < 2 ^ P.idxW)
    (hb : b.toNat < 2 ^ P.idxW) (hpos : 0 < (indexDiff P a b).toNat) :
    (indexDiff P a (nextIndex P b)).toNat = (indexDiff P a b).toNat - 1 := by
  have hn := toNat_nextIndex_of_lt h hb
  rw [toNat_indexDiff h ha hb] at hpos ⊢
  rw [toNat_indexDiff h ha (nextIndex_lt h b)]
  split at hn <;> split at hpos <;> split <;> omega

theorem toNat_indexDiff_iterate {P : Config.Params} (h : P.ringsOk = true) {a b : Word} (ha : a.toNat < 2 ^ P.idxW)
    (hb : b.toNat < 2 ^ P.idxW) {m : Nat} (hm : m ≤ (indexDiff P a b).toNat) :
    (indexDiff P a ((nextIndex P)^[m] b)).toNat = (indexDiff P a b).toNat - m := by
  induction m with
  | zero => rfl
  | succ m ih =>
    have hi : ((nextIndex P)^[m] b).toNat < 2 ^ P.idxW := by
      rw [toNat_iterate_nextIndex h hb]
      exact Nat.mod_lt _ (Nat.two_pow_pos _)
    have ih := ih (Nat.le_of_succ_le hm)
    rw [Function.iterate_succ_apply', toNat_indexDiff_nextIndex h ha hi (by omega), ih, Nat.sub_sub]

/-- No slot is pending exactly where the indices agree (R216). -/
theorem indexDiff_eq_zero_iff {P : Config.Params} (h : P.ringsOk = true) {a b : Word} (ha : a.toNat < 2 ^ P.idxW)
    (hb : b.toNat < 2 ^ P.idxW) : (indexDiff P a b).toNat = 0 ↔ b = a := by
  rw [toNat_indexDiff h ha hb, ← BitVec.toNat_inj]
  split <;> omega

/-! ### Slots (R201) -/

/-- The slot of an index is its remainder modulo the slot count. -/
theorem toNat_slotOf (i : Word) {n : Word} (h : PowerOfTwo n) : (slotOf i (n - 1#32)).toNat = i.toNat % n.toNat := by
  obtain ⟨k, hk, rfl⟩ := h
  have hn := toNat_one_shiftLeft hk
  have hle : 1#32 ≤ 1#32 <<< k := by
    rw [BitVec.le_def, hn]
    exact Nat.one_le_two_pow
  rw [slotOf, BitVec.toNat_and, BitVec.toNat_sub_of_le hle, hn]
  exact Nat.and_two_pow_sub_one_eq_mod _ _

/-- A slot count that is an index divides the number of indices. -/
theorem powerOfTwo_dvd {n : Word} (h : PowerOfTwo n) {w : Nat} (hw : n.toNat < 2 ^ w) : n.toNat ∣ 2 ^ w := by
  obtain ⟨k, hk, rfl⟩ := h
  rw [toNat_one_shiftLeft hk] at hw ⊢
  exact Nat.pow_dvd_pow 2 ((Nat.pow_lt_pow_iff_right (by omega)).1 hw).le

/-- Whether an index wraps at 2^IDX_W or at the width of a word, its slot is the same (R205). -/
theorem slotOf_iterate_nextIndex {P : Config.Params} (h : P.ringsOk = true) {i n : Word} (hi : i.toNat < 2 ^ P.idxW)
    (hn : PowerOfTwo n) (hw : n.toNat < 2 ^ P.idxW) (m : Nat) :
    slotOf ((nextIndex P)^[m] i) (n - 1#32) = slotOf (i + BitVec.ofNat 32 m) (n - 1#32) := by
  have hword : n.toNat ∣ 2 ^ 32 := powerOfTwo_dvd hn n.isLt
  apply BitVec.eq_of_toNat_eq
  rw [toNat_slotOf _ hn, toNat_slotOf _ hn, toNat_iterate_nextIndex h hi, Nat.mod_mod_of_dvd _ (powerOfTwo_dvd hn hw),
    BitVec.toNat_add, Nat.mod_mod_of_dvd _ hword, BitVec.toNat_ofNat]
  exact (Nat.ModEq.add_left _ (Nat.mod_mod_of_dvd m hword)).symm

/-! ### The descriptors of a ring that is set (R42, R201, R206) -/

/-- The address of the descriptor of an index (R201). -/
def State.descOf (s : State) (index : Word) : Word :=
  descAddr s.params (s.reg .txBase) (slotOf index (s.reg .txMask))

theorem ctlAddress_eq_descWord (s : State) (index : Word) :
    ctlAddress s index = descWord s.params (s.descOf index) 3 := rfl

section
variable {s : State} (hok : s.params.ringsOk = true) (hset : RingSet s) (index : Word)

include hset in
theorem slotOf_lt_of_ringSet : (slotOf index (s.reg .txMask)).toNat < (s.reg .txN).toNat := by
  obtain ⟨⟨-, -, hn⟩, hmask, -⟩ := hset
  exact hmask ▸ slotOf_lt index hn

include hok hset

theorem slotGeometry_descOf : SlotGeometry s.params (s.descOf index) := by
  obtain ⟨⟨halign, hfits, -⟩, -⟩ := id hset
  exact slotGeometry_descAddr hok halign hfits (slotOf_lt_of_ringSet hset index)

theorem descOf_eq :
    s.descOf index = s.reg .txBase + BitVec.ofNat 32 s.params.descSpan * slotOf index (s.reg .txMask) := by
  obtain ⟨⟨-, hfits, -⟩, -⟩ := id hset
  exact descAddr_eq hok hfits (slotOf_lt_of_ringSet hset index)

theorem ctlAddress_eq : ctlAddress s index =
    s.reg .txBase + BitVec.ofNat 32 s.params.descSpan * slotOf index (s.reg .txMask) + 12#32 := by
  rw [ctlAddress_eq_descWord, descWord_eq hok (slotGeometry_descOf hok hset index) (by decide), descOf_eq hok hset]

theorem accessible_ctlAddress : accessible s.params (ctlAddress s index) = true :=
  accessible_descWord hok (slotGeometry_descOf hok hset index) (by decide)

/-- Successive indices pass the ring's slots in order, across the wrap of the index (R205). -/
theorem slotOf_iterate_txMask {i : Word} (hi : i.toNat < 2 ^ s.params.idxW) (m : Nat) :
    slotOf ((nextIndex s.params)^[m] i) (s.reg .txMask) = slotOf (i + BitVec.ofNat 32 m) (s.reg .txMask) := by
  obtain ⟨⟨-, hfits, hn⟩, hmask, -⟩ := hset
  rw [hmask]
  exact slotOf_iterate_nextIndex hok hi hn (slotCount_lt hok hfits) m

end

end Sys2Proof.Machine
end

section
/-! SEQ's turns inside the operations of the TX ring, put together into the runs of R206, R208, R210 and R215. -/

namespace Sys2Proof.Machine

/-! ### One turn: where SEQ stood before plays no part in the step from a position -/

theorem seqTurn_txSetdesc (s : State) (k : SetdescPos) (base n : Word) :
    seqTurn (s.goto (.txSetdesc k base n)) = setdescStep k base n s := by
  cases k <;> rfl

theorem seqTurn_txPut (s : State) (k : PutPos) (buf len : Word) :
    seqTurn (s.goto (.txPut k buf len)) = putStep k buf len s := by
  cases k <;> rfl

theorem seqTurn_txUpdate (s : State) (k : UpdatePos) : seqTurn (s.goto (.txUpdate k)) = updateStep k s := by
  cases k <;> rfl

theorem exec_txPut_start {s : State} (hq : s.seq = .idle) (hv : s.txValid = true)
    (hlen : (s.reg .arg1).toNat ≤ 16383) :
    exec .txPut s = .next (s.goto (.txPut .tail (s.reg .arg0) (s.reg .arg1))) := by
  have hok : lenOk (s.reg .arg1) = true := decide_eq_true hlen
  simp [exec, execTxPut, hq, hv, hok]

theorem exec_txUpdate_start {s : State} (hq : s.seq = .idle) (hv : s.txValid = true) :
    exec .txUpdate s = .next (s.goto (.txUpdate .headCur)) := by
  simp [exec, execTxUpdate, hq, hv]

/-! ### TX.SETDESC (R206) -/

/-- The registers TX.SETDESC writes before TX_VALID. -/
def State.programmed (s : State) (base n : Word) : State :=
  (((((((s.setReg .txBase base).setReg .txN n).setReg .txMask (n - 1#32)).setReg .txTail 0#32).setReg .txCur
    0#32).setReg .txRingBase base).setReg .txRingLen (n - 1#32)).setReg .txTailPtr base

theorem playSeq_setdesc (s : State) (base n : Word) :
    playSeq 9 (s.goto (.txSetdesc .base base n)) =
      toReturn .txSetdesc (some n) none (s.programmed base n).setTxValid := by
  iterate 8 rw [playSeq_succ ((seqTurn_txSetdesc _ _ base n).trans rfl)]
  exact (playSeq_one _).trans (seqTurn_txSetdesc _ _ base n)

theorem keepsRegsBut_programmed (s : State) (base n : Word) :
    KeepsRegsBut [.txBase, .txN, .txMask, .txTail, .txCur, .txRingBase, .txRingLen, .txTailPtr, .init] s
      (s.programmed base n).setTxValid := by
  unfold State.programmed State.setTxValid
  repeat refine keepsRegsBut_setReg (by decide) ?_
  exact keepsRegsBut_refl _ s

theorem mem_programmed (s : State) (base n : Word) : (s.programmed base n).setTxValid.mem = s.mem := by
  simp only [State.programmed, State.setTxValid, State.mem_setReg]

theorem keepsAround_programmed (s : State) (base n : Word) : KeepsAround s (s.programmed base n).setTxValid := by
  simp [State.programmed, State.setTxValid]

/-- Settles O35: the refusals in the rule's order, and otherwise the nine writes and the return. -/
theorem setdescProgramsTheRing : Obligations.SetdescProgramsTheRing := by
  unfold Obligations.SetdescProgramsTheRing
  intro s hq base n
  split_ifs with hl ha hf
  · exact exec_txSetdesc_of_empty hq hl
  · exact exec_txSetdesc_of_misaligned hq hl (decide_eq_false ha)
  · exact exec_txSetdesc_of_not_fits hq hl (descAligned_iff.2 (not_not.1 ha)) (decide_eq_false (Nat.not_lt.2 hf))
  · have hstart :=
      exec_txSetdesc_start hq hl (descAligned_iff.2 (not_not.1 ha)) (fitsBelow_iff.2 (Nat.not_le.1 hf))
    have hrun := play_return rfl (playSeq_setdesc s base n)
    obtain ⟨hregs, hmem⟩ :=
      keeps_endOperation (keepsRegsBut_programmed s base n) (mem_programmed s base n) 0#32 (some n) none none
    obtain ⟨houtside, hgrants⟩ := keepsAround_endOperation (c := 0#32) (x := some n) (y := none) (z := none).2
      (keepsAround_programmed s base n)
    refine ⟨_, _, hstart, nofun, hrun, rfl, ?_, ?_, ?_, ?_, ?_, ?_, ?_, ?_, ?_, ?_, ?_, ?_, hregs, hmem,
      houtside, hgrants⟩
    all_goals simp [EndsWith, State.programmed, State.setTxValid, State.txValid, State.rxValid]

end Sys2Proof.Machine
end

section
/-! TX.PUT (R208 to R210, R213): its two signals, and the run that hands a slot to DMA. -/

namespace Sys2Proof.Machine

/-! ### Words and surroundings after an update -/

theorem State.word_congr {s t : State} (h : t.mem = s.mem) (a : Word) : t.word a = s.word a := by
  rw [State.word, State.word, h]

@[simp] theorem keepsOutside_refl (s : State) : KeepsOutside s s := ⟨rfl, rfl, rfl, rfl⟩
@[simp] theorem keepsOutside_setReg {s t : State} {r : Reg} {v : Word} :
    KeepsOutside s (t.setReg r v) ↔ KeepsOutside s t := Iff.rfl
@[simp] theorem keepsOutside_setWord {s t : State} {a v : Word} :
    KeepsOutside s (t.setWord a v) ↔ KeepsOutside s t := Iff.rfl
@[simp] theorem keepsOutside_grantTx {s t : State} {a : Word} :
    KeepsOutside s (t.grantTx a) ↔ KeepsOutside s t := Iff.rfl
@[simp] theorem keepsOutside_endOperation {s t : State} {c : Word} {x y z : Option Word} :
    KeepsOutside s (t.endOperation c x y z) ↔ KeepsOutside s t := by
  simp only [KeepsOutside, State.present_endOperation, State.phyRegs_endOperation, State.params_endOperation,
    State.agenda_endOperation]

/-! ### The slot and the OWN test (R201, R208, R209) -/

theorem playSeq_put_slot (s : State) (buf len : Word) :
    playSeq 3 (s.goto (.txPut .tail buf len)) = .next (s.goto
      (.txPut (.readOwn (slotOf (s.reg .txTail) (s.reg .txMask)) (s.descOf (s.reg .txTail))) buf len)) := by
  iterate 2 rw [playSeq_succ ((seqTurn_txPut _ _ buf len).trans rfl)]
  exact (playSeq_one _).trans (seqTurn_txPut _ _ buf len)

section
variable {s : State} {slot d buf len : Word} (ha : accessible s.params (descWord s.params d 3) = true)
include ha

theorem seqTurn_put_of_owned (ho : own (s.word (descWord s.params d 3)) = true) :
    seqTurn (s.goto (.txPut (.readOwn slot d) buf len)) = toRaise .txPut .slotBusy s := by
  rw [seqTurn_txPut, putStep, State.memRead_of_accessible ha, if_pos ho]

theorem seqTurn_put_of_free (ho : own (s.word (descWord s.params d 3)) = false) :
    seqTurn (s.goto (.txPut (.readOwn slot d) buf len)) = .next (s.goto (.txPut (.capN slot d) buf len)) := by
  rw [seqTurn_txPut, putStep, State.memRead_of_accessible ha, if_neg (ne_true_of_eq_false ho)]

end

/-! ### The capacity test (R208, R211, R212) -/

section
variable {s : State} {slot d buf len : Word}

theorem seqTurn_put_of_single (hn : ¬ 1 < (s.reg .txN).toNat) :
    seqTurn (s.goto (.txPut (.capN slot d) buf len)) = .next (s.goto (.txPut (.writeBuf slot d) buf len)) := by
  rw [seqTurn_txPut, putStep, if_neg hn]

/-- A ring of more than one slot has its pending count compared with its slot count. -/
theorem playSeq_put_pending (hn : 1 < (s.reg .txN).toNat) :
    playSeq 4 (s.goto (.txPut (.capN slot d) buf len)) = putStep (.capEq slot d s.txPending) buf len s := by
  have hcap : seqTurn (s.goto (.txPut (.capN slot d) buf len)) = .next (s.goto (.txPut (.capTail slot d) buf len)) := by
    rw [seqTurn_txPut, putStep, if_pos hn]
  rw [playSeq_succ hcap]
  iterate 2 rw [playSeq_succ ((seqTurn_txPut _ _ buf len).trans rfl)]
  exact (playSeq_one _).trans (seqTurn_txPut _ _ buf len)

theorem playSeq_put_full (hn : 1 < (s.reg .txN).toNat) (hfull : s.txPending = s.reg .txN) :
    playSeq 4 (s.goto (.txPut (.capN slot d) buf len)) = toRaise .txPut .ringFull s := by
  rw [playSeq_put_pending hn, putStep, if_pos hfull]

theorem playSeq_put_capacity (hfull : s.ringFull = false) :
    playSeq (1 + if 1 < (s.reg .txN).toNat then 3 else 0) (s.goto (.txPut (.capN slot d) buf len)) =
      .next (s.goto (.txPut (.writeBuf slot d) buf len)) := by
  split
  · rename_i hn
    have hne : s.txPending ≠ s.reg .txN := fun he => by simp [State.ringFull, hn, he] at hfull
    rw [playSeq_put_pending hn, putStep, if_neg hne]
  · exact (playSeq_one _).trans (seqTurn_put_of_single ‹_›)

end

/-! ### The three words of the descriptor (R104, R213) -/

/-- The descriptor at `d` as TX.PUT writes it: the buffer, the length, and OWN, LD and FD. -/
def State.withTxDesc (s : State) (d buf len : Word) : State :=
  ((s.setWord (descWord s.params d 0) buf).setWord (descWord s.params d 2) (txLenWord len)).setWord
    (descWord s.params d 3) txCtl

@[simp] theorem State.reg_withTxDesc (s : State) (d buf len : Word) (r : Reg) :
    (s.withTxDesc d buf len).reg r = s.reg r := rfl
@[simp] theorem State.params_withTxDesc (s : State) (d buf len : Word) :
    (s.withTxDesc d buf len).params = s.params := rfl

theorem playSeq_put_words {s : State} {slot d buf len : Word}
    (ha : ∀ k < 4, accessible s.params (descWord s.params d k) = true) :
    playSeq 3 (s.goto (.txPut (.writeBuf slot d) buf len)) =
      .next ((s.withTxDesc d buf len).goto (.txPut (tailPtrStart s.params slot d) buf len)) := by
  set u := s.setWord (descWord s.params d 0) buf
  set v := u.setWord (descWord s.params d 2) (txLenWord len)
  have hbuf : seqTurn (s.goto (.txPut (.writeBuf slot d) buf len)) =
      .next (u.goto (.txPut (.writeLen slot d) buf len)) := by
    rw [seqTurn_txPut, putStep, State.memWrite_of_accessible (ha 0 (by decide))]
  have hlen : seqTurn (u.goto (.txPut (.writeLen slot d) buf len)) =
      .next (v.goto (.txPut (.writeCtl slot d) buf len)) := by
    rw [seqTurn_txPut, putStep]
    exact State.memWrite_of_accessible (s := u) (ha 2 (by decide)) _ _
  rw [playSeq_succ hbuf, playSeq_succ hlen, playSeq_one, seqTurn_txPut, putStep]
  exact State.memWrite_of_accessible (s := v) (ha 3 (by decide)) _ _

section
variable {s : State} {d : Word} (hok : s.params.ringsOk = true) (hd : SlotGeometry s.params d) (buf len : Word)
include hok hd

theorem word_withTxDesc_buf : (s.withTxDesc d buf len).word d = buf := by
  have h0 : descWord s.params d 0 = d := (descWord_eq hok hd (by decide)).trans (BitVec.add_zero d)
  have h2 := toNat_descWord hok hd (show 2 < 4 by decide)
  have h3 := toNat_descWord hok hd (show 3 < 4 by decide)
  rw [State.withTxDesc, h0, State.word_setWord_of_disjoint _ _ (by omega),
    State.word_setWord_of_disjoint _ _ (by omega), State.word_setWord]

theorem word_withTxDesc_len : (s.withTxDesc d buf len).word (d + 8#32) = txLenWord len := by
  have h2 := toNat_descWord hok hd (show 2 < 4 by decide)
  have h3 := toNat_descWord hok hd (show 3 < 4 by decide)
  have h8 : descWord s.params d 2 = d + 8#32 := descWord_eq hok hd (by decide)
  rw [State.withTxDesc, ← h8, State.word_setWord_of_disjoint _ _ (by omega), State.word_setWord]

theorem word_withTxDesc_ctl : (s.withTxDesc d buf len).word (d + 12#32) = 0xB0000000#32 := by
  have h12 : descWord s.params d 3 = d + 12#32 := descWord_eq hok hd (by decide)
  rw [State.withTxDesc, ← h12, State.word_setWord]
  rfl

theorem read_withTxDesc_of_outside {a : Nat} (h0 : a < d.toNat ∨ d.toNat + 4 ≤ a)
    (h8 : a < d.toNat + 8 ∨ d.toNat + 16 ≤ a) : (s.withTxDesc d buf len).mem.read a = s.mem.read a := by
  simp only [State.withTxDesc, State.mem_setWord, toNat_descWord hok hd (show 0 < 4 by decide),
    toNat_descWord hok hd (show 2 < 4 by decide), toNat_descWord hok hd (show 3 < 4 by decide)]
  iterate 3 rw [Memory.read_writeWord_of_outside _ _ (by omega)]

/-- The three writes end the grants of the three words and of no other. -/
theorem keepsGrantsBut_withTxDesc : KeepsGrantsBut [d, d + 8#32, d + 12#32] s (s.withTxDesc d buf len) := by
  have h0 : descWord s.params d 0 = d := (descWord_eq hok hd (by decide)).trans (BitVec.add_zero d)
  have h8 : descWord s.params d 2 = d + 8#32 := descWord_eq hok hd (by decide)
  have h12 : descWord s.params d 3 = d + 12#32 := descWord_eq hok hd (by decide)
  intro a ha
  simp only [List.mem_cons, List.not_mem_nil, or_false, not_or] at ha
  simp [State.withTxDesc, h0, h8, h12, ha]

end

/-! ### The tail pointer (R210, R222) -/

/-- TX_TAIL_PTR written for the slot, which hands its descriptor to DMA. -/
def State.handedOver (s : State) (slot d : Word) : State :=
  (s.setReg .txTailPtr (txTailPtrAfter s.params (tailWraps s.params (s.reg .txN) slot) (s.reg .txBase) slot)).grantTx
    (descWord s.params d 3)

@[simp] theorem State.isGrantedTx_handedOver (s : State) (slot d a : Word) :
    (s.handedOver slot d).isGrantedTx a = (decide (a = descWord s.params d 3) || s.isGrantedTx a) :=
  State.isGrantedTx_grantTx _ _ a

theorem State.reg_handedOver (s : State) (slot d : Word) : (s.handedOver slot d).reg .txTailPtr =
    txTailPtrAfter s.params (tailWraps s.params (s.reg .txN) slot) (s.reg .txBase) slot := by
  simp [State.handedOver]

theorem keepsRegsBut_handedOver (s : State) (slot d : Word) : KeepsRegsBut [.txTailPtr] s (s.handedOver slot d) :=
  keepsRegsBut_setReg (List.mem_singleton_self _) (keepsRegsBut_refl _ s)

theorem playSeq_put_tailPtr (s : State) (slot d buf len : Word) :
    playSeq (2 + if s.params.txTailWrap then 1 else 0) (s.goto (.txPut (tailPtrStart s.params slot d) buf len)) =
      .next ((s.handedOver slot d).goto (.txPut (.incTail slot d) buf len)) := by
  rw [tailPtrStart]
  split
  · rw [playSeq_succ ((seqTurn_txPut _ _ buf len).trans rfl), playSeq_succ ((seqTurn_txPut _ _ buf len).trans rfl)]
    exact (playSeq_one _).trans (seqTurn_txPut _ _ buf len)
  · have hwraps : tailWraps s.params (s.reg .txN) slot = false := by simp_all [tailWraps]
    rw [playSeq_succ ((seqTurn_txPut _ _ buf len).trans rfl), State.handedOver, hwraps]
    exact (playSeq_one _).trans (seqTurn_txPut _ _ buf len)

theorem tailWraps_iff {P : Config.Params} {n slot : Word} :
    tailWraps P n slot = true ↔ P.txTailWrap = true ∧ slot + 1#32 = n := by
  simp [tailWraps]

/-- Settles O38: the reads of TailPtr and the write, with its two cases. -/
theorem putTailPointer : Obligations.PutTailPointer := by
  unfold Obligations.PutTailPointer
  intro s buf len slot d hwf hq
  have hok := ringsOk_of_wellFormed hwf
  have hplay := playSeq_put_tailPtr s slot d buf len
  have hstart : s.goto (.txPut (tailPtrStart s.params slot d) buf len) = s := State.goto_seq hq
  rw [hstart] at hplay
  refine ⟨_, (congrArg (playSeq · s) ?_).trans hplay, keepsRegsBut_handedOver s slot d, ?_, fun a ha => ?_, rfl,
    fun hwrap hlast => ?_, fun hnot => ?_⟩
  · split <;> rfl
  · simp
  · simp [ha]
  · rw [State.reg_goto, State.reg_handedOver, txTailPtrAfter, if_pos (tailWraps_iff.2 ⟨hwrap, hlast⟩)]
  · have hwraps : ¬ tailWraps s.params (s.reg .txN) slot = true := by
      rw [tailWraps_iff]
      rintro ⟨hwrap, hlast⟩
      simp_all
    rw [State.reg_goto, State.reg_handedOver, txTailPtrAfter, if_neg hwraps, descAddr, toNat_addAddr hok]

/-! ### The two signals (R209, R263, R264) -/

/-- The end of a TX.PUT that raises writes nothing else. -/
theorem keeps_raise (s : State) (k : Raise) :
    KeepsRegsBut endRegs s (s.endOperation k.code none none k.info) ∧
      KeepsMemory s (s.endOperation k.code none none k.info) ∧
      KeepsAround s (s.endOperation k.code none none k.info) := by
  obtain ⟨hregs, hmem⟩ := keeps_endOperation (keepsRegsBut_refl [] s) rfl k.code none none k.info
  exact ⟨hregs, hmem, keepsAround_endOperation.2 (keepsAround_refl s)⟩

/-- Settles O37: the OWN test raises first, and where it does not the capacity test does. -/
theorem putSignals : Obligations.PutSignals := by
  unfold Obligations.PutSignals
  intro s hwf hq hv hset hlen owned full hsignal
  have hok := ringsOk_of_wellFormed hwf
  have ha : accessible s.params (descWord s.params (s.descOf (s.reg .txTail)) 3) = true :=
    accessible_ctlAddress hok hset _
  have hslot := playSeq_put_slot s (s.reg .arg0) (s.reg .arg1)
  by_cases ho : owned = true
  · have hrun : playSeq 4 (s.goto (.txPut .tail (s.reg .arg0) (s.reg .arg1))) = toRaise .txPut .slotBusy s := by
      rw [playSeq_add (n := 1) hslot, playSeq_one, seqTurn_put_of_owned ha ho]
    obtain ⟨hregs, hmem, houtside, hgrants⟩ := keeps_raise s .slotBusy
    rw [if_pos ho, if_pos ho]
    refine ⟨_, _, exec_txPut_start hq hv hlen, play_raise rfl hrun, rfl, ?_, hregs, hmem, houtside, hgrants⟩
    simp [EndsWith, Raise.code]
  · obtain ⟨hn, hpending⟩ := hsignal.resolve_left ho
    have hrun : playSeq 8 (s.goto (.txPut .tail (s.reg .arg0) (s.reg .arg1))) = toRaise .txPut .ringFull s := by
      rw [playSeq_add (n := 5) hslot, playSeq_succ (seqTurn_put_of_free ha (Bool.eq_false_of_not_eq_true ho)),
        playSeq_put_full hn hpending]
    obtain ⟨hregs, hmem, houtside, hgrants⟩ := keeps_raise s .ringFull
    rw [if_neg ho, if_neg ho]
    refine ⟨_, _, exec_txPut_start hq hv hlen, play_raise rfl hrun, rfl, ?_, hregs, hmem, houtside, hgrants⟩
    simp [EndsWith, Raise.code]

/-! ### The whole operation (R208, R213) -/

/-- A TX.PUT up to its return: the descriptor, the tail pointer and the producer index written. -/
def State.put (s : State) (buf len : Word) : State :=
  ((s.withTxDesc (s.descOf (s.reg .txTail)) buf len).handedOver (slotOf (s.reg .txTail) (s.reg .txMask))
    (s.descOf (s.reg .txTail))).setReg .txTail (nextIndex s.params (s.reg .txTail))

theorem playSeq_put {s : State} (hok : s.params.ringsOk = true) (hset : RingSet s)
    (ho : own (s.word (ctlAddress s (s.reg .txTail))) = false) (hfull : s.ringFull = false) (buf len : Word) :
    playSeq (putSteps s) (s.goto (.txPut .tail buf len)) = .next ((s.put buf len).endOperation 0#32
      (some (s.descOf (s.reg .txTail))) (some (slotOf (s.reg .txTail) (s.reg .txMask))) none) := by
  set slot := slotOf (s.reg .txTail) (s.reg .txMask)
  set d := s.descOf (s.reg .txTail)
  set u := (s.withTxDesc d buf len).handedOver slot d
  have ha : ∀ k < 4, accessible s.params (descWord s.params d k) = true := fun k hk =>
    accessible_descWord hok (slotGeometry_descOf hok hset _) hk
  have hadvance : playSeq 2 (u.goto (.txPut (.incTail slot d) buf len)) =
      toReturn .txPut (some d) (some slot) (s.put buf len) := by
    rw [playSeq_succ ((seqTurn_txPut _ _ buf len).trans rfl)]
    exact (playSeq_one _).trans (seqTurn_txPut _ _ buf len)
  have hsteps : putSteps s = 3 + (1 + ((1 + if 1 < (s.reg .txN).toNat then 3 else 0) +
      (3 + ((2 + if s.params.txTailWrap then 1 else 0) + (2 + 1))))) := by
    rw [putSteps]
    omega
  have hptr := playSeq_put_tailPtr (s.withTxDesc d buf len) slot d buf len
  rw [State.params_withTxDesc] at hptr
  rw [hsteps, playSeq_add (playSeq_put_slot s buf len),
    playSeq_add ((playSeq_one _).trans (seqTurn_put_of_free (ha 3 (by decide)) ho)),
    playSeq_add (playSeq_put_capacity hfull), playSeq_add (playSeq_put_words ha), playSeq_add hptr]
  exact play_return rfl hadvance

/-- The address just past a slot of the ring, the last one included (R206, R210). -/
theorem descAddr_succ {s : State} (hok : s.params.ringsOk = true) (hset : RingSet s) (index : Word) :
    descAddr s.params (s.reg .txBase) (slotOf index (s.reg .txMask) + 1#32) =
      s.reg .txBase + BitVec.ofNat 32 s.params.descSpan * (slotOf index (s.reg .txMask) + 1#32) := by
  obtain ⟨⟨-, hfits, -⟩, -⟩ := id hset
  have hlt := slotOf_lt_of_ringSet hset index
  have hle := Nat.mul_le_mul_left s.params.descSpan (Nat.succ_le_of_lt hlt)
  have hsucc : (slotOf index (s.reg .txMask) + 1#32).toNat = (slotOf index (s.reg .txMask)).toNat + 1 := by
    rw [BitVec.toNat_add]
    exact Nat.mod_eq_of_lt (lt_of_le_of_lt hlt (s.reg .txN).isLt)
  have hbelow := fitsBelow_iff.1 hfits
  rw [descAddr, addAddr_of_lt hok (by rw [hsucc]; exact lt_of_le_of_lt (Nat.add_le_add_left hle _) hbelow)]
  congr 1
  rw [← BitVec.toNat_inj, BitVec.toNat_ofNat, BitVec.toNat_mul, BitVec.toNat_ofNat, Nat.mod_mul_mod]

section
variable (s : State) (buf len : Word)

theorem mem_put : (s.put buf len).mem = (s.withTxDesc (s.descOf (s.reg .txTail)) buf len).mem := rfl

theorem keepsRegsBut_put : KeepsRegsBut [.txTailPtr, .txTail] s (s.put buf len) :=
  keepsRegsBut_setReg (by decide) fun r hr =>
    keepsRegsBut_handedOver (s.withTxDesc _ buf len) _ _ r fun hptr => hr (by rw [List.mem_singleton.1 hptr]; decide)

theorem keepsOutside_put : KeepsOutside s (s.put buf len) := by
  simp [State.put, State.handedOver, State.withTxDesc]

theorem reg_txTail_put : (s.put buf len).reg .txTail = nextIndex s.params (s.reg .txTail) := by
  simp [State.put]

theorem reg_txTailPtr_put (hok : s.params.ringsOk = true) (hset : RingSet s) :
    (s.put buf len).reg .txTailPtr =
      if s.params.txTailWrap = true ∧ slotOf (s.reg .txTail) (s.reg .txMask) + 1#32 = s.reg .txN then s.reg .txBase
      else s.reg .txBase + BitVec.ofNat 32 s.params.descSpan * (slotOf (s.reg .txTail) (s.reg .txMask) + 1#32) := by
  simp [State.put, State.reg_handedOver, txTailPtrAfter, tailWraps_iff, descAddr_succ hok hset]

/-- DMA may consume the descriptor put, and else what the writes of its words left it. -/
theorem isGrantedTx_put (a : Word) : (s.put buf len).isGrantedTx a =
    (decide (a = ctlAddress s (s.reg .txTail)) ||
      (s.withTxDesc (s.descOf (s.reg .txTail)) buf len).isGrantedTx a) := State.isGrantedTx_handedOver _ _ _ a

theorem isGrantedRx_put (a : Word) : (s.put buf len).isGrantedRx a =
    (s.withTxDesc (s.descOf (s.reg .txTail)) buf len).isGrantedRx a := rfl

theorem isGrantedRx_withTxDesc_ctl (d : Word) :
    (s.withTxDesc d buf len).isGrantedRx (descWord s.params d 3) = false := by
  simp [State.withTxDesc]

end

/-- Settles O36: the run to the end, and what each of its writes leaves. -/
theorem putHandsTheSlotOver : Obligations.PutHandsTheSlotOver := by
  unfold Obligations.PutHandsTheSlotOver
  intro s hwf hq hv hset hlen ho hfull slot d
  have hok := ringsOk_of_wellFormed hwf
  have hd : s.descOf (s.reg .txTail) = d := descOf_eq hok hset _
  have hgeo : SlotGeometry s.params d := hd ▸ slotGeometry_descOf hok hset _
  have h12 : descWord s.params d 3 = d + 12#32 := descWord_eq hok hgeo (by decide)
  have hlenWord : txLenWord (s.reg .arg1) = s.reg .arg1 := setWidth_field_of_lt (by omega)
  have hctl : ctlAddress s (s.reg .txTail) = d + 12#32 := ctlAddress_eq hok hset _
  have hrun := playSeq_put hok hset ho hfull (s.reg .arg0) (s.reg .arg1)
  set u := s.put (s.reg .arg0) (s.reg .arg1) with hu
  set w := s.withTxDesc d (s.reg .arg0) (s.reg .arg1)
  set t := u.endOperation 0#32 (some (s.descOf (s.reg .txTail))) (some (slotOf (s.reg .txTail) (s.reg .txMask))) none
    with ht
  have hmem : t.mem = w.mem := by rw [ht, State.mem_endOperation, hu, mem_put, hd]
  have htx (a : Word) : t.isGrantedTx a = (decide (a = d + 12#32) || w.isGrantedTx a) := by
    rw [ht, State.isGrantedTx_endOperation, hu, isGrantedTx_put, hctl, hd]
  have hrx (a : Word) : t.isGrantedRx a = w.isGrantedRx a := by
    rw [ht, State.isGrantedRx_endOperation, hu, isGrantedRx_put, hd]
  have hend : KeepsRegsBut endRegs u t := keepsRegsBut_return _ _ _
  refine ⟨_, t, exec_txPut_start hq hv hlen, nofun, hrun, rfl, ?_, ?_, ?_, ?_, ?_, ?_, fun a h0 h8 => ?_, ?_, ?_,
    ?_, ?_, fun a ha => ?_, keepsRegsBut_trans (keepsRegsBut_put s _ _) hend,
    keepsOutside_endOperation.2 (keepsOutside_put s _ _)⟩
  · simp [EndsWith, ht]
  · simp [ht, hd]
  · simp [ht, slot, slotOf]
  · rw [State.word_congr hmem, word_withTxDesc_buf hok hgeo]
  · rw [State.word_congr hmem, word_withTxDesc_len hok hgeo, hlenWord]
  · rw [State.word_congr hmem, word_withTxDesc_ctl hok hgeo]
  · rw [hmem, read_withTxDesc_of_outside hok hgeo _ _ h0 h8]
  · exact (hend .txTailPtr (by decide)).trans (reg_txTailPtr_put s _ _ hok hset)
  · rw [hend .txTail (by decide), hu, reg_txTail_put, toNat_nextIndex hok]
  · simp [htx]
  · rw [hrx, ← h12, isGrantedRx_withTxDesc_ctl]
  · have hne : a ≠ d + 12#32 := by simp_all
    obtain ⟨hwtx, hwrx⟩ := keepsGrantsBut_withTxDesc hok hgeo (s.reg .arg0) (s.reg .arg1) a ha
    exact ⟨by simpa [htx, hne] using hwtx, (hrx a).trans hwrx⟩

end Sys2Proof.Machine
end

section
/-! TX.UPDATE reclaims the completed slots in order (R215, R216). -/

namespace Sys2Proof.Machine

/-! ### Writes of one register -/

@[simp] theorem State.setReg_reg (s : State) (r : Reg) : s.setReg r (s.reg r) = s := by
  cases r <;> rfl

@[simp] theorem State.setReg_setReg (s : State) (r : Reg) (v w : Word) : (s.setReg r v).setReg r w = s.setReg r w := by
  cases r <;> rfl

/-! ### The loop (R215) -/

section
variable {s : State} (hok : s.params.ringsOk = true) (hset : RingSet s)

/-- The reads of the loop's test. -/
theorem playSeq_update_test (s : State) : playSeq 2 (s.goto (.txUpdate .headCur)) =
    .next (s.goto (.txUpdate (if s.reg .txCur = s.reg .txTail then .retTail else .slotCur))) := by
  rw [playSeq_succ ((seqTurn_txUpdate _ _).trans rfl)]
  exact (playSeq_one _).trans (seqTurn_txUpdate _ _)

include hok hset in
/-- The loop's test and its read of word 3 of a pending slot. -/
theorem playSeq_update_examine (hne : s.reg .txCur ≠ s.reg .txTail) : playSeq 6 (s.goto (.txUpdate .headCur)) =
    .next (s.goto (.txUpdate (if own (s.word (ctlAddress s (s.reg .txCur))) then .retTail else .incCur))) := by
  have htest := playSeq_update_test s
  rw [if_neg hne] at htest
  rw [playSeq_add (n := 4) htest]
  iterate 3 rw [playSeq_succ ((seqTurn_txUpdate _ _).trans rfl)]
  rw [playSeq_one, seqTurn_txUpdate, updateStep]
  exact State.memRead_of_accessible (accessible_ctlAddress hok hset _) _

include hok hset in
/-- One iteration passes a slot that is pending and no longer owned. -/
theorem playSeq_update_reclaim (hne : s.reg .txCur ≠ s.reg .txTail)
    (ho : own (s.word (ctlAddress s (s.reg .txCur))) = false) : playSeq 8 (s.goto (.txUpdate .headCur)) =
    .next ((s.setReg .txCur (nextIndex s.params (s.reg .txCur))).goto (.txUpdate .headCur)) := by
  have hexamine := playSeq_update_examine hok hset hne
  rw [if_neg (ne_true_of_eq_false ho)] at hexamine
  rw [playSeq_add (n := 2) hexamine, playSeq_succ ((seqTurn_txUpdate _ _).trans rfl)]
  exact (playSeq_one _).trans (seqTurn_txUpdate _ _)

/-- The reads of RES0 and RES1. -/
theorem playSeq_update_results (s : State) : playSeq 4 (s.goto (.txUpdate .retTail)) =
    toReturn .txUpdate (some s.txPending) (some (slotOf (s.reg .txCur) (s.reg .txMask))) s := by
  iterate 3 rw [playSeq_succ ((seqTurn_txUpdate _ _).trans rfl)]
  exact (playSeq_one _).trans (seqTurn_txUpdate _ _)

end

/-! ### Every iteration (R216) -/

/-- The state after TX.UPDATE has passed `m` slots. -/
def State.reclaimed (s : State) (m : Nat) : State := s.setReg .txCur ((nextIndex s.params)^[m] (s.reg .txCur))

theorem State.reclaimed_succ (s : State) (m : Nat) : s.reclaimed (m + 1) =
    (s.reclaimed m).setReg .txCur (nextIndex (s.reclaimed m).params ((s.reclaimed m).reg .txCur)) := by
  simp [State.reclaimed, Function.iterate_succ_apply']

section
variable {s : State} (hok : s.params.ringsOk = true) (hset : RingSet s) {m : Nat}
include hok hset

theorem toNat_txPending_reclaimed (hm : m ≤ s.txPending.toNat) :
    (s.reclaimed m).txPending.toNat = s.txPending.toNat - m := by
  obtain ⟨-, -, -, -, htail, hcur, -⟩ := hset
  simpa [State.reclaimed, State.txPending] using toNat_indexDiff_iterate hok htail hcur hm

theorem reg_txCur_reclaimed_eq_iff (hm : m ≤ s.txPending.toNat) :
    (s.reclaimed m).reg .txCur = (s.reclaimed m).reg .txTail ↔ m = s.txPending.toNat := by
  obtain ⟨-, -, -, -, htail, hcur, -⟩ := id hset
  have hlt : ((nextIndex s.params)^[m] (s.reg .txCur)).toNat < 2 ^ s.params.idxW := by
    rw [toNat_iterate_nextIndex hok hcur]
    exact Nat.mod_lt _ (Nat.two_pow_pos _)
  have hzero := indexDiff_eq_zero_iff hok htail hlt
  rw [toNat_indexDiff_iterate hok htail hcur hm, Nat.sub_eq_zero_iff_le] at hzero
  simp only [State.reclaimed, State.reg_setReg, if_true, reduceCtorEq, if_false]
  exact hzero.symm.trans ⟨hm.antisymm, Eq.ge⟩

theorem reg_txCur_reclaimed_ne (hm : m < s.txPending.toNat) :
    (s.reclaimed m).reg .txCur ≠ (s.reclaimed m).reg .txTail :=
  (reg_txCur_reclaimed_eq_iff hok hset hm.le).not.2 hm.ne

theorem slotOf_reclaimed : slotOf ((s.reclaimed m).reg .txCur) (s.reg .txMask) =
    slotOf (s.reg .txCur + BitVec.ofNat 32 m) (s.reg .txMask) := by
  obtain ⟨-, -, -, -, -, hcur, -⟩ := id hset
  simpa [State.reclaimed] using slotOf_iterate_txMask hok hset hcur m

theorem word_ctlAddress_reclaimed : (s.reclaimed m).word (ctlAddress (s.reclaimed m) ((s.reclaimed m).reg .txCur)) =
    s.word (ctlAddress s (s.reg .txCur + BitVec.ofNat 32 m)) := by
  rw [ctlAddress, ctlAddress, ← slotOf_reclaimed hok hset]
  rfl

theorem ringSet_reclaimed (hm : m ≤ s.txPending.toNat) : RingSet (s.reclaimed m) := by
  induction m with
  | zero => simpa [State.reclaimed] using hset
  | succ m ih =>
    rw [State.reclaimed_succ]
    exact ringSet_setReg_txCur hok (ih (Nat.le_of_succ_le hm)) (reg_txCur_reclaimed_ne hok hset hm)

theorem playSeq_update_loop (hm : m ≤ s.txPending.toNat)
    (ho : ∀ j < m, own (s.word (ctlAddress s (s.reg .txCur + BitVec.ofNat 32 j))) = false) :
    playSeq (8 * m) (s.goto (.txUpdate .headCur)) = .next ((s.reclaimed m).goto (.txUpdate .headCur)) := by
  induction m with
  | zero => simp [State.reclaimed, playSeq, play]
  | succ m ih =>
    have hfree := ho m m.lt_succ_self
    rw [← word_ctlAddress_reclaimed hok hset] at hfree
    rw [Nat.mul_succ, playSeq_add (ih (Nat.le_of_succ_le hm) fun j hj => ho j (Nat.lt_succ_of_lt hj)),
      State.reclaimed_succ]
    exact playSeq_update_reclaim hok (ringSet_reclaimed hok hset (Nat.le_of_succ_le hm))
      (reg_txCur_reclaimed_ne hok hset hm) hfree

/-- The loop stops at the first slot still owned, or where no slot is pending. -/
theorem playSeq_update_stop (hm : m ≤ s.txPending.toNat)
    (ho : m < s.txPending.toNat → own (s.word (ctlAddress s (s.reg .txCur + BitVec.ofNat 32 m))) = true) :
    playSeq (if m < s.txPending.toNat then 6 else 2) ((s.reclaimed m).goto (.txUpdate .headCur)) =
      .next ((s.reclaimed m).goto (.txUpdate .retTail)) := by
  split
  · rename_i hlt
    have howned := ho hlt
    rw [← word_ctlAddress_reclaimed hok hset] at howned
    rw [playSeq_update_examine (s := s.reclaimed m) hok (ringSet_reclaimed hok hset hm)
      (reg_txCur_reclaimed_ne hok hset hlt), if_pos howned]
  · have heq := (reg_txCur_reclaimed_eq_iff hok hset hm).2 (by omega)
    rw [playSeq_update_test, if_pos heq]

end

/-- Settles O39: the loop passes `m` slots and stops, and the results are read after it. -/
theorem updateReclaimsInOrder : Obligations.UpdateReclaimsInOrder := by
  unfold Obligations.UpdateReclaimsInOrder
  intro s m hwf hq hv hset pending hm hfree howned
  have hok := ringsOk_of_wellFormed hwf
  obtain ⟨-, -, -, -, -, hcur, -⟩ := id hset
  have hloop := playSeq_add (n := (if m < pending then 6 else 2) + 4) (playSeq_update_loop hok hset hm hfree)
  rw [playSeq_add (playSeq_update_stop hok hset hm howned), playSeq_update_results] at hloop
  have hrun := play_return rfl hloop
  rw [← List.replicate_succ', Nat.add_assoc, Nat.add_assoc, ← Nat.add_assoc] at hrun
  have hregs : KeepsRegsBut [.txCur] s (s.reclaimed m) :=
    keepsRegsBut_setReg (List.mem_singleton_self _) (keepsRegsBut_refl _ s)
  obtain ⟨hend, hmem⟩ := keeps_endOperation hregs rfl 0#32 (some (s.reclaimed m).txPending)
    (some (slotOf ((s.reclaimed m).reg .txCur) ((s.reclaimed m).reg .txMask))) none
  obtain ⟨houtside, hgrants⟩ := keepsAround_endOperation.2 (keepsAround_setReg.2 (keepsAround_refl s))
  refine ⟨_, _, exec_txUpdate_start hq hv, nofun, hrun, rfl, ?_, ?_, ?_, ?_, hend, hmem, houtside, hgrants⟩
  · simp [EndsWith]
  · simp [State.reclaimed, toNat_iterate_nextIndex hok hcur]
  · rw [← toNat_txPending_reclaimed hok hset hm]
    simp
  · refine Eq.trans ?_ (slotOf_reclaimed hok hset)
    simp [State.reclaimed]

end Sys2Proof.Machine
end

section
/-! DMA's completion of a TX descriptor (R222), and a put, its completion and an update in a row (R217). -/

namespace Sys2Proof.Machine

/-! ### DMA's completion (R222) -/

section
variable {s : State} {slot : Word}

/-- The word 3 that DMA's completion of a slot reads and writes. -/
def State.doneAddress (s : State) (slot : Word) : Word :=
  descWord s.params (descAddr s.params (s.reg .txRingBase) slot) 3

theorem dmaTxDone_of_not_granted
    (h : ¬ (slot.toNat < (s.reg .txRingLen).toNat + 1 ∧ s.isGrantedTx (s.doneAddress slot) = true)) :
    dmaTxDone slot s = .refused .notEnabled := if_neg h

theorem dmaTxDone_of_granted (hslot : slot.toNat < (s.reg .txRingLen).toNat + 1)
    (hgranted : s.isGrantedTx (s.doneAddress slot) = true) (ha : accessible s.params (s.doneAddress slot) = true) :
    dmaTxDone slot s = if own (s.word (s.doneAddress slot)) then
      .next (s.setWord (s.doneAddress slot) (clearOwn (s.word (s.doneAddress slot)))) else .refused .notEnabled := by
  have hwrite := State.memWrite_of_accessible ha (clearOwn (s.word (s.doneAddress slot))) .next
  have hread := State.memRead_of_accessible ha fun w3 =>
    if own w3 then s.memWrite (s.doneAddress slot) (clearOwn w3) .next else .refused .notEnabled
  rw [hwrite] at hread
  exact (if_pos ⟨hslot, hgranted⟩).trans hread

/-- The word 3 of a slot of the ring the registers name (R201, R222). -/
theorem doneAddress_eq (hok : s.params.ringsOk = true) (halign : descAligned s.params (s.reg .txRingBase) = true)
    (hfits : (s.reg .txRingBase).toNat + s.params.descSpan * ((s.reg .txRingLen).toNat + 1) < 2 ^ s.params.addrW)
    (hslot : slot.toNat < (s.reg .txRingLen).toNat + 1) :
    s.doneAddress slot = s.reg .txRingBase + BitVec.ofNat 32 s.params.descSpan * slot + 12#32 ∧
      accessible s.params (s.doneAddress slot) = true := by
  obtain ⟨-, haddr, -, -, -, -, hspan⟩ := (ringsOk_iff s.params).1 hok
  have hle : (s.reg .txRingLen).toNat + 1 ≤ s.params.descSpan * ((s.reg .txRingLen).toNat + 1) :=
    Nat.le_mul_of_pos_left _ (by omega)
  have hword : 2 ^ s.params.addrW ≤ 2 ^ 32 := Nat.pow_le_pow_right (by decide) haddr
  have hcount : (s.reg .txRingLen + 1#32).toNat = (s.reg .txRingLen).toNat + 1 := by
    rw [BitVec.toNat_add]
    exact Nat.mod_eq_of_lt (show (s.reg .txRingLen).toNat + 1 < 2 ^ 32 by omega)
  rw [← hcount] at hfits hslot
  have hgeo := slotGeometry_descAddr hok halign (fitsBelow_iff.2 hfits) hslot
  refine ⟨?_, accessible_descWord hok hgeo (by decide)⟩
  rw [State.doneAddress, descWord_eq hok hgeo (by decide), descAddr_eq hok (fitsBelow_iff.2 hfits) hslot]

end

/-- DMA's completion of a slot of a ring that is set, once it may consume it. -/
theorem dmaTxDone_of_ringSet {s : State} (hok : s.params.ringsOk = true) (hset : RingSet s) (index : Word)
    (hgranted : s.isGrantedTx (ctlAddress s index) = true) (ho : own (s.word (ctlAddress s index)) = true) :
    dmaTxDone (slotOf index (s.reg .txMask)) s =
      .next (s.setWord (ctlAddress s index) (clearOwn (s.word (ctlAddress s index)))) := by
  obtain ⟨-, -, hringBase, hringLen, -⟩ := id hset
  have haddr : s.doneAddress (slotOf index (s.reg .txMask)) = ctlAddress s index := by
    rw [State.doneAddress, hringBase]
    rfl
  have hslot : (slotOf index (s.reg .txMask)).toNat < (s.reg .txRingLen).toNat + 1 := by
    rw [hringLen, slotOf, BitVec.toNat_and]
    exact Nat.lt_succ_of_le Nat.and_le_right
  have hdone := dmaTxDone_of_granted hslot (haddr ▸ hgranted) (haddr ▸ accessible_ctlAddress hok hset index)
  rwa [haddr, if_pos ho] at hdone

/-- Settles O46: refused by its two tests, and else one word write. -/
theorem txDoneClearsOwnOnly : Obligations.TxDoneClearsOwnOnly := by
  unfold Obligations.TxDoneClearsOwnOnly
  intro s slot hwf halign hfits d w3 enabled
  have haddr (hslot : slot.toNat < (s.reg .txRingLen).toNat + 1) :
      s.doneAddress slot = d + 12#32 ∧ accessible s.params (s.doneAddress slot) = true :=
    doneAddress_eq (ringsOk_of_wellFormed hwf) halign hfits hslot
  refine ⟨fun hnot => ?_, fun ⟨hslot, hgranted, hown⟩ => ?_⟩
  · by_cases hg : slot.toNat < (s.reg .txRingLen).toNat + 1 ∧ s.isGrantedTx (s.doneAddress slot) = true
    · obtain ⟨heq, ha⟩ := haddr hg.1
      have hown : ¬ own (s.word (s.doneAddress slot)) = true := by
        rw [heq] at hg ⊢
        exact fun ho => hnot ⟨hg.1, hg.2, ho⟩
      rw [dmaTxDone_of_granted hg.1 hg.2 ha, if_neg hown]
    · exact dmaTxDone_of_not_granted hg
  · obtain ⟨heq, ha⟩ := haddr hslot
    rw [← heq] at hgranted
    have hdone := dmaTxDone_of_granted hslot hgranted ha
    rw [heq, if_pos hown] at hdone
    refine ⟨_, hdone, State.word_setWord s _ _, fun a => Memory.read_writeWord_of_outside _ _, fun _ _ => rfl, rfl,
      ⟨rfl, rfl, rfl, rfl⟩, ?_, fun a hne => ?_⟩
    · simp
    · have hne : a ≠ d + 12#32 := by simpa using hne
      simp [hne]

/-! ### A put, its completion and an update (R217) -/

theorem txPending_of_empty {s : State} (h : s.reg .txCur = s.reg .txTail) : s.txPending = 0#32 := by
  simp [State.txPending, h, indexDiff, truncTo]

/-- An empty ring is not at capacity. -/
theorem ringFull_of_empty {s : State} (h : s.reg .txCur = s.reg .txTail) : s.ringFull = false := by
  by_cases hn : 1 < (s.reg .txN).toNat
  · refine ringFull_eq_false_of_ne fun he => ?_
    rw [← he, txPending_of_empty h] at hn
    exact absurd hn (by decide)
  · exact ringFull_eq_false_of_single hn

/-- One step of the producer index past the consumer index makes one slot pending (R37, R205). -/
theorem toNat_indexDiff_nextIndex_self {P : Config.Params} (h : P.ringsOk = true) {i : Word}
    (hi : i.toNat < 2 ^ P.idxW) (hw : 1 < 2 ^ P.idxW) : (indexDiff P (nextIndex P i) i).toNat = 1 := by
  have hn := toNat_nextIndex_of_lt h hi
  rw [toNat_indexDiff h (nextIndex_lt h i) hi]
  split at hn <;> split <;> omega

/-- A ring not at capacity is still set once its producer index has advanced (R211). -/
theorem ringSet_of_advanced {s t : State} (hok : s.params.ringsOk = true) (hset : RingSet s)
    (hfull : s.ringFull = false) (hparams : t.params = s.params)
    (hregs : KeepsRegsBut (.opw :: .txTailPtr :: .txTail :: endRegs) s t)
    (htail : t.reg .txTail = nextIndex s.params (s.reg .txTail)) : RingSet t := by
  set u := s.setReg .txTailPtr (t.reg .txTailPtr) with hu
  have hsame : SameRing (u.setReg .txTail (nextIndex s.params (s.reg .txTail))) t := by
    refine ⟨hparams, fun r hr => ?_⟩
    rw [hu, State.reg_setReg, State.reg_setReg]
    split_ifs with h1 h2
    · rw [h1, htail]
    · rw [h2]
    · refine hregs r ?_
      revert r
      decide
  exact hsame.ringSet.2 (ringSet_setReg_txTail (s := u) hok hset hfull)

theorem State.word_of_keepsMemory {s t : State} (h : KeepsMemory s t) (a : Word) : t.word a = s.word a := by
  simp only [State.word, Memory.readWord, h _]

/-- What a TX.PUT and DMA's completion of its slot have changed from `s` to `t`: the producer index has advanced, and
the slot is software's again. -/
structure PutAndDone (s t : State) : Prop where
  seq : t.seq = .idle
  params : t.params = s.params
  regs : KeepsRegsBut (.opw :: .txTailPtr :: .txTail :: endRegs) s t
  tail : t.reg .txTail = nextIndex s.params (s.reg .txTail)
  ringSet : RingSet t
  word : t.word (ctlAddress s (s.reg .txTail)) = 0x30000000#32
  granted : t.isGrantedTx (ctlAddress s (s.reg .txTail)) = false

theorem ctlAddress_congr {s t : State} (hparams : t.params = s.params) (hbase : t.reg .txBase = s.reg .txBase)
    (hmask : t.reg .txMask = s.reg .txMask) (index : Word) : ctlAddress t index = ctlAddress s index := by
  rw [ctlAddress, ctlAddress, hparams, hbase, hmask]

theorem play_put_and_done {s : State} (hwf : s.params.wellFormed = true) (hq : s.seq = .idle)
    (hv : s.txValid = true) (hset : RingSet s) (hlen : (s.reg .arg1).toNat ≤ 16383)
    (ho : own (s.word (ctlAddress s (s.reg .txTail))) = false) (hfull : s.ringFull = false) :
    ∃ t, play (Event.hostWrite 8 9#32 :: List.replicate (putSteps s) Event.seq ++
      [Event.dmaTxDone (slotOf (s.reg .txTail) (s.reg .txMask))]) s = .next t ∧ PutAndDone s t := by
  have hok := ringsOk_of_wellFormed hwf
  have hput := putHandsTheSlotOver (s.setReg .opw 9#32) hwf hq hv hset hlen ho hfull
  obtain ⟨u, hrun, hidle, -, -, -, -, -, hw3, -, -, htail, hgranted, -, -, hkeeps, -, -, hparams, -⟩ :=
    play_hostWrite_of_completes hq rfl hput
  have hplay : play (Event.hostWrite 8 9#32 :: List.replicate (putSteps s) Event.seq) s = .next u := hrun
  have hregs : KeepsRegsBut (.opw :: .txTailPtr :: .txTail :: endRegs) s u :=
    keepsRegsBut_trans (keepsRegsBut_setReg (List.mem_singleton_self _) (keepsRegsBut_refl _ s)) hkeeps
  have hnext : u.reg .txTail = nextIndex s.params (s.reg .txTail) := by
    apply BitVec.eq_of_toNat_eq
    rw [toNat_nextIndex hok]
    exact htail
  have hring : RingSet u := ringSet_of_advanced hok hset hfull hparams hregs hnext
  have hctl : ctlAddress u (s.reg .txTail) = ctlAddress s (s.reg .txTail) :=
    ctlAddress_congr hparams (hregs .txBase (by decide)) (hregs .txMask (by decide)) _
  have hword : u.word (ctlAddress s (s.reg .txTail)) = 0xB0000000#32 := by
    rw [ctlAddress_eq hok hset]
    exact hw3
  have hdone := dmaTxDone_of_ringSet (s := u) (hparams ▸ hok) hring (s.reg .txTail)
    (by rw [hctl, ctlAddress_eq hok hset]; exact hgranted) (by rw [hctl, hword]; rfl)
  rw [hregs .txMask (by decide), hctl, hword] at hdone
  refine ⟨_, (play_append hplay).trans ((play_singleton _ u).trans hdone), ?_⟩
  exact
    { seq := hidle
      params := hparams
      regs := hregs
      tail := hnext
      ringSet := hring
      word := State.word_setWord u _ _
      granted := by simp }

/-- Settles O40: the put (O36), DMA's completion of its slot, and an update (O39) that passes the one pending slot. -/
theorem putDoneUpdateEmptiesTheRing : Obligations.PutDoneUpdateEmptiesTheRing := by
  unfold Obligations.PutDoneUpdateEmptiesTheRing
  intro s hwf hq hv hset hlen hempty ho
  have hok := ringsOk_of_wellFormed hwf
  obtain ⟨t, hplay, hdone⟩ := play_put_and_done hwf hq hv hset hlen ho (ringFull_of_empty hempty)
  obtain ⟨⟨-, hfits, -⟩, -, -, -, htail, hcur, -⟩ := id hset
  have hreg {x : Reg} (hx : x ∈ ([.txBase, .txMask, .txCur, .init] : List Reg)) : t.reg x = s.reg x :=
    hdone.regs x (by revert x; decide)
  have hindices : 1 < 2 ^ s.params.idxW :=
    (Nat.succ_le_of_lt (Nat.zero_lt_of_lt (slotOf_lt_of_ringSet hset 0#32))).trans_lt (slotCount_lt hok hfits)
  have hpending : (t.setReg .opw 10#32).txPending.toNat = 1 := by
    have hone := toNat_indexDiff_nextIndex_self hok htail hindices
    rwa [← hdone.tail, ← hdone.params, ← hempty, ← hreg (x := .txCur) (by decide)] at hone
  have hctl : ctlAddress (t.setReg .opw 10#32) (s.reg .txTail) = ctlAddress s (s.reg .txTail) :=
    ctlAddress_congr hdone.params (hreg (by decide)) (hreg (by decide)) _
  have hfree : own (t.word (ctlAddress (t.setReg .opw 10#32) (t.reg .txCur + 0#32))) = false := by
    rw [BitVec.add_zero, hreg (by decide), hempty, hctl, hdone.word]
    decide
  have hvalid : (t.setReg .opw 10#32).txValid = true := by
    rwa [State.txValid, State.reg_setReg, if_neg (by decide), hreg (by decide)]
  have hupdate := updateReclaimsInOrder (t.setReg .opw 10#32) 1 (hdone.params ▸ hwf) hdone.seq hvalid hdone.ringSet
    hpending.ge (fun j hj => by obtain rfl := Nat.lt_one_iff.1 hj; exact hfree) (fun hlt => absurd hlt (by omega))
  simp only [hpending] at hupdate
  obtain ⟨v, hplay', hidle, hend, hcur', hres0, hres1, -, hmem, -, htx, -⟩ :=
    play_hostWrite_of_completes hdone.seq rfl hupdate
  refine ⟨v, ?_, hidle, hend, hres0, ?_, ?_, ?_, ?_⟩
  · have hrun := (play_append hplay).trans hplay'
    simpa [slotOf] using hrun
  · rw [← hdone.params, ← hreg (x := .txCur) (by decide)]
    exact hcur'
  · rw [← hreg (x := .txCur) (by decide), ← hreg (x := .txMask) (by decide)]
    exact hres1
  · exact (State.word_of_keepsMemory hmem _).trans hdone.word
  · exact (State.isGrantedTx_congr htx _).trans hdone.granted

end Sys2Proof.Machine
end

section
/-! SEQ's turns inside the operations of the RX slot, and where the words of a slot's descriptor lie (R42, R231, R235,
R238). -/

namespace Sys2Proof.Machine

/-! ### The words of a descriptor RX.ARM accepts (R42, R232) -/

theorem slotGeometry_iff {P : Config.Params} {d : Word} :
    SlotGeometry P d ↔ d.toNat % P.descAlign = 0 ∧ d.toNat + P.descSpan < 2 ^ P.addrW := by
  simp [SlotGeometry, descAligned_iff, fitsBelow_iff]

section
variable {P : Config.Params} {d : Word} (hok : P.ringsOk = true) (hd : SlotGeometry P d)
include hok hd

theorem descWord_zero : descWord P d 0 = d := (descWord_eq hok hd (by decide)).trans (BitVec.add_zero d)

theorem descWord_two : descWord P d 2 = d + 8#32 := descWord_eq hok hd (by decide)

theorem descWord_three : descWord P d 3 = d + 12#32 := descWord_eq hok hd (by decide)

end

/-! ### One turn: where SEQ stood before plays no part in the step from a position -/

theorem seqTurn_rxArm (s : State) (k : ArmPos) (d buf : Word) :
    seqTurn (s.goto (.rxArm k d buf)) = armStep k d buf s := by
  cases k <;> rfl

theorem seqTurn_rxPoll (s : State) (k : PollPos) : seqTurn (s.goto (.rxPoll k)) = pollStep k s := by
  cases k <;> rfl

theorem seqTurn_rxRearm (s : State) (k : RearmPos) : seqTurn (s.goto (.rxRearm k)) = rearmStep k s := by
  cases k <;> rfl

/-! ### Starts (R231, R232) -/

section
variable {s : State} (hq : s.seq = .idle)
include hq

theorem exec_rxArm_of_misaligned (hv : s.rxValid = false) (h : descAligned s.params (s.reg .arg0) = false) :
    exec .rxArm s = .refused .misaligned := by
  simp [exec, execRxArm, hq, hv, h]

theorem exec_rxArm_of_not_fits (hv : s.rxValid = false) (ha : descAligned s.params (s.reg .arg0) = true)
    (h : fitsBelow s.params (s.reg .arg0) 1#32 = false) : exec .rxArm s = .refused .outOfAddressSpace := by
  simp [exec, execRxArm, hq, hv, ha, h]

theorem exec_rxArm_start (hv : s.rxValid = false) (hd : SlotGeometry s.params (s.reg .arg0)) :
    exec .rxArm s = .next (s.goto (.rxArm .desc (s.reg .arg0) (s.reg .arg1))) := by
  simp [exec, execRxArm, hq, hv, hd.1, hd.2]

theorem exec_rxPoll_start (hv : s.rxValid = true) : exec .rxPoll s = .next (s.goto (.rxPoll .desc)) := by
  simp [exec, execRxPoll, hq, hv]

theorem exec_rxRearm_start (hv : s.rxValid = true) : exec .rxRearm s = .next (s.goto (.rxRearm .desc)) := by
  simp [exec, execRxRearm, hq, hv]

end

@[simp] theorem keepsOutside_grantRx {s t : State} {a : Word} :
    KeepsOutside s (t.grantRx a) ↔ KeepsOutside s t := Iff.rfl

end Sys2Proof.Machine
end

section
/-! RX.ARM: its refusals, and the run that arms the slot (R231, R232, R241). -/

namespace Sys2Proof.Machine

/-- The descriptor at `d` as RX.ARM writes it: the buffer, and OWN and BUF1V. -/
def State.withRxDesc (s : State) (d buf : Word) : State :=
  (s.setWord (descWord s.params d 0) buf).setWord (descWord s.params d 3) rxCtl

/-- An RX.ARM up to its return: the registers of the slot and its descriptor written, which DMA may then fill. -/
def State.armed (s : State) (d buf : Word) : State :=
  ((((((s.setReg .rxDesc d).setReg .rxBuf buf).withRxDesc d buf).setReg .rxRingBase d).setReg .rxTailPtr d).grantRx
    (descWord s.params d 3)).setRxValid

/-! ### The run (R232) -/

theorem playSeq_arm {s : State} {d : Word} (ha : ∀ k < 4, accessible s.params (descWord s.params d k) = true)
    (buf : Word) :
    playSeq 7 (s.goto (.rxArm .desc d buf)) = toReturn .rxArm none none (s.armed d buf) := by
  set u := (s.setReg .rxDesc d).setReg .rxBuf buf
  set v := u.setWord (descWord s.params d 0) buf
  have hbuf : seqTurn (u.goto (.rxArm .memBuf d buf)) = .next (v.goto (.rxArm .memCtl d buf)) := by
    rw [seqTurn_rxArm, armStep]
    exact State.memWrite_of_accessible (s := u) (ha 0 (by decide)) _ _
  have hctl : seqTurn (v.goto (.rxArm .memCtl d buf)) =
      .next ((u.withRxDesc d buf).goto (.rxArm .ringBase d buf)) := by
    rw [seqTurn_rxArm, armStep]
    exact State.memWrite_of_accessible (s := v) (ha 3 (by decide)) _ _
  iterate 2 rw [playSeq_succ ((seqTurn_rxArm _ _ d buf).trans rfl)]
  rw [playSeq_succ hbuf, playSeq_succ hctl]
  iterate 2 rw [playSeq_succ ((seqTurn_rxArm _ _ d buf).trans rfl)]
  exact (playSeq_one _).trans (seqTurn_rxArm _ _ d buf)

/-! ### What the run leaves (R232, R241) -/

section
variable (s : State) (d buf : Word)

theorem keepsRegsBut_armed :
    KeepsRegsBut [.rxDesc, .rxBuf, .rxRingBase, .rxTailPtr, .init] s (s.armed d buf) :=
  keepsRegsBut_setReg (by decide) <| keepsRegsBut_setReg (by decide) <| keepsRegsBut_setReg (by decide) <|
    keepsRegsBut_setReg (by decide) <| keepsRegsBut_setReg (by decide) (keepsRegsBut_refl _ s)

theorem keepsOutside_armed : KeepsOutside s (s.armed d buf) := by
  simp [State.armed, State.withRxDesc, State.setRxValid]

theorem mem_armed : (s.armed d buf).mem = (s.withRxDesc d buf).mem := by
  simp [State.armed, State.withRxDesc, State.setRxValid]

/-- DMA may fill the armed slot, and else what the writes of its words left it. -/
theorem isGrantedRx_armed (a : Word) : (s.armed d buf).isGrantedRx a =
    (decide (a = descWord s.params d 3) || (s.withRxDesc d buf).isGrantedRx a) := by
  simp [State.armed, State.withRxDesc, State.setRxValid]

theorem isGrantedTx_armed (a : Word) : (s.armed d buf).isGrantedTx a = (s.withRxDesc d buf).isGrantedTx a := by
  simp [State.armed, State.withRxDesc, State.setRxValid]

theorem isGrantedTx_withRxDesc_ctl : (s.withRxDesc d buf).isGrantedTx (descWord s.params d 3) = false := by
  simp [State.withRxDesc]

end

section
variable {s : State} {d : Word} (hok : s.params.ringsOk = true) (hd : SlotGeometry s.params d) (buf : Word)
include hok hd

theorem word_withRxDesc_buf : (s.withRxDesc d buf).word d = buf := by
  have h3 := toNat_descWord hok hd (show 3 < 4 by decide)
  rw [State.withRxDesc, descWord_zero hok hd, State.word_setWord_of_disjoint _ _ (by omega), State.word_setWord]

theorem word_withRxDesc_ctl : (s.withRxDesc d buf).word (d + 12#32) = 0x81000000#32 := by
  rw [State.withRxDesc, descWord_three hok hd, State.word_setWord]
  rfl

theorem read_withRxDesc_of_outside {a : Nat} (h0 : a < d.toNat ∨ d.toNat + 4 ≤ a)
    (h12 : a < d.toNat + 12 ∨ d.toNat + 16 ≤ a) : (s.withRxDesc d buf).mem.read a = s.mem.read a := by
  simp only [State.withRxDesc, State.mem_setWord, toNat_descWord hok hd (show 0 < 4 by decide),
    toNat_descWord hok hd (show 3 < 4 by decide)]
  iterate 2 rw [Memory.read_writeWord_of_outside _ _ (by omega)]

/-- The two writes end the grants of the two words and of no other. -/
theorem keepsGrantsBut_withRxDesc : KeepsGrantsBut [d, d + 12#32] s (s.withRxDesc d buf) := by
  intro a ha
  simp only [List.mem_cons, List.not_mem_nil, or_false, not_or] at ha
  simp [State.withRxDesc, descWord_zero hok hd, descWord_three hok hd, ha]

end

/-- Settles O41: the refusals in the rule's order, and otherwise the seven accesses and the return. -/
theorem armSetsUpTheSlot : Obligations.ArmSetsUpTheSlot := by
  unfold Obligations.ArmSetsUpTheSlot
  intro s hwf hq d
  split_ifs with hv halign hfits
  · exact exec_rxArm_of_slot hq hv
  · exact exec_rxArm_of_misaligned hq (Bool.eq_false_of_not_eq_true hv) (decide_eq_false halign)
  · exact exec_rxArm_of_not_fits hq (Bool.eq_false_of_not_eq_true hv) (descAligned_iff.2 (not_not.1 halign))
      (decide_eq_false (by simpa using hfits))
  · have hok := ringsOk_of_wellFormed hwf
    have hd : SlotGeometry s.params d := slotGeometry_iff.2 ⟨not_not.1 halign, Nat.not_le.1 hfits⟩
    have h12 : descWord s.params d 3 = d + 12#32 := descWord_three hok hd
    have ha : ∀ k < 4, accessible s.params (descWord s.params d k) = true := fun k hk =>
      accessible_descWord hok hd hk
    have hrun := play_return rfl (playSeq_arm ha (s.reg .arg1))
    set w := s.withRxDesc d (s.reg .arg1)
    set t := (s.armed d (s.reg .arg1)).endOperation 0#32 none none none with ht
    have hmem : t.mem = w.mem := by rw [ht, State.mem_endOperation, mem_armed]
    have hrx (a : Word) : t.isGrantedRx a = (decide (a = d + 12#32) || w.isGrantedRx a) := by
      rw [ht, State.isGrantedRx_endOperation, isGrantedRx_armed, h12]
    have htx (a : Word) : t.isGrantedTx a = w.isGrantedTx a := by
      rw [ht, State.isGrantedTx_endOperation, isGrantedTx_armed]
    refine ⟨_, t, exec_rxArm_start hq (Bool.eq_false_of_not_eq_true hv) hd, nofun, hrun, rfl, ?_, ?_, ?_, ?_, ?_, ?_,
      ?_, ?_, ?_, fun a h0 hctl => ?_, ?_, ?_, fun a ha => ?_,
      keepsRegsBut_trans (keepsRegsBut_armed s d _) (keepsRegsBut_return _ _ _),
      keepsOutside_endOperation.2 (keepsOutside_armed s d _)⟩
    · simp [EndsWith, ht]
    · simp [ht, State.armed, State.setRxValid, State.withRxDesc]
    · simp [ht, State.armed, State.setRxValid, State.withRxDesc]
    · simp [ht, State.armed, State.setRxValid]
    · simp [ht, State.armed, State.setRxValid]
    · simp [ht, State.armed, State.setRxValid, State.rxValid]
    · simp [ht, State.armed, State.setRxValid, State.txValid, State.withRxDesc]
    · rw [State.word_congr hmem, word_withRxDesc_buf hok hd]
    · rw [State.word_congr hmem, word_withRxDesc_ctl hok hd]
    · rw [hmem, read_withRxDesc_of_outside hok hd _ h0 hctl]
    · simp [hrx]
    · rw [htx, ← h12, isGrantedTx_withRxDesc_ctl]
    · have hne : a ≠ d + 12#32 := by simp_all
      obtain ⟨hwtx, hwrx⟩ := keepsGrantsBut_withRxDesc hok hd (s.reg .arg1) a ha
      exact ⟨(htx a).trans hwtx, by simpa [hrx, hne] using hwrx⟩

end Sys2Proof.Machine
end

section
/-! DMA's deposit of a frame in the RX slot (R241). -/

namespace Sys2Proof.Machine

/-- The descriptor RX_RING_BASE names as DMA leaves it with a frame of `n` bytes: the length in word 2, OWN of word 3
cleared, and its bit 24 set if `bufv`. -/
def State.framed (s : State) (n : Nat) (bufv : Bool) : State :=
  (s.setWord (descWord s.params (s.reg .rxRingBase) 2)
    (withRxLen (s.word (descWord s.params (s.reg .rxRingBase) 2)) n)).setWord
    (descWord s.params (s.reg .rxRingBase) 3)
    (clearOwn (s.word (descWord s.params (s.reg .rxRingBase) 3)) ||| (if bufv then buf1v else 0#32))

section
variable {s : State} {n : Nat}

theorem dmaRxFrame_of_not_granted (bufv : Bool)
    (h : ¬ (n ≤ 16383 ∧ s.isGrantedRx (descWord s.params (s.reg .rxRingBase) 3) = true)) :
    dmaRxFrame n bufv s = .refused .notEnabled := if_neg h

theorem dmaRxFrame_of_granted (bufv : Bool) (hn : n ≤ 16383)
    (hgranted : s.isGrantedRx (descWord s.params (s.reg .rxRingBase) 3) = true)
    (ha₂ : accessible s.params (descWord s.params (s.reg .rxRingBase) 2) = true)
    (ha₃ : accessible s.params (descWord s.params (s.reg .rxRingBase) 3) = true) :
    dmaRxFrame n bufv s = if own (s.word (descWord s.params (s.reg .rxRingBase) 3)) then .next (s.framed n bufv)
      else .refused .notEnabled := by
  have hwrites (w2 w3 : Word) :
      (s.memWrite (descWord s.params (s.reg .rxRingBase) 2) w2 fun s' =>
        s'.memWrite (descWord s.params (s.reg .rxRingBase) 3) w3 .next) =
      .next ((s.setWord (descWord s.params (s.reg .rxRingBase) 2) w2).setWord
        (descWord s.params (s.reg .rxRingBase) 3) w3) := by
    rw [State.memWrite_of_accessible ha₂]
    exact State.memWrite_of_accessible (s := s.setWord (descWord s.params (s.reg .rxRingBase) 2) w2) ha₃ w3 _
  refine (if_pos ⟨hn, hgranted⟩).trans ((State.memRead_of_accessible ha₃ _).trans ?_)
  rw [hwrites]
  rfl

end

section
variable {s : State} (hok : s.params.ringsOk = true) (hd : SlotGeometry s.params (s.reg .rxRingBase)) (n : Nat)
  (bufv : Bool)
include hok hd

theorem word_framed_len : (s.framed n bufv).word (s.reg .rxRingBase + 8#32) =
    withRxLen (s.word (s.reg .rxRingBase + 8#32)) n := by
  have h2 := toNat_descWord hok hd (show 2 < 4 by decide)
  have h3 := toNat_descWord hok hd (show 3 < 4 by decide)
  rw [State.framed, ← descWord_two hok hd, State.word_setWord_of_disjoint _ _ (by omega), State.word_setWord]

theorem word_framed_ctl : (s.framed n bufv).word (s.reg .rxRingBase + 12#32) =
    clearOwn (s.word (s.reg .rxRingBase + 12#32)) ||| (if bufv then buf1v else 0#32) := by
  rw [State.framed, descWord_three hok hd, State.word_setWord]

theorem keepsMemoryBut_framed : KeepsMemoryBut (s.reg .rxRingBase + 8#32).toNat 8 s (s.framed n bufv) := by
  have h2 := toNat_descWord hok hd (show 2 < 4 by decide)
  have h3 := toNat_descWord hok hd (show 3 < 4 by decide)
  intro a ha
  rw [← descWord_two hok hd] at ha
  rw [State.framed, State.mem_setWord, State.mem_setWord, Memory.read_writeWord_of_outside _ _ (by omega),
    Memory.read_writeWord_of_outside _ _ (by omega)]

/-- The two writes end the grants of the two words and of no other. -/
theorem keepsGrantsBut_framed :
    KeepsGrantsBut [s.reg .rxRingBase + 8#32, s.reg .rxRingBase + 12#32] s (s.framed n bufv) := by
  intro a ha
  simp only [List.mem_cons, List.not_mem_nil, or_false, not_or] at ha
  simp [State.framed, descWord_two hok hd, descWord_three hok hd, ha]

theorem isGrantedRx_framed : (s.framed n bufv).isGrantedRx (s.reg .rxRingBase + 12#32) = false := by
  simp [State.framed, descWord_three hok hd]

end

/-- Settles O47: refused by its three tests, and else two word writes. -/
theorem rxFrameWritesLengthAndOwn : Obligations.RxFrameWritesLengthAndOwn := by
  unfold Obligations.RxFrameWritesLengthAndOwn
  intro s n bufv hwf hd d w3 enabled
  have hok := ringsOk_of_wellFormed hwf
  have h12 : descWord s.params d 3 = d + 12#32 := descWord_three hok hd
  have hframe (hn : n ≤ 16383) (hgranted : s.isGrantedRx (d + 12#32) = true) :
      dmaRxFrame n bufv s = if own w3 then .next (s.framed n bufv) else .refused .notEnabled := by
    have h := dmaRxFrame_of_granted bufv hn (h12.symm ▸ hgranted) (accessible_descWord hok hd (by decide))
      (accessible_descWord hok hd (by decide))
    rwa [h12] at h
  refine ⟨fun hnot => ?_, fun ⟨hn, hgranted, hown⟩ => ?_⟩
  · by_cases hg : n ≤ 16383 ∧ s.isGrantedRx (d + 12#32) = true
    · rw [hframe hg.1 hg.2, if_neg fun hown => hnot ⟨hg.1, hg.2, hown⟩]
    · exact dmaRxFrame_of_not_granted bufv (h12.symm ▸ hg)
  · exact ⟨_, (hframe hn hgranted).trans (if_pos hown), word_framed_len hok hd n bufv, word_framed_ctl hok hd n bufv,
      keepsMemoryBut_framed hok hd n bufv, fun _ _ => rfl, rfl, ⟨rfl, rfl, rfl, rfl⟩,
      isGrantedRx_framed hok hd n bufv, keepsGrantsBut_framed hok hd n bufv⟩

end Sys2Proof.Machine
end

section
/-! RX.REARM on a ready slot and on one DMA owns (R238 to R241). -/

namespace Sys2Proof.Machine

/-! ### The OWN test (R238, R239) -/

theorem seqTurn_rearm_desc (s : State) :
    seqTurn (s.goto (.rxRearm .desc)) = .next (s.goto (.rxRearm (.readOwn (s.reg .rxDesc)))) := seqTurn_rxRearm s .desc

section
variable {s : State} {d : Word} (ha : accessible s.params (descWord s.params d 3) = true)
include ha

theorem seqTurn_rearm_of_owned (ho : own (s.word (descWord s.params d 3)) = true) :
    seqTurn (s.goto (.rxRearm (.readOwn d))) = .refused .descriptorDmaOwned := by
  rw [seqTurn_rxRearm, rearmStep, State.memRead_of_accessible ha, if_pos ho]

theorem seqTurn_rearm_of_ready (ho : own (s.word (descWord s.params d 3)) = false) :
    seqTurn (s.goto (.rxRearm (.readOwn d))) = .next (s.goto (.rxRearm (.writeCtl d))) := by
  rw [seqTurn_rxRearm, rearmStep, State.memRead_of_accessible ha, if_neg (ne_true_of_eq_false ho)]

theorem seqTurn_rearm_writeCtl :
    seqTurn (s.goto (.rxRearm (.writeCtl d))) =
      .next ((s.setWord (descWord s.params d 3) rxCtl).goto (.rxRearm (rearmPtrStart s.params d))) := by
  rw [seqTurn_rxRearm, rearmStep, State.memWrite_of_accessible ha]

end

/-! ### The tail pointer (R240, R241) -/

/-- RX_TAIL_PTR moved as RX_REARM_MODE says, which hands the slot's descriptor to DMA. -/
def State.regranted (s : State) (d : Word) : State :=
  (s.setReg .rxTailPtr (addAddr s.params (if s.params.rxRearmMode = .absolute then d else s.reg .rxTailPtr)
    s.params.descSpan)).grantRx (descWord s.params d 3)

theorem playSeq_rearm_tailPtr (s : State) (d : Word) :
    playSeq (if s.params.rxRearmMode = .absolute then 1 else 2) (s.goto (.rxRearm (rearmPtrStart s.params d))) =
      toReturn .rxRearm none none (s.regranted d) := by
  rw [rearmPtrStart, State.regranted]
  cases s.params.rxRearmMode with
  | absolute => exact (playSeq_one _).trans (seqTurn_rxRearm _ _)
  | increment =>
    refine (playSeq_succ (n := 1) ((seqTurn_rxRearm _ _).trans rfl)).trans ?_
    exact (playSeq_one _).trans (seqTurn_rxRearm _ _)

/-! ### The whole operation (R238) -/

/-- An RX.REARM up to its return: word 3 written whole, and the tail pointer moved. -/
def State.rearmed (s : State) (d : Word) : State := (s.setWord (descWord s.params d 3) rxCtl).regranted d

theorem playSeq_rearm {s : State} (ha : accessible s.params (descWord s.params (s.reg .rxDesc) 3) = true)
    (ho : own (s.word (descWord s.params (s.reg .rxDesc) 3)) = false) :
    playSeq (rearmSteps s) (s.goto (.rxRearm .desc)) =
      .next ((s.rearmed (s.reg .rxDesc)).endOperation 0#32 none none none) := by
  have hsteps : rearmSteps s = ((if s.params.rxRearmMode = .absolute then 1 else 2) + 1) + 1 + 1 + 1 := by
    rw [rearmSteps]
    split <;> rfl
  rw [hsteps, playSeq_succ (seqTurn_rearm_desc s), playSeq_succ (seqTurn_rearm_of_ready ha ho),
    playSeq_succ (seqTurn_rearm_writeCtl ha), playSeq, List.replicate_succ']
  exact play_return rfl (playSeq_rearm_tailPtr (s.setWord _ rxCtl) (s.reg .rxDesc))

section
variable (s : State) (d : Word)

theorem keepsRegsBut_rearmed : KeepsRegsBut [.rxTailPtr] s (s.rearmed d) :=
  keepsRegsBut_setReg (List.mem_singleton_self _) (keepsRegsBut_refl _ s)

theorem keepsOutside_rearmed : KeepsOutside s (s.rearmed d) := by
  simp [State.rearmed, State.regranted]

theorem mem_rearmed : (s.rearmed d).mem = (s.setWord (descWord s.params d 3) rxCtl).mem := rfl

theorem reg_rearmed : (s.rearmed d).reg .rxTailPtr =
    addAddr s.params (if s.params.rxRearmMode = .absolute then d else s.reg .rxTailPtr) s.params.descSpan :=
  (State.reg_setReg (s.setWord (descWord s.params d 3) rxCtl) .rxTailPtr .rxTailPtr _).trans (if_pos rfl)

theorem isGrantedRx_rearmed (a : Word) :
    (s.rearmed d).isGrantedRx a = (decide (a = descWord s.params d 3) || s.isGrantedRx a) := by
  by_cases h : a = descWord s.params d 3 <;> simp [State.rearmed, State.regranted, h]

theorem isGrantedTx_rearmed (a : Word) :
    (s.rearmed d).isGrantedTx a = (decide (a ≠ descWord s.params d 3) && s.isGrantedTx a) := by
  simp [State.rearmed, State.regranted]

end

/-- Settles O43: a ready slot has word 3 written and the tail pointer moved; the read of word 3 of an armed one
refuses. -/
theorem rearmGivesTheSlotBack : Obligations.RearmGivesTheSlotBack := by
  unfold Obligations.RearmGivesTheSlotBack
  rintro s hwf hq hv ⟨hd, -⟩
  have hok := ringsOk_of_wellFormed hwf
  have ha := accessible_descWord hok hd (show 3 < 4 by decide)
  have h12 := descWord_three hok hd
  rw [← h12]
  refine ⟨fun ho => ?_, fun ho => ?_⟩
  · set u := s.rearmed (s.reg .rxDesc) with hu
    set t := u.endOperation 0#32 none none none with ht
    have hend : KeepsRegsBut endRegs u t := keepsRegsBut_return _ _ _
    have hmem : t.mem = (s.setWord (descWord s.params (s.reg .rxDesc) 3) rxCtl).mem := by
      rw [ht, State.mem_endOperation, hu, mem_rearmed]
    have hrx (a : Word) :
        t.isGrantedRx a = (decide (a = descWord s.params (s.reg .rxDesc) 3) || s.isGrantedRx a) := by
      rw [ht, State.isGrantedRx_endOperation, hu, isGrantedRx_rearmed]
    have htx (a : Word) :
        t.isGrantedTx a = (decide (a ≠ descWord s.params (s.reg .rxDesc) 3) && s.isGrantedTx a) := by
      rw [ht, State.isGrantedTx_endOperation, hu, isGrantedTx_rearmed]
    refine ⟨_, t, exec_rxRearm_start hq hv, nofun, playSeq_rearm ha ho, rfl, ?_, ?_, ?_, ?_, ?_, fun a hne => ?_,
      fun a hout => ?_, keepsRegsBut_trans (keepsRegsBut_rearmed s _) hend,
      keepsOutside_endOperation.2 (keepsOutside_rearmed s _)⟩
    · simp [EndsWith, ht]
    · rw [State.word_congr hmem, State.word_setWord]
      rfl
    · rw [hend .rxTailPtr (by decide), hu, reg_rearmed, toNat_addAddr hok]
    · simp [hrx]
    · simp [htx]
    · simp_all
    · rw [hmem, State.mem_setWord, Memory.read_writeWord_of_outside _ _ hout]
  · exact ⟨_, _, exec_rxRearm_start hq hv, seqTurn_rearm_desc s, rfl, seqTurn_rearm_of_owned ha ho⟩

end Sys2Proof.Machine
end

section
/-! RX.POLL on a ready slot and on an armed one (R235, R236), and the receive side end to end (R232, R235,
R238, R241). -/

namespace Sys2Proof.Machine

/-! ### RX.POLL (R235, R236, R265) -/

theorem seqTurn_poll_desc (s : State) :
    seqTurn (s.goto (.rxPoll .desc)) = .next (s.goto (.rxPoll (.readOwn (s.reg .rxDesc)))) := seqTurn_rxPoll s .desc

section
variable {s : State} {d : Word}

theorem seqTurn_poll_of_owned (ha : accessible s.params (descWord s.params d 3) = true)
    (ho : own (s.word (descWord s.params d 3)) = true) :
    seqTurn (s.goto (.rxPoll (.readOwn d))) = toRaise .rxPoll .notReady s := by
  rw [seqTurn_rxPoll, pollStep, State.memRead_of_accessible ha, if_pos ho]

theorem seqTurn_poll_of_ready (ha : accessible s.params (descWord s.params d 3) = true)
    (ho : own (s.word (descWord s.params d 3)) = false) :
    seqTurn (s.goto (.rxPoll (.readOwn d))) = .next (s.goto (.rxPoll (.readLen d))) := by
  rw [seqTurn_rxPoll, pollStep, State.memRead_of_accessible ha, if_neg (ne_true_of_eq_false ho)]

theorem seqTurn_poll_readLen (ha : accessible s.params (descWord s.params d 2) = true) :
    seqTurn (s.goto (.rxPoll (.readLen d))) =
      .next (s.goto (.rxPoll (.buf (rxLen (s.word (descWord s.params d 2)))))) := by
  rw [seqTurn_rxPoll, pollStep, State.memRead_of_accessible ha]

end

section
variable {s : State} (hok : s.params.ringsOk = true) (hq : s.seq = .idle) (hv : s.rxValid = true) (hset : SlotSet s)
include hok hq hv hset

/-- A poll of a ready slot returns the length and the buffer, and changes nothing but the end's registers. -/
theorem rxPoll_completes_of_ready (ho : own (s.word (s.reg .rxDesc + 12#32)) = false) :
    Completes .rxPoll (List.replicate 5 .seq) s fun t =>
      t = s.endOperation 0#32 (some (rxLen (s.word (s.reg .rxDesc + 8#32)))) (some (s.reg .rxBuf)) none := by
  obtain ⟨hd, -⟩ := hset
  rw [← descWord_three hok hd] at ho
  rw [← descWord_two hok hd]
  set len := rxLen (s.word (descWord s.params (s.reg .rxDesc) 2))
  have hrun : playSeq 4 (s.goto (.rxPoll .desc)) = toReturn .rxPoll (some len) (some (s.reg .rxBuf)) s := by
    rw [playSeq_succ (seqTurn_poll_desc s),
      playSeq_succ (seqTurn_poll_of_ready (accessible_descWord hok hd (by decide)) ho),
      playSeq_succ (seqTurn_poll_readLen (accessible_descWord hok hd (by decide))), playSeq_one, seqTurn_rxPoll,
      pollStep]
  exact ⟨_, _, exec_rxPoll_start hq hv, nofun, play_return rfl hrun, rfl, rfl⟩

/-- A poll of an armed slot raises NOT_READY. -/
theorem rxPoll_completes_of_owned (ho : own (s.word (s.reg .rxDesc + 12#32)) = true) :
    Completes .rxPoll (List.replicate 3 .seq) s fun t => t = s.endOperation 5#32 none none none := by
  obtain ⟨hd, -⟩ := hset
  rw [← descWord_three hok hd] at ho
  have hrun : playSeq 2 (s.goto (.rxPoll .desc)) = toRaise .rxPoll .notReady s := by
    rw [playSeq_succ (seqTurn_poll_desc s), playSeq_one,
      seqTurn_poll_of_owned (accessible_descWord hok hd (by decide)) ho]
  exact ⟨_, _, exec_rxPoll_start hq hv, nofun, play_raise rfl hrun, rfl, rfl⟩

end

/-! ### The words DMA writes, as RX.POLL reads them (R105, R111, R241) -/

/-- A poll reads the length DMA has put in word 2. -/
theorem rxLen_withRxLen (w2 : Word) {n : Nat} (hn : n ≤ 16383) : rxLen (withRxLen w2 n) = BitVec.ofNat 32 n := by
  have hmask : ∀ i < 14, Nat.testBit 0xC000FFFF (16 + i) = false := by decide
  apply BitVec.eq_of_getLsbD_eq
  intro i hi
  simp only [rxLen, withRxLen, field, BitVec.getLsbD_setWidth, BitVec.getLsbD_ushiftRight, BitVec.getLsbD_or,
    BitVec.getLsbD_and, BitVec.getLsbD_shiftLeft, BitVec.getLsbD_ofNat]
  by_cases h14 : i < 14
  · simp [hi, h14, hmask i h14, show 16 + i < 32 by omega]
  · have hbit : n.testBit i = false :=
      Nat.testBit_lt_two_pow ((show n < 2 ^ 14 by omega).trans_le (Nat.pow_le_pow_right (by decide) (by omega)))
    simp [h14, hbit]

/-- DMA's deposit clears OWN, whether or not it sets bit 24. -/
theorem own_clearOwn_or (w3 : Word) (bufv : Bool) :
    own (clearOwn w3 ||| (if bufv then buf1v else 0#32)) = false := by
  cases bufv <;> simp [own, clearOwn, buf1v]

/-! ### The slot between the operations (R50, R231) -/

/-- SEQ is IDLE, and the slot is armed with the operands `d` and `buf` on a machine with the parameters `P`. -/
structure ArmedIdle (P : Config.Params) (d buf : Word) (s : State) : Prop where
  seq : s.seq = .idle
  params : s.params = P
  valid : s.rxValid = true
  desc : s.reg .rxDesc = d
  buf : s.reg .rxBuf = buf
  ringBase : s.reg .rxRingBase = d

section
variable {P : Config.Params} {d buf : Word} {s t : State}

/-- What writes none of the slot's registers but the tail pointer leaves the slot armed. -/
theorem ArmedIdle.of_keepsRegs (h : ArmedIdle P d buf s) (hq : t.seq = .idle) (hp : t.params = s.params)
    (hregs : KeepsRegsBut (.opw :: .rxTailPtr :: endRegs) s t) : ArmedIdle P d buf t where
  seq := hq
  params := hp.trans h.params
  valid := by rw [State.rxValid, hregs .init (by decide)]; exact h.valid
  desc := (hregs .rxDesc (by decide)).trans h.desc
  buf := (hregs .rxBuf (by decide)).trans h.buf
  ringBase := (hregs .rxRingBase (by decide)).trans h.ringBase

theorem ArmedIdle.slotSet (h : ArmedIdle P d buf s) (hd : SlotGeometry P d) : SlotSet s :=
  ⟨by rwa [h.params, h.desc], h.ringBase.trans h.desc.symm⟩

/-- HOST's write of OPW on its own leaves the slot armed. -/
theorem ArmedIdle.setReg_opw (h : ArmedIdle P d buf s) (w : Word) : ArmedIdle P d buf (s.setReg .opw w) :=
  h.of_keepsRegs h.seq rfl (keepsRegsBut_setReg (by decide) (keepsRegsBut_refl _ s))

end

/-! ### The operations one after another -/

/-- HOST arms an empty slot (O41). -/
theorem play_arm {s : State} (hwf : s.params.wellFormed = true) (hq : s.seq = .idle) (hv : s.rxValid = false)
    (hd : SlotGeometry s.params (s.reg .arg0)) :
    ∃ t, play (.hostWrite 8 11#32 :: List.replicate 8 .seq) s = .next t ∧
      ArmedIdle s.params (s.reg .arg0) (s.reg .arg1) t ∧ t.word (s.reg .arg0 + 12#32) = 0x81000000#32 ∧
      t.isGrantedRx (s.reg .arg0 + 12#32) = true := by
  have harm := armSetsUpTheSlot (s.setReg .opw 11#32) hwf hq
  have hd' : SlotGeometry (s.setReg .opw 11#32).params ((s.setReg .opw 11#32).reg .arg0) := hd
  obtain ⟨halign, hfits⟩ := slotGeometry_iff.1 hd'
  have hv' : ¬ (s.setReg .opw 11#32).rxValid = true := by
    rw [State.rxValid, State.reg_setReg, if_neg (by decide)]
    exact ne_true_of_eq_false hv
  rw [if_neg hv', if_neg (not_not.2 halign), if_neg (Nat.not_le.2 hfits)] at harm
  obtain ⟨t, hplay, hidle, -, hdesc, hbuf, hringBase, -, hvalid, -, -, hctl, -, hgranted, -, -, -, -, -, hparams,
    -⟩ := play_hostWrite_of_completes hq rfl harm
  exact ⟨t, hplay, ⟨hidle, hparams, hvalid, hdesc, hbuf, hringBase⟩, hctl, hgranted⟩

section
variable {P : Config.Params} {d buf : Word} {s : State} (hwf : P.wellFormed = true) (hd : SlotGeometry P d)
  (h : ArmedIdle P d buf s)
include hwf hd h

/-- DMA deposits a frame in an armed slot (O47). -/
theorem ArmedIdle.dmaRxFrame_of_owned {n : Nat} (hn : n ≤ 16383) (bufv : Bool)
    (hgranted : s.isGrantedRx (d + 12#32) = true) (ho : own (s.word (d + 12#32)) = true) :
    ∃ t, dmaRxFrame n bufv s = .next t ∧ ArmedIdle P d buf t ∧
      t.word (d + 8#32) = withRxLen (s.word (d + 8#32)) n ∧ own (t.word (d + 12#32)) = false := by
  obtain ⟨-, hframe⟩ := rxFrameWritesLengthAndOwn s n bufv (h.params ▸ hwf) (by rwa [h.params, h.ringBase])
  rw [h.ringBase] at hframe
  obtain ⟨t, hdma, hlen, hctl, -, hregs, hseq, ⟨-, -, hparams, -⟩, -⟩ := hframe ⟨hn, hgranted, ho⟩
  refine ⟨t, hdma, h.of_keepsRegs (hseq.trans h.seq) hparams (keepsRegsBut_mono hregs nofun), hlen, ?_⟩
  rw [hctl]
  exact own_clearOwn_or _ bufv

/-- HOST polls a ready slot. -/
theorem ArmedIdle.play_poll_of_ready (ho : own (s.word (d + 12#32)) = false) :
    ∃ t, play (.hostWrite 8 12#32 :: List.replicate 5 .seq) s = .next t ∧ ArmedIdle P d buf t ∧ EndsWith 0#32 t ∧
      t.reg .res0 = rxLen (s.word (d + 8#32)) ∧ t.reg .res1 = buf ∧ t.mem = s.mem := by
  have hopw := h.setReg_opw 12#32
  have hpoll := rxPoll_completes_of_ready (hopw.params ▸ ringsOk_of_wellFormed hwf) hopw.seq hopw.valid
    (hopw.slotSet hd) (by rw [hopw.desc]; exact ho)
  rw [hopw.desc, hopw.buf] at hpoll
  obtain ⟨t, hplay, hidle, rfl⟩ := play_hostWrite_of_completes h.seq rfl hpoll
  refine ⟨_, hplay, hopw.of_keepsRegs hidle (State.params_endOperation ..)
    (keepsRegsBut_endOperation (by decide) _ _ _ _ _), ?_, ?_, ?_, State.mem_endOperation ..⟩
  · simp [EndsWith]
  · simp [State.word]
  · simp

/-- HOST polls a slot DMA owns. -/
theorem ArmedIdle.play_poll_of_owned (ho : own (s.word (d + 12#32)) = true) :
    ∃ t, play (.hostWrite 8 12#32 :: List.replicate 3 .seq) s = .next t ∧ t.seq = .idle ∧ EndsWith 5#32 t ∧
      t.mem = s.mem := by
  have hopw := h.setReg_opw 12#32
  have hpoll := rxPoll_completes_of_owned (hopw.params ▸ ringsOk_of_wellFormed hwf) hopw.seq hopw.valid
    (hopw.slotSet hd) (by rw [hopw.desc]; exact ho)
  obtain ⟨t, hplay, hidle, rfl⟩ := play_hostWrite_of_completes h.seq rfl hpoll
  exact ⟨_, hplay, hidle, by simp [EndsWith], State.mem_endOperation ..⟩

/-- HOST gives a ready slot back to DMA (O43). -/
theorem ArmedIdle.play_rearm (ho : own (s.word (d + 12#32)) = false) :
    ∃ t, play (.hostWrite 8 13#32 :: List.replicate (rearmSteps s) .seq) s = .next t ∧ ArmedIdle P d buf t ∧
      t.word (d + 12#32) = 0x81000000#32 := by
  have hopw := h.setReg_opw 13#32
  obtain ⟨hready, -⟩ := rearmGivesTheSlotBack (s.setReg .opw 13#32) (hopw.params ▸ hwf) hopw.seq hopw.valid
    (hopw.slotSet hd)
  rw [hopw.desc] at hready
  obtain ⟨t, hplay, hidle, -, hctl, -, -, -, -, -, hregs, -, -, hparams, -⟩ :=
    play_hostWrite_of_completes h.seq rfl (hready ho)
  exact ⟨t, hplay, hopw.of_keepsRegs hidle hparams (keepsRegsBut_mono hregs (by decide)), hctl⟩

end

theorem rearmSteps_congr {s t : State} (h : t.params = s.params) : rearmSteps t = rearmSteps s := by
  rw [rearmSteps, rearmSteps, h]

/-- Settles O44: the arm (O41) leaves the slot to DMA, whose frame (O47) makes it ready, and the re-arm (O43) makes it
DMA's again. -/
theorem receiveEndToEnd : Obligations.ReceiveEndToEnd := by
  unfold Obligations.ReceiveEndToEnd
  intro s n bufv hwf hq hv hd hn
  obtain ⟨s₁, harm, harmed, hctl, hgranted⟩ := play_arm hwf hq hv hd
  obtain ⟨s₂, hdma, hframed, hlen, hready⟩ := harmed.dmaRxFrame_of_owned hwf hd hn bufv hgranted (by rw [hctl]; rfl)
  obtain ⟨t, hpoll, hpolled, hend, hres0, hres1, hmem⟩ := hframed.play_poll_of_ready hwf hd hready
  obtain ⟨s₃, hrearm, hrearmed, hctl'⟩ := hpolled.play_rearm hwf hd (by rwa [State.word_congr hmem])
  obtain ⟨u, hpoll', hidle, hend', hmem'⟩ := hrearmed.play_poll_of_owned hwf hd (by rw [hctl']; rfl)
  rw [rearmSteps_congr hpolled.params] at hrearm
  refine ⟨t, u, ?_, hpolled.seq, hend, ?_, hres1, ?_, hidle, hend', (State.word_congr hmem' _).trans hctl'⟩
  · exact (play_append harm).trans ((play_cons (e := .dmaRxFrame n bufv) hdma).trans hpoll)
  · rw [hres0, hlen, rxLen_withRxLen _ hn]
  · rw [List.append_assoc]
    exact (play_append hrearm).trans hpoll'

end Sys2Proof.Machine
end

section
/-! DMA.SWRESET waits for DMA (R251), and DMA's soft reset ends (R252). -/

namespace Sys2Proof.Machine

/-! ### DMA's completion of the soft reset (R252) -/

/-- SWR cleared, and every tail pointer write forgotten. -/
def State.swrCleared (s : State) : State := (s.setReg .dmaCtrl (s.reg .dmaCtrl &&& ~~~ 1#32)).forgetGrants

theorem dmaSwrDone_of_swr {s : State} (h : s.swr = true) : dmaSwrDone s = .next s.swrCleared := if_pos h

theorem dmaSwrDone_of_not_swr {s : State} (h : s.swr = false) : dmaSwrDone s = .refused .notEnabled :=
  if_neg (ne_true_of_eq_false h)

@[simp] theorem State.swr_swrCleared (s : State) : s.swrCleared.swr = false := by
  simp [State.swr, State.swrCleared]

theorem keepsRegsBut_swrCleared (s : State) : KeepsRegsBut [.dmaCtrl] s s.swrCleared :=
  keepsRegsBut_setReg (List.mem_singleton_self _) (keepsRegsBut_refl _ s)

theorem keepsOutside_swrCleared (s : State) : KeepsOutside s s.swrCleared := ⟨rfl, rfl, rfl, rfl⟩

/-- With every grant forgotten DMA completes no TX descriptor. -/
theorem dmaTxDone_swrCleared (s : State) (slot : Word) : dmaTxDone slot s.swrCleared = .refused .notEnabled :=
  dmaTxDone_of_not_granted (by simp [State.swrCleared])

/-- With every grant forgotten DMA deposits no frame. -/
theorem dmaRxFrame_swrCleared (s : State) (n : Nat) (bufv : Bool) :
    dmaRxFrame n bufv s.swrCleared = .refused .notEnabled :=
  dmaRxFrame_of_not_granted bufv (by simp [State.swrCleared])

/-- Settles O48: both of DMA's other steps need a grant, and none is left. -/
theorem swrDoneForgetsTailPointers : Obligations.SwrDoneForgetsTailPointers := by
  unfold Obligations.SwrDoneForgetsTailPointers
  exact fun s => ⟨dmaSwrDone_of_not_swr, fun h => ⟨_, dmaSwrDone_of_swr h, s.swr_swrCleared, rfl,
    keepsRegsBut_swrCleared s, rfl, keepsOutside_swrCleared s, dmaTxDone_swrCleared s, dmaRxFrame_swrCleared s⟩⟩

/-! ### DMA.SWRESET (R251) -/

/-- One turn: where SEQ stood before plays no part in the step from a position. -/
theorem seqTurn_dmaSwreset (s : State) (k : SwresetPos) : seqTurn (s.goto (.dmaSwreset k)) = swresetStep k s := by
  cases k <;> rfl

theorem exec_dmaSwreset_start {s : State} (hq : s.seq = .idle) :
    exec .dmaSwreset s = .next (s.goto (.dmaSwreset .writeCtrl)) := by
  simp [exec, execDmaSwreset, hq]

/-- The soft reset asked of DMA, and the ring and the slot no longer valid. -/
def State.swrRequested (s : State) : State := (s.setReg .dmaCtrl 1#32).setReg .init 0#32

theorem State.swr_swrRequested (s : State) : s.swrRequested.swr = true := by
  simp [State.swr, State.swrRequested]

theorem playSeq_swreset_request (s : State) :
    playSeq 2 (s.goto (.dmaSwreset .writeCtrl)) = .next (s.swrRequested.goto (.dmaSwreset .poll)) := by
  rw [playSeq_succ ((seqTurn_dmaSwreset s .writeCtrl).trans rfl), playSeq_one, seqTurn_dmaSwreset]
  rfl

theorem seqTurn_swreset_poll_of_swr {s : State} (h : s.swr = true) :
    seqTurn (s.goto (.dmaSwreset .poll)) = .next (s.goto (.dmaSwreset .poll)) :=
  (seqTurn_dmaSwreset s .poll).trans (if_pos h)

theorem seqTurn_swreset_poll_of_not_swr {s : State} (h : s.swr = false) :
    seqTurn (s.goto (.dmaSwreset .poll)) = toReturn .dmaSwreset none none s :=
  (seqTurn_dmaSwreset s .poll).trans (if_neg (ne_true_of_eq_false h))

/-- A poll that sees SWR = 1 leads back to itself, any number of times and with no hook call (R153). -/
theorem playSeq_swreset_polls {s : State} (h : s.swr = true) (k : Nat) :
    playSeq k (s.goto (.dmaSwreset .poll)) = .next (s.goto (.dmaSwreset .poll)) := by
  induction k with
  | zero => rfl
  | succ k ih => rw [playSeq_succ (seqTurn_swreset_poll_of_swr h), ih]

/-- DMA clears SWR, the next poll sees it, and the operation returns. -/
theorem play_swreset_end {s : State} (h : s.swr = true) :
    play [.dmaSwrDone, .seq, .seq] (s.goto (.dmaSwreset .poll)) =
      .next (s.swrCleared.endOperation 0#32 none none none) := by
  have hdone : eventTurn .dmaSwrDone (s.goto (.dmaSwreset .poll)) = .next (s.swrCleared.goto (.dmaSwreset .poll)) :=
    dmaSwrDone_of_swr (s := s.goto (.dmaSwreset .poll)) h
  rw [play_cons hdone]
  exact play_return (es := [.seq]) rfl
    ((play_seq_singleton _).trans (seqTurn_swreset_poll_of_not_swr s.swr_swrCleared))

theorem keepsRegsBut_swreset (s : State) : KeepsRegsBut [.dmaCtrl, .init] s s.swrRequested.swrCleared := by
  unfold State.swrRequested State.swrCleared
  repeat refine keepsRegsBut_setReg (by decide) ?_
  exact keepsRegsBut_refl _ s

theorem mem_swreset (s : State) : s.swrRequested.swrCleared.mem = s.mem := rfl

theorem keepsOutside_swreset (s : State) : KeepsOutside s s.swrRequested.swrCleared := ⟨rfl, rfl, rfl, rfl⟩

/-- From its first write on: the request, `k` polls that see SWR = 1, DMA's completion, the poll that sees SWR = 0, and
the return. -/
theorem play_swreset (s : State) (k : Nat) :
    play ([.seq, .seq] ++ List.replicate k .seq ++ [.dmaSwrDone, .seq, .seq]) (s.goto (.dmaSwreset .writeCtrl)) =
      .next (s.swrRequested.swrCleared.endOperation 0#32 none none none) := by
  have hwait : play ([.seq, .seq] ++ List.replicate k .seq) (s.goto (.dmaSwreset .writeCtrl)) =
      .next (s.swrRequested.goto (.dmaSwreset .poll)) :=
    (play_append (playSeq_swreset_request s)).trans (playSeq_swreset_polls s.swr_swrRequested k)
  rw [play_append hwait, play_swreset_end s.swr_swrRequested]

/-- Settles O45: the run `play_swreset`, which calls no hook and writes DMA_CTRL and INIT alone before its return. -/
theorem swresetWaitsForDma : Obligations.SwresetWaitsForDma := by
  unfold Obligations.SwresetWaitsForDma
  intro s k hq
  obtain ⟨hregs, hmem⟩ := keeps_endOperation (keepsRegsBut_swreset s) (mem_swreset s) 0#32 none none none
  refine ⟨_, _, exec_dmaSwreset_start hq, nofun, play_swreset s k, rfl, ?_, ?_, ?_, ?_, hregs, hmem,
    keepsOutside_endOperation.2 (keepsOutside_swreset s)⟩
  all_goals simp [EndsWith, State.swrCleared, State.swrRequested]

end Sys2Proof.Machine
end

section
/-! SWR is 1 only while DMA.SWRESET waits for it (R251): SEQ sets it inside DMA.SWRESET alone, and leaves the poll only
where it is 0. -/

namespace Sys2Proof

open Sys2Proof.Machine

section
variable {s t : State}

theorem swrInv_of_not_swr (h : s.swr = false) : SwrInv s := fun hswr => absurd hswr (ne_true_of_eq_false h)

theorem SwrInv.congr (hinv : SwrInv s) (hq : t.seq = s.seq) (hctrl : t.reg .dmaCtrl = s.reg .dmaCtrl) :
    SwrInv t := by
  rwa [SwrInv, State.swr, hq, hctrl]

theorem SwrInv.setReg (hinv : SwrInv s) {r : Reg} (hr : r ≠ .dmaCtrl) (v : Word) : SwrInv (s.setReg r v) :=
  hinv.congr rfl (by rw [State.reg_setReg, if_neg hr.symm])

/-- Outside DMA.SWRESET, or before its first write, SWR is 0. -/
theorem SwrInv.not_swr (hinv : SwrInv s) (hclear : s.seq ≠ .dmaSwreset .clearInit)
    (hpoll : s.seq ≠ .dmaSwreset .poll) : s.swr = false :=
  Bool.eq_false_iff.2 fun hswr => (hinv hswr).elim hclear hpoll

/-- While SEQ is IDLE or inside another operation SWR is 0. -/
theorem SwrInv.not_swr_of_idleOrIn (hinv : SwrInv s) {i : Instr} (hne : i ≠ .dmaSwreset) (hq : s.seq.IdleOrIn i) :
    s.swr = false := by
  have hout (k : SwresetPos) : s.seq ≠ .dmaSwreset k := by
    intro hk
    rw [hk] at hq
    exact hq.elim nofun fun hi => hne (Option.some.inj hi).symm
  exact hinv.not_swr (hout _) (hout _)

/-! ### The operations -/

theorem execDmaSwreset_swrInv (hinv : SwrInv s) (h : execDmaSwreset s = .next t) : SwrInv t := by
  rcases execDmaSwreset_next h with ⟨hq, rfl⟩ | ⟨-, rfl⟩ | ⟨-, rfl⟩ | ⟨-, -, rfl⟩ | ⟨-, hswr, rfl⟩ | ⟨e, hq, h⟩
  · exact swrInv_of_not_swr (hinv.not_swr (by simp [hq]) (by simp [hq]))
  · exact fun _ => .inl rfl
  · exact fun _ => .inr rfl
  · exact fun _ => .inr rfl
  · exact swrInv_of_not_swr hswr
  · have hswr : s.swr = false := hinv.not_swr (by simp [hq]) (by simp [hq])
    obtain ⟨hregs, -⟩ := finish_stepsWithin (i := .dmaSwreset) (fun _ => id) h
    exact swrInv_of_not_swr (by rwa [State.swr, hregs .dmaCtrl (by decide)])

/-- Every other operation starts and goes on with SWR = 0, which it does not write. -/
theorem exec_swrInv_of_other {i : Instr} (hi : i.format = .opw) (hne : i ≠ .dmaSwreset) (hq : s.seq.IdleOrIn i)
    (hinv : SwrInv s) (h : exec i s = .next t) : SwrInv t := by
  obtain ⟨hregs, -⟩ := exec_stepsWithin_accesses hi h
  have hctrl : .dmaCtrl ∉ .mdioData :: i.accesses ++ endRegs := by
    cases i <;> simp_all [Instr.accesses, endRegs]
  exact swrInv_of_not_swr (by
    rw [State.swr, hregs .dmaCtrl hctrl]
    exact hinv.not_swr_of_idleOrIn hne hq)

/-- BUS's completion of a command word touches neither SEQ nor DMA_CTRL (R154, R155). -/
theorem exec_swrInv_of_cmdw {i : Instr} (hi : i.format = .cmdw) (hinv : SwrInv s) (h : exec i s = .next t) :
    SwrInv t := by
  refine hinv.congr ((exec_aroundFrame h).seq hi) ?_
  cases i with
  | cmdwRead p r => exact execCmdwRead_keepsRegs h .dmaCtrl (by decide)
  | cmdwWrite p r => exact execCmdwWrite_keepsRegs h .dmaCtrl (by decide)
  | _ => cases hi

theorem exec_swrInv {i : Instr} (hq : s.seq.IdleOrIn i) (hinv : SwrInv s) (h : exec i s = .next t) : SwrInv t := by
  cases hi : i.format with
  | opw =>
    by_cases hswreset : i = .dmaSwreset
    · subst hswreset
      exact execDmaSwreset_swrInv hinv h
    · exact exec_swrInv_of_other hi hswreset hq hinv h
  | cmdw => exact exec_swrInv_of_cmdw hi hinv h

/-! ### Every step of every agent -/

theorem hostWrite_swrInv {n : Fin 27} {v : Word} (hinv : SwrInv s) (h : hostWrite n v s = .next t) : SwrInv t := by
  obtain ⟨hq, ⟨r, hr, rfl⟩ | rfl | ⟨i, -, h⟩⟩ := hostWrite_next h
  · exact hinv.setReg (ne_of_mem_of_not_mem hr (by decide)) v
  · exact hinv.setReg (by decide) _
  · have hopw : SwrInv (s.setReg .opw v) := hinv.setReg (by decide) v
    exact exec_swrInv (s := s.setReg .opw v) (.inl hq) hopw h

theorem eventTurn_swrInv {e : Event} (hinv : SwrInv s) (h : eventTurn e s = .next t) : SwrInv t := by
  cases e with
  | seq =>
    rcases seqTurn_next h with ⟨-, rfl⟩ | ⟨i, hi, h⟩
    · exact hinv
    · exact exec_swrInv (.inr hi) hinv h
  | hostWrite n v => exact hostWrite_swrInv hinv h
  | hostRead n =>
    obtain rfl := next_eq_next.1 h
    exact hinv
  | hostMem a v =>
    obtain ⟨-, rfl⟩ := hostMem_next h
    exact hinv
  | bus =>
    obtain ⟨i, hi, h⟩ := busTurn_next h
    exact exec_swrInv_of_cmdw hi hinv h
  | phy p r v =>
    obtain ⟨-, rfl⟩ := phyTurn_next h
    exact hinv.congr (othersStep_phyWrite s p r v).seq (State.reg_phyWrite ..)
  | dmaTxDone slot =>
    obtain ⟨a, -, -, -, -, -, rfl⟩ := dmaTxDone_next h
    exact hinv
  | dmaRxFrame n bufv =>
    obtain ⟨a₂, a₃, -, -, -, -, -, -, -, rfl⟩ := dmaRxFrame_next h
    exact hinv
  | dmaSwrDone =>
    obtain ⟨-, rfl⟩ := dmaSwrDone_next h
    exact swrInv_of_not_swr s.swr_swrCleared
  | blockReset =>
    obtain rfl : s.afterReset = t := next_eq_next.1 h
    exact swrInv_of_not_swr (by simp [State.swr])

end

/-- Settles O58: HOST and BUS do not write SWR, DMA only clears it, and SEQ sets it inside DMA.SWRESET alone, which it
leaves only after a poll that saw SWR = 0. -/
theorem swrInvariantIsKept : Obligations.SwrInvariantIsKept := by
  unfold Obligations.SwrInvariantIsKept
  intro s t hinv h
  obtain ⟨e, rest, h⟩ := step_next h
  exact eventTurn_swrInv (s := { s with agenda := rest }) hinv h

end Sys2Proof
end

section
/-! The last step of an operation, its raise (R107, R267, R268) or its return (R269), and RX.POLL as a whole (R235,
R236, R265). -/

namespace Sys2Proof.Machine

/-! ### The last step of an operation (R267, R269) -/

/-- What the step that ends an operation leaves unchanged, whatever it ends with. -/
theorem endOperation_frame (s : State) (c : Word) (x y z : Option Word) :
    KeepsRegsBut endRegs s (s.endOperation c x y z) ∧ (s.endOperation c x y z).mem = s.mem ∧
      KeepsOutside s (s.endOperation c x y z) ∧ KeepsGrants s (s.endOperation c x y z) :=
  ⟨keepsRegsBut_endOperation (fun _ => id) s c x y z, State.mem_endOperation ..,
    keepsAround_endOperation.2 (keepsAround_refl s)⟩

/-- The step of an operation of the port that stands at its last one. -/
theorem exec_ending {i : Instr} {e : Ending} {s : State} (hi : i.format = .opw) (hq : s.seq = .ending i e) :
    exec i s = finish e s := by
  rw [← seqTurn_of_operation (by rw [hq]; rfl), seqTurn_ending hi hq]

/-- Settles O49: the last step is `finish`, which writes the raise's code and the hook's. -/
theorem raiseEndsTheOperation : Obligations.RaiseEndsTheOperation := by
  unfold Obligations.RaiseEndsTheOperation
  intro s i k hq hi
  refine ⟨s.endOperation k.code none none k.info, exec_ending hi hq, rfl, ?_, fun e hk => ?_,
    endOperation_frame s k.code none none k.info⟩
  · cases k <;> simp [Raise.code]
  · simp [hk, Raise.info]

/-- Settles O50: the last step is `finish`, which writes the values listed. -/
theorem returnWritesResults : Obligations.ReturnWritesResults := by
  unfold Obligations.ReturnWritesResults
  intro s i x y hq hi
  refine ⟨s.endOperation 0#32 x y none, exec_ending hi hq, rfl, ?_, fun v hv => ?_, fun v hv => ?_,
    endOperation_frame s 0#32 x y none⟩
  · simp
  · simp [Option.mem_def.1 hv]
  · simp [Option.mem_def.1 hv]

/-! ### RX.POLL (R235, R236, R265) -/

/-- The length RX.POLL reports is bits [29:16] of word 2 (R105, R111). -/
theorem toNat_rxLen (w2 : Word) : (rxLen w2).toNat = w2.toNat / 2 ^ 16 % 2 ^ 14 := by
  rw [rxLen, BitVec.toNat_setWidth_of_le (by decide), field, BitVec.toNat_setWidth, BitVec.toNat_ushiftRight,
    Nat.shiftRight_eq_div_pow]

/-- Settles O42: either poll is its end alone, on a ready slot with the length and the buffer, on an armed one with
NOT_READY. -/
theorem pollReportsTheFrame : Obligations.PollReportsTheFrame := by
  unfold Obligations.PollReportsTheFrame
  intro s hwf hq hv hset
  have hok := ringsOk_of_wellFormed hwf
  refine ⟨fun ho => ?_, fun ho => ?_⟩
  · obtain ⟨s₁, t, hstart, hbusy, hrun, hidle, rfl⟩ := rxPoll_completes_of_ready hok hq hv hset ho
    obtain ⟨hregs, hmem, houtside, hgrants⟩ := endOperation_frame s 0#32
      (some (rxLen (s.word (s.reg .rxDesc + 8#32)))) (some (s.reg .rxBuf)) none
    refine ⟨s₁, _, hstart, hbusy, hrun, hidle, ?_, ?_, ?_, hregs, fun a => by rw [hmem], houtside, hgrants⟩
    · simp [EndsWith]
    · simp [toNat_rxLen]
    · simp
  · obtain ⟨s₁, t, hstart, -, hrun, hidle, rfl⟩ := rxPoll_completes_of_owned hok hq hv hset ho
    obtain ⟨hregs, hmem, houtside, hgrants⟩ := endOperation_frame s 5#32 none none none
    refine ⟨s₁, _, hstart, hrun, hidle, ?_, hregs, fun a => by rw [hmem], houtside, hgrants⟩
    simp [EndsWith]

end Sys2Proof.Machine
end

section
/-! The reset of the block (R300), and what the state after it starts and refuses (R302). -/

namespace Sys2Proof.Machine

/-- Settles O11: every register reads 0, SEQ is IDLE, and everything else stays. -/
theorem blockResetValues : Obligations.BlockResetValues := by
  unfold Obligations.BlockResetValues
  intro s
  have hreg := s.reg_afterReset
  have hvalid : s.afterReset.phyValid = false := by rw [State.phyValid, hreg, BitVec.getLsbD_zero]
  exact ⟨s.afterReset, rfl, rfl, hreg _, hreg _, hreg _, hvalid, hreg _, hreg _, rfl, ⟨rfl, rfl, rfl, rfl⟩, rfl, rfl⟩

/-! ### The operands HOST writes after reset (R302) -/

/-- The state after reset with the operands HOST has written (R31, R51). -/
def State.resetWith (a0 a1 a2 : Word) : State := ((State.reset.setReg .arg0 a0).setReg .arg1 a1).setReg .arg2 a2

section
variable (a0 a1 a2 : Word)

@[simp] theorem State.seq_resetWith : (State.resetWith a0 a1 a2).seq = .idle := rfl

/-- The operands are the only registers that need not read 0. -/
theorem State.reg_resetWith {r : Reg} (hr : r ∉ ([.arg0, .arg1, .arg2] : List Reg)) :
    (State.resetWith a0 a1 a2).reg r = 0#32 := by
  simp only [List.mem_cons, List.not_mem_nil, or_false, not_or] at hr
  simp [State.resetWith, hr]

@[simp] theorem State.busy_resetWith : (State.resetWith a0 a1 a2).busy = false := by
  rw [State.busy, State.reg_resetWith a0 a1 a2 (by decide), cmdBusy, BitVec.getLsbD_zero]

@[simp] theorem State.phyValid_resetWith : (State.resetWith a0 a1 a2).phyValid = false := by
  rw [State.phyValid, State.reg_resetWith a0 a1 a2 (by decide), BitVec.getLsbD_zero]

@[simp] theorem State.txValid_resetWith : (State.resetWith a0 a1 a2).txValid = false := by
  rw [State.txValid, State.reg_resetWith a0 a1 a2 (by decide), BitVec.getLsbD_zero]

@[simp] theorem State.rxValid_resetWith : (State.resetWith a0 a1 a2).rxValid = false := by
  rw [State.rxValid, State.reg_resetWith a0 a1 a2 (by decide), BitVec.getLsbD_zero]

@[simp] theorem State.hookEn_resetWith : (State.resetWith a0 a1 a2).hookEn = false := by
  rw [State.hookEn, State.reg_resetWith a0 a1 a2 (by decide), BitVec.getLsbD_zero]

end

/-- Settles O13: with BUSY = 0 the MDIO operations start, with nothing set up PHY.RESET, PHY.LINKSTATUS and the
operations on a ring or a slot are refused. -/
theorem resetAllows : Obligations.ResetAllows := by
  unfold Obligations.ResetAllows
  intro a0 a1 a2
  have hidle := State.seq_resetWith a0 a1 a2
  have hfree := unlessBusy_of_not_busy (State.busy_resetWith a0 a1 a2)
  have hphy := State.phyValid_resetWith a0 a1 a2
  have htx := State.txValid_resetWith a0 a1 a2
  have hrx := State.rxValid_resetWith a0 a1 a2
  refine ⟨fun hp hr => ?mdioRead, fun hp hr hv => ?mdioWrite, fun hp => ?phySetaddr, ?phyDetect, ?dmaSwreset,
    fun ha hl hf => ?txSetdesc, fun ha hf => ?rxArm, exec_phyReset_of_no_address hidle hphy,
    exec_phyLinkstatus_of_no_address hidle hphy, exec_txPut_of_no_ring hidle htx, exec_txUpdate_of_no_ring hidle htx,
    exec_rxPoll_of_no_slot hidle hrx, exec_rxRearm_of_no_slot hidle hrx, State.hookEn_resetWith a0 a1 a2⟩
  case mdioRead => exact ⟨_, (exec_mdioRead_start hidle hp hr).trans (hfree _), rfl⟩
  case mdioWrite => exact ⟨_, (exec_mdioWrite_start hidle hp hr hv).trans (hfree _), rfl⟩
  case phySetaddr => exact ⟨_, exec_phySetaddr_start hidle hp, rfl⟩
  case phyDetect => exact ⟨_, (exec_phyDetect_start hidle).trans (hfree _), rfl⟩
  case dmaSwreset => exact ⟨_, exec_dmaSwreset_start hidle, rfl⟩
  case txSetdesc => exact ⟨_, exec_txSetdesc_start hidle hl (descAligned_iff.2 ha) (fitsBelow_iff.2 hf), rfl⟩
  case rxArm => exact ⟨_, exec_rxArm_start hidle hrx (slotGeometry_iff.2 ⟨ha, hf⟩), rfl⟩

end Sys2Proof.Machine
end

section
/-! SEQ's next step is always enabled (R320), but for the command write on a busy engine and the re-arm of a descriptor
DMA owns (R271). -/

namespace Sys2Proof.Machine

/-! ### Inside a transaction (R149, R171) -/

/-- A transaction for an address 0..62 is refused nowhere but at a write with BUSY = 1. -/
theorem mdioStep_refused {m : MdioPos} {s : State} {e : Refusal} (h : mdioStep m s = .refused e)
    (hm : ∀ p ∈ mdioTarget m, AddressOk p) : e = .commandWhileBusy ∧ s.busy = true := by
  have hbusy {p : PhyAddr} (hp : mdioTarget m = some p) (hb : s.busy = true) : e = .commandWhileBusy := by
    rw [mdioStep_of_busy hp (hm p hp) hb] at h
    injection h with h
    exact h.symm
  cases m with
  | writeData p r v =>
    cases hb : s.busy with
    | true => exact ⟨hbusy rfl hb, rfl⟩
    | false => rw [mdioStep_writeData (mdioRefusal_eq_none.2 ⟨hm p rfl, hb⟩)] at h; cases h
  | writeCmd p r o =>
    cases hb : s.busy with
    | true => exact ⟨hbusy rfl hb, rfl⟩
    | false => rw [mdioStep_writeCmd (mdioRefusal_eq_none.2 ⟨hm p rfl, hb⟩)] at h; cases h
  | poll o =>
    simp only [mdioStep] at h
    repeat' split at h
    all_goals cases h
  | cfg o => cases h
  | hook o => simp only [mdioStep] at h; split at h <;> cases h
  | readData => cases h

/-- The PHY address a transaction of either kind is about to write for is 0..62 (R112). -/
theorem addressOk_of_mdioTarget {m : MdioPos} (h : mdioIsRead m = true ∨ mdioIsWrite m = true) :
    ∀ p ∈ mdioTarget m, AddressOk p := by
  intro p hp
  cases m with
  | writeData q r v =>
    obtain rfl : q = p := Option.some.inj hp
    simpa [mdioIsRead, mdioIsWrite, AddressOk] using h
  | writeCmd q r o =>
    obtain rfl : q = p := Option.some.inj hp
    simp only [mdioIsRead, mdioIsWrite, Bool.and_eq_true, decide_eq_true_eq] at h
    exact h.elim And.left And.left
  | _ => cases hp

/-- Every transaction SEQ is inside is of its operation's kind. -/
theorem transactionKind_of_transactionInv {s : State} (h : TransactionInv s) {m : MdioPos}
    (hm : transactionOf s.seq = some m) : mdioIsRead m = true ∨ mdioIsWrite m = true := by
  obtain ⟨-, h⟩ := h
  cases hq : s.seq <;> rw [hq] at hm h <;> cases hm
  case mdioRead => exact .inl h
  case mdioWrite => exact .inr h
  case phyDetect => exact .inl h.2
  case phyResetWrite => exact .inr h.2
  case phyResetRead => exact .inl h.2
  case phyLinkFirst => exact .inl h.2
  case phyLinkSecond => exact .inl h.2

theorem detectSkip_answers (a : PhyAddr) (s : State) : ∃ t, detectSkip a s = .next t := by
  unfold detectSkip
  split <;> exact ⟨_, rfl⟩

/-- Every operation goes on with the value of its transaction and with its failure. -/
theorem answers_of_transactionOf {q : Seq} {m : MdioPos} (h : transactionOf q = some m) :
    ∃ at_ done failed, q = at_ m ∧ RunsTransaction at_ done failed ∧
      (∀ v s, ∃ t, done v s = .next t) ∧ ∀ e s, ∃ t, failed e s = .next t := by
  cases q with
  | mdioRead m' => cases h; exact ⟨_, _, _, rfl, runsTransaction_mdioRead, fun _ _ => ⟨_, rfl⟩, fun _ _ => ⟨_, rfl⟩⟩
  | mdioWrite m' => cases h; exact ⟨_, _, _, rfl, runsTransaction_mdioWrite, fun _ _ => ⟨_, rfl⟩, fun _ _ => ⟨_, rfl⟩⟩
  | phyDetect a m' =>
    cases h
    refine ⟨_, _, _, rfl, runsTransaction_phyDetect a, fun v s => ?_, fun _ s => detectSkip_answers a s⟩
    split
    · exact ⟨_, rfl⟩
    · exact detectSkip_answers a s
  | phyResetWrite p m' =>
    cases h
    exact ⟨_, _, _, rfl, runsTransaction_phyResetWrite p, fun _ _ => ⟨_, rfl⟩, fun _ _ => ⟨_, rfl⟩⟩
  | phyResetRead p m' =>
    cases h
    refine ⟨_, _, _, rfl, runsTransaction_phyResetRead p, fun v s => ?_, fun _ _ => ⟨_, rfl⟩⟩
    split <;> exact ⟨_, rfl⟩
  | phyLinkFirst p m' =>
    cases h
    refine ⟨_, _, _, rfl, runsTransaction_phyLinkFirst p, fun v s => ?_, fun _ _ => ⟨_, rfl⟩⟩
    split <;> exact ⟨_, rfl⟩
  | phyLinkSecond p m' =>
    cases h
    exact ⟨_, _, _, rfl, runsTransaction_phyLinkSecond p, fun _ _ => ⟨_, rfl⟩, fun _ _ => ⟨_, rfl⟩⟩
  | _ => cases h

theorem seqTurn_of_transactionOf {s : State} (hinv : TransactionInv s) {m : MdioPos}
    (hm : transactionOf s.seq = some m) :
    (∃ t, seqTurn s = .next t) ∨ seqTurn s = .refused .commandWhileBusy ∧ s.busy = true := by
  obtain ⟨at_, done, failed, hat, hrun, hdone, hfailed⟩ := answers_of_transactionOf hm
  rw [hrun m s hat, inTransaction]
  cases h : mdioStep m s with
  | more m' t => exact .inl ⟨_, rfl⟩
  | done v t => exact .inl (hdone v t)
  | failed e t => exact .inl (hfailed e t)
  | refused e =>
    obtain ⟨rfl, hb⟩ := mdioStep_refused h (addressOk_of_mdioTarget (transactionKind_of_transactionInv hinv hm))
    exact .inr ⟨rfl, hb⟩

/-! ### Inside the operations of the TX ring (R74, R201, R206) -/

theorem State.memRead_answers {s : State} {a : Word} (ha : accessible s.params a = true) {k : Word → Result}
    (hk : ∀ w, ∃ t, k w = .next t) : ∃ t, s.memRead a k = .next t :=
  State.memRead_of_accessible ha k ▸ hk _

theorem State.memWrite_answers {s : State} {a : Word} (ha : accessible s.params a = true) (v : Word)
    {k : State → Result} (hk : ∀ u, ∃ t, k u = .next t) : ∃ t, s.memWrite a v k = .next t :=
  State.memWrite_of_accessible ha v k ▸ hk _

section
variable {s : State} (hok : s.params.ringsOk = true)
include hok

/-- The words of the descriptor TX.PUT is at are those of a slot of the ring. -/
theorem accessible_of_atPutSlot {slot d : Word} (hset : RingSet s) (h : AtPutSlot s slot d) {k : Nat} (hk : k < 4) :
    accessible s.params (descWord s.params d k) = true := by
  obtain ⟨rfl, rfl⟩ := h
  exact accessible_descWord hok (slotGeometry_descOf hok hset _) hk

theorem putStep_answers {k : PutPos} (hset : RingSet s) (hp : PutProgress s k) (buf len : Word) :
    ∃ t, putStep k buf len s = .next t := by
  cases k with
  | readOwn slot d =>
    rw [putStep]
    refine State.memRead_answers (accessible_of_atPutSlot hok hset hp (by decide)) fun w => ?_
    split <;> exact ⟨_, rfl⟩
  | capEq slot d used =>
    rw [putStep]
    split <;> exact ⟨_, rfl⟩
  | writeBuf slot d =>
    exact State.memWrite_answers (accessible_of_atPutSlot hok hset hp.1 (by decide)) buf fun _ => ⟨_, rfl⟩
  | writeLen slot d =>
    exact State.memWrite_answers (accessible_of_atPutSlot hok hset hp.1 (by decide)) (txLenWord len) fun _ => ⟨_, rfl⟩
  | writeCtl slot d =>
    exact State.memWrite_answers (accessible_of_atPutSlot hok hset hp.1 (by decide)) txCtl fun _ => ⟨_, rfl⟩
  | _ => exact ⟨_, rfl⟩

theorem updateStep_answers {k : UpdatePos} (hset : RingSet s) (hp : UpdateProgress s k) :
    ∃ t, updateStep k s = .next t := by
  cases k with
  | readOwn d =>
    obtain ⟨rfl, -⟩ := hp
    exact State.memRead_answers (accessible_ctlAddress hok hset _) fun _ => ⟨_, rfl⟩
  | _ => exact ⟨_, rfl⟩

/-! ### Inside the operations of the RX slot (R74, R232, R239) -/

theorem armStep_answers {d : Word} (hd : SlotGeometry s.params d) (k : ArmPos) (buf : Word) :
    ∃ t, armStep k d buf s = .next t := by
  cases k with
  | memBuf => exact State.memWrite_answers (accessible_descWord hok hd (by decide)) buf fun _ => ⟨_, rfl⟩
  | memCtl => exact State.memWrite_answers (accessible_descWord hok hd (by decide)) rxCtl fun _ => ⟨_, rfl⟩
  | _ => exact ⟨_, rfl⟩

theorem pollStep_answers {k : PollPos} (hset : SlotSet s) (hp : PollProgress s k) : ∃ t, pollStep k s = .next t := by
  obtain ⟨hgeo, -⟩ := hset
  cases k with
  | readOwn d =>
    obtain rfl : d = s.reg .rxDesc := hp
    rw [pollStep]
    refine State.memRead_answers (accessible_descWord hok hgeo (by decide)) fun w => ?_
    split <;> exact ⟨_, rfl⟩
  | readLen d =>
    obtain rfl : d = s.reg .rxDesc := hp
    exact State.memRead_answers (accessible_descWord hok hgeo (by decide)) fun _ => ⟨_, rfl⟩
  | _ => exact ⟨_, rfl⟩

/-- The OWN test alone refuses (R239). -/
theorem rearmStep_answers_or_owned {k : RearmPos} (hset : SlotSet s) (hp : RearmProgress s k) :
    (∃ t, rearmStep k s = .next t) ∨ rearmStep k s = .refused .descriptorDmaOwned ∧ ∃ d, k = .readOwn d := by
  obtain ⟨hgeo, -⟩ := hset
  cases k with
  | readOwn d =>
    obtain rfl : d = s.reg .rxDesc := hp
    rw [rearmStep, State.memRead_of_accessible (accessible_descWord hok hgeo (by decide))]
    split
    · exact .inr ⟨rfl, _, rfl⟩
    · exact .inl ⟨_, rfl⟩
  | writeCtl d =>
    obtain rfl : d = s.reg .rxDesc := hp
    exact .inl (State.memWrite_answers (accessible_descWord hok hgeo (by decide)) rxCtl fun _ => ⟨_, rfl⟩)
  | _ => exact .inl ⟨_, rfl⟩

end

/-! ### Every position -/

section
variable {s : State}

theorem seqTurn_answers_of_txSetdesc {k : SetdescPos} {base n : Word} (hq : s.seq = .txSetdesc k base n) :
    ∃ t, seqTurn s = .next t := by
  rw [← State.goto_seq hq, seqTurn_txSetdesc]
  cases k <;> exact ⟨_, rfl⟩

theorem seqTurn_answers_of_txPut {k : PutPos} {buf len : Word} (hq : s.seq = .txPut k buf len) (h : TxRingInv s) :
    ∃ t, seqTurn s = .next t := by
  obtain ⟨hwf, -, hset, -, hp⟩ := (txRingInv_txPut hq).1 h
  rw [← State.goto_seq hq, seqTurn_txPut]
  exact putStep_answers (ringsOk_of_wellFormed hwf) hset hp buf len

theorem seqTurn_answers_of_txUpdate {k : UpdatePos} (hq : s.seq = .txUpdate k) (h : TxRingInv s) :
    ∃ t, seqTurn s = .next t := by
  obtain ⟨hwf, -, hset, hp⟩ := (txRingInv_txUpdate hq).1 h
  rw [← State.goto_seq hq, seqTurn_txUpdate]
  exact updateStep_answers (ringsOk_of_wellFormed hwf) hset hp

theorem seqTurn_answers_of_rxArm {k : ArmPos} {d buf : Word} (hq : s.seq = .rxArm k d buf) (h : RxSlotInv s) :
    ∃ t, seqTurn s = .next t := by
  obtain ⟨hwf, -, hgeo, -⟩ := (rxSlotInv_rxArm hq).1 h
  rw [← State.goto_seq hq, seqTurn_rxArm]
  exact armStep_answers (ringsOk_of_wellFormed hwf) hgeo k buf

theorem seqTurn_answers_of_rxPoll {k : PollPos} (hq : s.seq = .rxPoll k) (h : RxSlotInv s) :
    ∃ t, seqTurn s = .next t := by
  obtain ⟨hwf, -, hset, hp⟩ := (rxSlotInv_rxPoll hq).1 h
  rw [← State.goto_seq hq, seqTurn_rxPoll]
  exact pollStep_answers (ringsOk_of_wellFormed hwf) hset hp

theorem seqTurn_of_rxRearm {k : RearmPos} (hq : s.seq = .rxRearm k) (h : RxSlotInv s) :
    (∃ t, seqTurn s = .next t) ∨ seqTurn s = .refused .descriptorDmaOwned ∧ ∃ d, s.seq = .rxRearm (.readOwn d) := by
  obtain ⟨hwf, -, hset, hp⟩ := (rxSlotInv_rxRearm hq).1 h
  have hturn : seqTurn s = rearmStep k s := by rw [← seqTurn_rxRearm, State.goto_seq hq]
  rw [hturn]
  refine (rearmStep_answers_or_owned (ringsOk_of_wellFormed hwf) hset hp).imp_right ?_
  rintro ⟨hstep, d, rfl⟩
  exact ⟨hstep, d, hq⟩

theorem seqTurn_answers_of_phyResetCfg {p : PhyAddr} (hq : s.seq = .phyResetCfg p) : ∃ t, seqTurn s = .next t := by
  cases hh : s.hookEn with
  | true => exact ⟨_, seqTurn_phyResetCfg_of_hook hq hh⟩
  | false => exact ⟨_, seqTurn_phyResetCfg_of_no_hook hq hh⟩

theorem seqTurn_answers_of_phyResetHook {p : PhyAddr} (hq : s.seq = .phyResetHook p) : ∃ t, seqTurn s = .next t := by
  rw [seqTurn_of_operation (i := .phyReset) (by rw [hq]; rfl)]
  simp only [exec, execPhyReset, hq]
  split <;> exact ⟨_, rfl⟩

theorem seqTurn_answers_of_dmaSwreset {k : SwresetPos} (hq : s.seq = .dmaSwreset k) : ∃ t, seqTurn s = .next t := by
  rw [← State.goto_seq hq, seqTurn_dmaSwreset]
  cases k with
  | poll => rw [swresetStep]; split <;> exact ⟨_, rfl⟩
  | _ => exact ⟨_, rfl⟩

end

/-- Settles O60: where SEQ stands says which of the invariants makes its step enabled; inside a transaction a write
finds BUSY = 1, and an RX.REARM finds OWN = 1, where it is not. -/
theorem sequencerStepsOrIsRefused : Obligations.SequencerStepsOrIsRefused := by
  unfold Obligations.SequencerStepsOrIsRefused
  intro s htx hrx hinv
  cases hq : s.seq with
  | idle => exact .inl ⟨s, by simp only [seqTurn, hq, Seq.operation]⟩
  | mdioRead m | mdioWrite m | phyDetect a m | phyResetWrite p m | phyResetRead p m | phyLinkFirst p m
  | phyLinkSecond p m => exact (seqTurn_of_transactionOf hinv (m := m) (by rw [hq]; rfl)).imp_right .inl
  | phySetaddr a => exact .inl ⟨_, seqTurn_phySetaddr hq⟩
  | phyDetectStore a => exact .inl ⟨_, seqTurn_phyDetectStore hq⟩
  | phyResetAddr => exact .inl ⟨_, seqTurn_phyResetAddr hq⟩
  | phyResetCfg p => exact .inl (seqTurn_answers_of_phyResetCfg hq)
  | phyResetHook p => exact .inl (seqTurn_answers_of_phyResetHook hq)
  | phyLinkAddr => exact .inl ⟨_, seqTurn_phyLinkAddr hq⟩
  | txSetdesc k base n => exact .inl (seqTurn_answers_of_txSetdesc hq)
  | txPut k buf len => exact .inl (seqTurn_answers_of_txPut hq htx)
  | txUpdate k => exact .inl (seqTurn_answers_of_txUpdate hq htx)
  | rxArm k d buf => exact .inl (seqTurn_answers_of_rxArm hq hrx)
  | rxPoll k => exact .inl (seqTurn_answers_of_rxPoll hq hrx)
  | rxRearm k => exact hq ▸ (seqTurn_of_rxRearm hq hrx).imp_right Or.inr
  | dmaSwreset k => exact .inl (seqTurn_answers_of_dmaSwreset hq)
  | ending i e =>
    obtain ⟨t, ht, -⟩ := finish_next e s
    exact .inl ⟨t, (seqTurn_ending (operation_format hinv (by rw [hq]; rfl)) hq).trans ht⟩

end Sys2Proof.Machine
end
